-- ==== Sys2Proof/Word.lean ====
section
/-! DEFINITION. The word types of HBP (00_scope.md R7, R8), one for each width of R7. Every quantity is unsigned. That each
type has the width the configuration record gives is proved in Laws/Config.lean. -/

namespace Sys2Proof

/-- A byte or a symbol (R7 `SYM_W`, R8). -/
abbrev Byte := BitVec 8

/-- A command word (R7 `CMD_W`, R76). -/
abbrev Word := BitVec 32

/-- A response value, a `FINFO` value or a CSR read value (R7 `RESP_W`, R34, R38). -/
abbrev Resp := BitVec 64

/-- An index into node memory (R7 `NODE_IDX_W`, R32). -/
abbrev NodeIdx := BitVec 9

/-- A padding-bit count (R7 `PAD_W`, R20, R36). -/
abbrev PadCount := BitVec 3

/-- A tree byte-length (R7 `TLEN_W`, R19, R21). -/
abbrev TreeLen := BitVec 13

/-- A header value (R7 `HDR_W`, R37, R64). -/
abbrev Header := BitVec 16

/-- The packer's running bit total (R7 `TOTAL_W`, R16). -/
abbrev Total := BitVec 64

end Sys2Proof
end

