-- ==== Sys2Proof/Config.lean ====
section
/-! DEFINITION. The configuration record of 00_scope.md R7: every parameter of the table is a field of `Config`, in the
table's order. State carries the record of its launch. -/

namespace Sys2Proof

/-- A parameter whose value R7 fixes: the value stands in the type, so no launch can give it another. -/
structure Fixed (v : Nat) where
  deriving DecidableEq, Repr

/-- The value of a fixed parameter. -/
abbrev Fixed.val {v : Nat} (_ : Fixed v) : Nat := v

/-- The parameters of the block (R7). The fixed ones are of a type `Fixed`; the others are what a launch may choose: the
open parameters of 92_eei_decisions.md (log entries 9, 10, 11) and the input. A statement about every state holds for every
choice of them. -/
structure Config where
  /-- `SYM_W`: bits in a symbol. -/
  symW : Fixed 8 := {}
  /-- `ALPHABET`: symbols in the alphabet. -/
  alphabet : Fixed 256 := {}
  /-- `PAD_W`: bits of the padding-bit count. -/
  padW : Fixed 3 := {}
  /-- `TLEN_W`: bits of the tree byte-length. -/
  tlenW : Fixed 13 := {}
  /-- `TLEN_MAX` (R19): the largest tree byte-length the header can hold. -/
  tlenMax : Fixed 8191 := {}
  /-- `HDR_W`: bits of the header. -/
  hdrW : Fixed 16 := {}
  /-- `MARK` (R67, D8): the byte that opens an internal node. -/
  mark : Byte := 0x2A
  /-- `ESC` (R67, D8): the byte that precedes a leaf symbol equal to one of the two reserved bytes. -/
  esc : Byte := 0x5C
  /-- `HDR_BIG_ENDIAN` (R48, D7): whether the header byte at offset 0 holds header bits 15 to 8. -/
  hdrBigEndian : Bool := true
  /-- `NODE_CAP` (R32): entries of node memory. -/
  nodeCap : Fixed 512 := {}
  /-- `NODE_IDX_W`: bits of a node index. -/
  nodeIdxW : Fixed 9 := {}
  /-- `STK_CAP` (R29): entries of the hidden traversal stack. -/
  stkCap : Fixed 256 := {}
  /-- `TOTAL_W`: bits of the packer's running bit total. -/
  totalW : Fixed 64 := {}
  /-- `CHUNK_MAX` (R78): most code bits one `PUTC` carries. -/
  chunkMax : Fixed 16 := {}
  /-- `CMD_W`: bits of a command word. -/
  cmdW : Fixed 32 := {}
  /-- `RESP_W`: bits of a command's response value. -/
  respW : Fixed 64 := {}
  /-- `CHECK_TLEN` (R121, D16): whether `TDES` checks the header's tree byte-length. -/
  checkTlen : Bool := true
  /-- `IN` (D6, R31): the input byte sequence of the launch. -/
  input : List Byte
  deriving DecidableEq, Repr

namespace Config

/-- The defaults of R7, with an empty `IN` (log entry 3). -/
def default : Config := { input := [] }

/-- The two reserved bytes are distinct (92_eei_decisions.md "Open parameters": "byte values, distinct"). -/
abbrev ok (c : Config) : Prop := c.mark ≠ c.esc

/-- The number of assigned CSRs (R38): numbers 0x00 to 0x0F. -/
def csrCount : Nat := 16

/-- `TSER` runs at most this many loop passes (R116, R178). -/
def tserPasses : Nat := 8192

/-- `TDES` takes at most this many tokens (R118, R178). -/
def tdesPasses : Nat := 513

end Config

end Sys2Proof
end

