-- ==== Sys2Proof/Syntax.lean ====
section
/-! DEFINITION. The instructions of HBP: one constructor per row of spec/opcode_table.json, that is the sixteen
commands (30_encoding.md R79) and the three tokens of the serialized tree (R67). -/

namespace Sys2Proof

/-- One row of the opcode table with its operand fields (R77, R78; for the tokens R67). -/
inductive Instr where
  /-- `NOP` (R133). -/
  | nop
  /-- `RST` (R134). -/
  | rst
  /-- `RDCSR csr` (R135). -/
  | rdcsr (csr : BitVec 8)
  /-- `PUTB bit` (R88). -/
  | putb (bit : Bool)
  /-- `PUTC len, code` (R89). -/
  | putc (len : BitVec 5) (code : BitVec 16)
  /-- `FIN` (R91). -/
  | fin
  /-- `NLEAF idx, sym` (R107). -/
  | nleaf (idx : NodeIdx) (sym : Byte)
  /-- `NINT idx, left, right` (R108). -/
  | nint (idx left right : NodeIdx)
  /-- `SROOT idx` (R109). -/
  | sroot (idx : NodeIdx)
  /-- `NRD idx` (R110). -/
  | nrd (idx : NodeIdx)
  /-- `TSER` (R112). -/
  | tser
  /-- `TDES` (R118). -/
  | tdes
  /-- `HPUT` (R127). -/
  | hput
  /-- `HGET` (R129). -/
  | hget
  /-- `HSET imm16` (R130). -/
  | hset (imm16 : BitVec 16)
  /-- `UNPK` (R96). -/
  | unpk
  /-- The token `MARK`: an internal node, its two subtrees follow (R67). -/
  | mark
  /-- The token `ESC s`: a leaf with symbol `s`, written after the escape byte (R67). -/
  | esc (sym : Byte)
  /-- The token `LIT s`: a leaf with symbol `s`, written as itself (R67). -/
  | lit (sym : Byte)
  deriving DecidableEq, Repr

end Sys2Proof
end

