-- ==== Sys2Proof/WellFormed.lean ====
section
/-! DEFINITION. Which instructions have an encoding of their own (30_encoding.md R78, R80; for `LIT` R67). -/

namespace Sys2Proof

/-- `PUTC`'s `len` is 0 to 16 (R78, R80 (c)); `RDCSR`'s `csr` is 0x00 to 0x0F (R78, R80 (d)); a `LIT` symbol is neither
reserved byte (R67). Every other field value is legal (R78). -/
def Instr.wellFormed (c : Config) : Instr → Bool
  | .putc len _ => decide (len.toNat ≤ c.chunkMax.val)
  | .rdcsr csr => decide (csr.toNat < Config.csrCount)
  | .lit sym => decide (sym ≠ c.mark) && decide (sym ≠ c.esc)
  | .nop => true
  | .rst => true
  | .putb _ => true
  | .fin => true
  | .nleaf _ _ => true
  | .nint _ _ _ => true
  | .sroot _ => true
  | .nrd _ => true
  | .tser => true
  | .tdes => true
  | .hput => true
  | .hget => true
  | .hset _ => true
  | .unpk => true
  | .mark => true
  | .esc _ => true

end Sys2Proof
end

