-- ==== Sys2Proof/Decode.lean ====
section
/-! DEFINITION. Decoding and encoding (30_encoding.md). A command is one 32-bit word (R76 to R80); a token of the
serialized tree is one or two bytes (R67, R69). Decoding is total and refuses by name; the encoder stands after it. -/

namespace Sys2Proof

/-- Why bits are no instruction. The first four make a command word illegal (R80 (a) to (d)); the last two are an input
that ends where a token should be, or inside one (R122). -/
inductive Reject where
  /-- R80 (a). -/
  | unassignedOpcode (op : BitVec 5)
  /-- R80 (b). -/
  | reservedBit (op : BitVec 5)
  /-- R80 (c). -/
  | putcLen (len : BitVec 5)
  /-- R80 (d). -/
  | csrNumber (csr : BitVec 8)
  /-- No byte is left where a token should begin (R122). -/
  | noByte
  /-- The input ends after the escape byte (R122). -/
  | escCut
  deriving DecidableEq, Repr

/-- The bits of an instruction as the block meets them: a command word the host presents (R76), or bytes of the
serialized tree (R67). -/
inductive Encoding where
  | word (w : Word)
  | bytes (bs : List Byte)
  deriving DecidableEq, Repr

/-! ### Fields of a command word (R76, R77) -/

/-- `W[31:27]`. -/
def fOpcode (w : Word) : BitVec 5 := w.extractLsb' 27 5
/-- `W[26:18]` of formats L, N, X. -/
def fIdx (w : Word) : NodeIdx := w.extractLsb' 18 9
/-- `W[17:9]` of format N. -/
def fLeft (w : Word) : NodeIdx := w.extractLsb' 9 9
/-- `W[8:0]` of format N. -/
def fRight (w : Word) : NodeIdx := w.extractLsb' 0 9
/-- `W[7:0]` of format L. -/
def fSym (w : Word) : Byte := w.extractLsb' 0 8
/-- `W[7:0]` of format R. -/
def fCsr (w : Word) : BitVec 8 := w.extractLsb' 0 8
/-- `W[0]` of format B. -/
def fBit (w : Word) : Bool := w.getLsbD 0
/-- `W[20:16]` of format C. -/
def fLen (w : Word) : BitVec 5 := w.extractLsb' 16 5
/-- `W[15:0]` of format C. -/
def fCode (w : Word) : BitVec 16 := w.extractLsb' 0 16
/-- `W[15:0]` of format H. -/
def fImm16 (w : Word) : BitVec 16 := w.extractLsb' 0 16

/-- A format's reserved bits `W[lo+n-1:lo]` must be 0 (R77). -/
def reserved (w : Word) (lo n : Nat) (k : Except Reject Instr) : Except Reject Instr :=
  if w.extractLsb' lo n = 0 then k else .error (.reservedBit (fOpcode w))

/-- The decoder of command words (R76 to R80), by the opcode map of R79. -/
def decodeWord (w : Word) : Except Reject Instr :=
  match (fOpcode w).toNat with
  | 0x00 => reserved w 0 27 (.ok .nop)
  | 0x01 => reserved w 0 27 (.ok .rst)
  | 0x02 =>
    reserved w 8 19 (if (fCsr w).toNat < Config.csrCount then .ok (.rdcsr (fCsr w)) else .error (.csrNumber (fCsr w)))
  | 0x04 => reserved w 1 26 (.ok (.putb (fBit w)))
  | 0x05 =>
    reserved w 21 6 (if (fLen w).toNat ≤ Config.default.chunkMax.val then .ok (.putc (fLen w) (fCode w)) else .error (.putcLen (fLen w)))
  | 0x06 => reserved w 0 27 (.ok .fin)
  | 0x08 => reserved w 8 10 (.ok (.nleaf (fIdx w) (fSym w)))
  | 0x09 => .ok (.nint (fIdx w) (fLeft w) (fRight w))
  | 0x0A => reserved w 0 18 (.ok (.sroot (fIdx w)))
  | 0x0B => reserved w 0 18 (.ok (.nrd (fIdx w)))
  | 0x0C => reserved w 0 27 (.ok .tser)
  | 0x0D => reserved w 0 27 (.ok .tdes)
  | 0x10 => reserved w 0 27 (.ok .hput)
  | 0x11 => reserved w 0 27 (.ok .hget)
  | 0x12 => reserved w 16 11 (.ok (.hset (fImm16 w)))
  | 0x14 => reserved w 0 27 (.ok .unpk)
  | _ => .error (.unassignedOpcode (fOpcode w))

/-- The decoder of tree tokens (R69): the first byte alone decides the form. It gives the bytes that are left. -/
def decodeToken (c : Config) : List Byte → Except Reject (Instr × List Byte)
  | [] => .error .noByte
  | b :: rest =>
    if b = c.esc then
      match rest with
      | [] => .error .escCut
      | s :: rest' => .ok (.esc s, rest')
    else if b = c.mark then .ok (.mark, rest)
    else .ok (.lit b, rest)

/-- The decoder of either kind of bits. -/
def decode (c : Config) : Encoding → Except Reject Instr
  | .word w => decodeWord w
  | .bytes bs =>
    match decodeToken c bs with
    | .ok (i, _) => .ok i
    | .error e => .error e

/-! ### The encoder -/

/-- `W = 0x10000000 | csr` (R135). -/
def encRdcsr (csr : BitVec 8) : Word := 0x10000000#32 ||| csr.setWidth 32
/-- `W = 0x20000000 | bit` (R88). -/
def encPutb (bit : Bool) : Word := 0x20000000#32 ||| (BitVec.ofBool bit).setWidth 32
/-- `W = 0x28000000 | (len << 16) | code` (R89). -/
def encPutc (len : BitVec 5) (code : BitVec 16) : Word :=
  0x28000000#32 ||| (len.setWidth 32 <<< 16) ||| code.setWidth 32
/-- `W = 0x40000000 | (idx << 18) | sym` (R107). -/
def encNleaf (idx : NodeIdx) (sym : Byte) : Word := 0x40000000#32 ||| (idx.setWidth 32 <<< 18) ||| sym.setWidth 32
/-- `W = 0x48000000 | (idx << 18) | (left << 9) | right` (R108). -/
def encNint (idx left right : NodeIdx) : Word :=
  0x48000000#32 ||| (idx.setWidth 32 <<< 18) ||| (left.setWidth 32 <<< 9) ||| right.setWidth 32
/-- `W = 0x50000000 | (idx << 18)` (R109). -/
def encSroot (idx : NodeIdx) : Word := 0x50000000#32 ||| (idx.setWidth 32 <<< 18)
/-- `W = 0x58000000 | (idx << 18)` (R110). -/
def encNrd (idx : NodeIdx) : Word := 0x58000000#32 ||| (idx.setWidth 32 <<< 18)
/-- `W = 0x68000000` (R118). -/
def encTdes : Word := 0x68000000#32
/-- `W = 0x90000000 | imm16` (R130). -/
def encHset (imm16 : BitVec 16) : Word := 0x90000000#32 ||| imm16.setWidth 32
/-- `W = 0xA0000000` (R96). -/
def encUnpk : Word := 0xA0000000#32

/-- The bits of an instruction: a word for a command (R79), bytes for a token (R67). -/
def encode (c : Config) : Instr → Encoding
  | .nop => .word 0x00000000#32
  | .rst => .word 0x08000000#32
  | .rdcsr csr => .word (encRdcsr csr)
  | .putb bit => .word (encPutb bit)
  | .putc len code => .word (encPutc len code)
  | .fin => .word 0x30000000#32
  | .nleaf idx sym => .word (encNleaf idx sym)
  | .nint idx left right => .word (encNint idx left right)
  | .sroot idx => .word (encSroot idx)
  | .nrd idx => .word (encNrd idx)
  | .tser => .word 0x60000000#32
  | .tdes => .word encTdes
  | .hput => .word 0x80000000#32
  | .hget => .word 0x88000000#32
  | .hset imm16 => .word (encHset imm16)
  | .unpk => .word encUnpk
  | .mark => .bytes [c.mark]
  | .esc sym => .bytes [c.esc, sym]
  | .lit sym => .bytes [sym]

/-! ### The opcode table's numbering -/

/-- The bits `w` of a row of `nbits` bits, as the block meets them. Rows of 8 and 16 bits are tree tokens, whose first
byte is the table's high byte (opcode_table.json: "the 16-bit value (first byte << 8) | second byte"), followed by a
byte 0 where the row is shorter than the longest token; every other row is a command word (log entry 16). -/
def layOut (nbits w : Nat) : Encoding :=
  if nbits ≤ 8 then .bytes [BitVec.ofNat 8 w, 0]
  else if nbits ≤ 16 then .bytes [BitVec.ofNat 8 (w / 256), BitVec.ofNat 8 w]
  else .word (BitVec.ofNat 32 w)

/-- The instruction the decoder reads from a row's bits, at the default parameters. -/
def decodeTableWord (nbits w : Nat) : Option Instr :=
  match decode Config.default (layOut nbits w) with
  | .ok i => some i
  | .error _ => none

end Sys2Proof
end

