-- ==== Sys2Proof/Machine/State.lean ====
section
/-! DEFINITION. The state of HBP as plain data (10_state.md R13 to R40), the reasons a step can stop, and the state
after reset. The launch's arguments (R13: the record of R7 with `IN`, and the sequence of commands) stand in the state too,
because a step reads nothing else; no command changes them. -/

namespace Sys2Proof.Machine

/-- The content of a valid node memory entry (R32): `K = 0` with `SYM`, or `K = 1` with `LEFT` and `RIGHT`. An entry with
`V = 0` has no content and is not listed (log entry 6). -/
inductive Node where
  | leaf (sym : Byte)
  | internal (left right : NodeIdx)
  deriving DecidableEq, Repr

/-- An entry of the traversal stack (R29): a node index and, for `TDES`, whether the node still waits for its left child.
`TSER` leaves the bit false. -/
structure StkEntry where
  node : NodeIdx
  waitLeft : Bool
  deriving DecidableEq, Repr

/-- The cause names of R159. `NONE` is no cause. -/
inductive Cause where
  | illegal
  | seq
  | noHdr
  | hdrTrunc
  | treeTrunc
  | tlenMismatch
  | nodeOvf
  | stkOvf
  | tlenOvf
  | badNode
  | noTree
  | badPad
  | truncCode
  deriving DecidableEq, Repr

/-- The state (R13). -/
structure State where
  /-- The configuration record of the launch, `IN` among its fields (R7). -/
  cfg : Config
  /-- The command words the host has yet to present, next first: the model's own (R30, log entry 1). -/
  cmds : List Word
  /-- `ACC`, the packer's sub-byte accumulator (R14). -/
  acc : BitVec 8
  /-- `NBUF`, the count of bits buffered (R15). -/
  nbuf : BitVec 3
  /-- `TOTAL`, the running total of bits (R16). -/
  total : Total
  /-- `FDONE`, set by `FIN` (R17). -/
  fdone : Bool
  /-- `TLEN`, the bytes the last `TSER` appended (R19). -/
  tlen : TreeLen
  /-- `PAD`, the header's padding count (R20). -/
  pad : PadCount
  /-- `HTLEN`, the header's tree byte-length (R21). -/
  htlen : TreeLen
  /-- `HV`, header valid (R22). -/
  hv : Bool
  /-- `TCNT`, the bytes the last `TDES` consumed (R23). -/
  tcnt : TreeLen
  /-- `NALLOC`, the entries the last `TDES` allocated (R24). -/
  nalloc : BitVec 10
  /-- `ROOT`, the root's node index (R25). -/
  root : NodeIdx
  /-- `ROOTV`, root valid (R26). -/
  rootv : Bool
  /-- `HOLD`, the unpacker's lookahead byte (R27). -/
  hold : Byte
  /-- `HOLDV` (R27). -/
  holdv : Bool
  /-- `WALK`, where the tree walk stands (R28). -/
  walk : NodeIdx
  /-- `STK` below `SP`, innermost entry first; `SP` is its length (R29, log entry 8). -/
  stk : List StkEntry
  /-- `TDES` stands at the top of its loop (R118); false between commands: the model's own (log entry 5). -/
  treeOpen : Bool
  /-- `IPOS`, the index in `IN` of the next byte (R31). -/
  ipos : BitVec 64
  /-- `NM`: the entries with `V = 1`, by rising index (R32, log entry 6). -/
  nm : List (Nat × Node)
  /-- `COUT`, the container output (R33). -/
  cout : List Byte
  /-- `SOUT`, the symbol output (R33). -/
  sout : List Byte
  /-- `FAULT` (R34). -/
  fault : Bool
  /-- `FCAUSE` (R34). -/
  fcause : BitVec 4
  /-- `FINFO` (R34). -/
  finfo : Resp
  /-- The response value of the last command (R7 `RESP_W`, R9). -/
  resp : Resp
  deriving DecidableEq, Repr

/-- Why the machine itself would stop. The faults of the SPEC are not here: they are latched in the state (R155). -/
inductive Fault where
  /-- Raised by the loops of `TSER`, `TDES` and `UNPK` if one were to run past the bound R178 gives it. Safe: the machine
  stops where the hardware would go on. R178 says it does not happen. -/
  | loopBound
  deriving DecidableEq, Repr

/-- Why an instruction would have no meaning. -/
inductive Refusal where
  /-- Raised by an arm of `exec` whose instruction has no meaning yet; no arm is so. Safe. -/
  | notModelled (mnemonic : String)
  deriving DecidableEq, Repr

/-- Every register as the reset table of R40 has it, with the launch's record, the host's further words and the output streams
given. -/
def State.fresh (c : Config) (ws : List Word) (container symbols : List Byte) : State where
  cfg := c
  cmds := ws
  acc := 0
  nbuf := 0
  total := 0
  fdone := false
  tlen := 0
  pad := 0
  htlen := 0
  hv := false
  tcnt := 0
  nalloc := 0
  root := 0
  rootv := false
  hold := 0
  holdv := false
  walk := 0
  stk := []
  treeOpen := false
  ipos := 0
  nm := []
  cout := container
  sout := symbols
  fault := false
  fcause := 0
  finfo := 0
  resp := 0

/-- Hardware reset with the launch's record (R40, R167): every register 0, node memory all invalid, the streams empty. -/
def State.launch (c : Config) : State := State.fresh c [] [] []

/-- The state right after reset, with the default parameters and an empty `IN` (log entry 3). -/
def State.reset : State := State.launch Config.default

end Sys2Proof.Machine
end

