-- ==== Sys2Proof/Machine/Ops.lean ====
section
/-! DEFINITION. The named operations over node memory, the streams, the stack and the fault latch (20_memory.md
R50 to R53; 60_exceptions.md R155 to R157). -/

namespace Sys2Proof.Machine

/-- `zext_64` (R8). -/
def zext64 {n : Nat} (v : BitVec n) : Resp := v.setWidth 64

/-! ### Node memory (R32, R53) -/

/-- The content of an entry, `none` where `V = 0`. -/
def nmRead : List (Nat × Node) → Nat → Option Node
  | [], _ => none
  | (k, v) :: rest, i => if k = i then some v else nmRead rest i

/-- Write a whole entry (`V <- 1`), keeping the list sorted by index. -/
def nmWrite : List (Nat × Node) → Nat → Node → List (Nat × Node)
  | [], i, v => [(i, v)]
  | (k, u) :: rest, i, v =>
    if i < k then (i, v) :: (k, u) :: rest
    else if i = k then (i, v) :: rest
    else (k, u) :: nmWrite rest i v

/-- The canonical form of node memory: indices strictly rising and inside 0 to 511 (R32). An unlisted index reads as
invalid, and no listed entry does. -/
abbrev Memory.wf (m : List (Nat × Node)) : Prop :=
  m.Pairwise (fun a b => a.1 < b.1) ∧ ∀ e ∈ m, e.1 < Config.default.nodeCap.val

/-- `NM[i]` (R53). -/
def State.nmGet (s : State) (i : NodeIdx) : Option Node := nmRead s.nm i.toNat

/-- `NM[i] <- v` with `V <- 1` (R53). -/
def State.nmSet (s : State) (i : NodeIdx) (v : Node) : State := { s with nm := nmWrite s.nm i.toNat v }

/-- `NM[i].V` (R32). -/
def State.nmV (s : State) (i : NodeIdx) : Bool := (s.nmGet i).isSome

/-- `NM[i].K` of a valid entry (R32): true for an internal node. -/
def State.nmK (s : State) (i : NodeIdx) : Bool :=
  match s.nmGet i with
  | some (.internal _ _) => true
  | _ => false

/-- `NM[i].SYM`: 0 in an internal node, as R108 and R118 write it. -/
def State.nmSym (s : State) (i : NodeIdx) : Byte :=
  match s.nmGet i with
  | some (.leaf sym) => sym
  | _ => 0

/-- `NM[i].LEFT`: 0 in a leaf, as R107 and R118 write it. -/
def State.nmLeft (s : State) (i : NodeIdx) : NodeIdx :=
  match s.nmGet i with
  | some (.internal l _) => l
  | _ => 0

/-- `NM[i].RIGHT`: 0 in a leaf, as R107 and R118 write it. -/
def State.nmRight (s : State) (i : NodeIdx) : NodeIdx :=
  match s.nmGet i with
  | some (.internal _ r) => r
  | _ => 0

/-- `NM[i].LEFT <- n` (R118). Only an internal node has the field. -/
def State.nmSetLeft (s : State) (i n : NodeIdx) : State :=
  match s.nmGet i with
  | some (.internal _ r) => s.nmSet i (.internal n r)
  | _ => s

/-- `NM[i].RIGHT <- n` (R118). Only an internal node has the field. -/
def State.nmSetRight (s : State) (i n : NodeIdx) : State :=
  match s.nmGet i with
  | some (.internal l _) => s.nmSet i (.internal l n)
  | _ => s

/-! ### Streams (R50 to R52) -/

/-- `ILEN` (R31): the length of `IN`. -/
def State.ilen (s : State) : Resp := BitVec.ofNat 64 s.cfg.input.length

/-- `ILEN - IPOS`: how many input bytes remain. -/
def State.remaining (s : State) : Nat := s.cfg.input.length - s.ipos.toNat

/-- The input bytes from `IPOS` on. -/
def State.rest (s : State) : List Byte := s.cfg.input.drop s.ipos.toNat

/-- `InGet()` (R50): `none` is the token `EOS`, and then nothing changes. -/
def State.inGet (s : State) : Option (Byte × State) :=
  match s.cfg.input[s.ipos.toNat]? with
  | none => none
  | some b => some (b, { s with ipos := s.ipos + 1 })

/-- `COut(b)` (R51). -/
def State.cOut (s : State) (b : Byte) : State := { s with cout := s.cout ++ [b] }

/-- `SOut(b)` (R52). -/
def State.sOut (s : State) (b : Byte) : State := { s with sout := s.sout ++ [b] }

/-- The state with the response value `v` (R9). -/
def State.setResp (s : State) (v : Resp) : State := { s with resp := v }

/-- The state with the host's list of further words (R30). -/
def State.withCmds (s : State) (ws : List Word) : State := { s with cmds := ws }

/-! ### Faults (R155 to R157, R159) -/

/-- The code of a cause in `FCAUSE` (R159). -/
def causeCode : Cause → BitVec 4
  | .illegal => 1
  | .seq => 2
  | .noHdr => 3
  | .hdrTrunc => 4
  | .treeTrunc => 5
  | .tlenMismatch => 6
  | .nodeOvf => 7
  | .stkOvf => 8
  | .tlenOvf => 9
  | .badNode => 10
  | .noTree => 11
  | .badPad => 12
  | .truncCode => 13

/-- How the body of a command goes on: it has come this far, it has raised a cause with its information value, or one of
its loops has run past the bound R178 gives it. -/
inductive Body where
  | ok (s : State)
  | raised (c : Cause) (info : Resp) (s : State)
  | unbounded
  deriving DecidableEq, Repr

/-- Go on with `k`, unless the body has ended (R9: `raise` performs nothing that the pseudocode has after it). -/
def Body.bind (b : Body) (k : State → Body) : Body :=
  match b with
  | .ok s => k s
  | .raised c info s => .raised c info s
  | .unbounded => .unbounded

/-- TAKING A FAULT (R155 (2), (4), (5)): the hidden state is made quiet, the latch is written, the response is 0. -/
def State.latch (s : State) (c : Cause) (info : Resp) : State :=
  { s with
    holdv := false, stk := [], treeOpen := false
    fault := true, fcause := causeCode c, finfo := info, resp := 0 }

/-- What a fault of `TDES` other than `NO_HDR` does first (R118, R155 (3)): node memory is invalidated, `ROOTV <- 0`. -/
def State.dropTree (s : State) : State := { s with nm := [], rootv := false }

/-- The way out of the fault state (R157): the reset of R40 as the `RST` command makes it (R134), which keeps `COUT`, `SOUT`
and the launch's arguments, and responds 0. -/
def State.rst (s : State) : State := State.fresh s.cfg s.cmds s.cout s.sout

/-- A refused word (R156): nothing changes and the response is 0. -/
def State.refuse (s : State) : State := s.setResp 0

/-- How a body ends in an outcome (R155). -/
def settle : Body → Host.Outcome State Fault Refusal
  | .ok s => .next s
  | .raised c info s => .next (s.latch c info)
  | .unbounded => .fault .loopBound

/-- How a body of `TDES` ends (R155 with step (3)). -/
def settleTdes : Body → Host.Outcome State Fault Refusal
  | .ok s => .next s
  | .raised c info s => .next ((if c = .noHdr then s else s.dropTree).latch c info)
  | .unbounded => .fault .loopBound

/-- The test for refusal, which comes before every other test (R156, R162 (1)). -/
def unlessFault (s : State) (run : Host.Outcome State Fault Refusal) : Host.Outcome State Fault Refusal :=
  if s.fault then .next s.refuse else run

/-- An illegal command word (R80, R156, R162): `ILLEGAL` with the word, or refused in the fault state. -/
def illegalWord (w : Word) (s : State) : Host.Outcome State Fault Refusal :=
  unlessFault s (settle (.raised .illegal (zext64 w) s))

end Sys2Proof.Machine
end

