-- ==== Sys2Proof/Machine/Operands.lean ====
section
/-! DEFINITION. How operand values are taken apart (30_encoding.md R64, R65, R78; 20_memory.md R47, R48). -/

namespace Sys2Proof.Machine

/-- The bits of `v` from bit `n-1` down to bit 0, first bit first. -/
def bitsDown {w : Nat} (v : BitVec w) : Nat → List Bool
  | 0 => []
  | n + 1 => v.getLsbD n :: bitsDown v n

/-- The bits `PUTC len, code` writes, in order: `code[len-1]` first, `code[0]` last (R78, R89). -/
def codeBits (len : BitVec 5) (code : BitVec 16) : List Bool := bitsDown code len.toNat

/-- The high `k` bits of a byte, bit 7 first (R47, R96 `decode`). -/
def highBits (b : Byte) (k : Nat) : List Bool := (bitsDown b 8).take k

/-- `H[15:13]` (R64). -/
def hdrPad (h : Header) : PadCount := h.extractLsb' 13 3

/-- `H[12:0]` (R64). -/
def hdrTlen (h : Header) : TreeLen := h.extractLsb' 0 13

/-- `H = (pad << 13) | tlen` (R65). -/
def hdrPack (pad : PadCount) (tlen : TreeLen) : Header := (pad.setWidth 16 <<< 13) ||| tlen.setWidth 16

/-- The two header bytes in stream order (R48, R65): `H[15:8]` first when `HDR_BIG_ENDIAN`. -/
def hdrBytes (c : Config) (h : Header) : Byte × Byte :=
  if c.hdrBigEndian then (h.extractLsb' 8 8, h.extractLsb' 0 8) else (h.extractLsb' 0 8, h.extractLsb' 8 8)

/-- The header value of two bytes in stream order (R49, R65, R129): the inverse of `hdrBytes`. -/
def hdrOfBytes (c : Config) (b0 b1 : Byte) : Header :=
  if c.hdrBigEndian then (b0.setWidth 16 <<< 8) ||| b1.setWidth 16 else (b1.setWidth 16 <<< 8) ||| b0.setWidth 16

end Sys2Proof.Machine
end

