-- ==== Sys2Proof/Machine/Flags.lean ====
section
/-! DEFINITION. The flags, the computed values and the CSR window (10_state.md R35 to R38). The block has no condition
codes (R35). -/

namespace Sys2Proof.Machine

/-- One flag as a number. -/
def flagBit (b : Bool) : Resp := (BitVec.ofBool b).setWidth 64

/-- `STATUS` (R35): bit 0 `FAULT`, bit 1 `FDONE`, bit 2 `HV`, bit 3 `ROOTV`, the rest 0. -/
def State.status (s : State) : Resp :=
  flagBit s.fault ||| (flagBit s.fdone <<< 1) ||| (flagBit s.hv <<< 2) ||| (flagBit s.rootv <<< 3)

/-- `PADOUT = (8 - (TOTAL mod 8)) mod 8` (R36). -/
def State.padout (s : State) : PadCount := BitVec.ofNat 3 ((8 - s.total.toNat % 8) % 8)

/-- `HDR = (PADOUT << 13) | TLEN` (R37). -/
def State.hdr (s : State) : Header := hdrPack s.padout s.tlen

/-- The value of an assigned CSR, `none` for 0x10 to 0xFF (R38). -/
def State.readCsr (s : State) (csr : BitVec 8) : Option Resp :=
  match csr.toNat with
  | 0x00 => some s.status
  | 0x01 => some (zext64 s.fcause)
  | 0x02 => some s.finfo
  | 0x03 => some (zext64 s.acc)
  | 0x04 => some (zext64 s.nbuf)
  | 0x05 => some s.total
  | 0x06 => some (zext64 s.padout)
  | 0x07 => some (zext64 s.tlen)
  | 0x08 => some (zext64 s.hdr)
  | 0x09 => some (zext64 s.pad)
  | 0x0A => some (zext64 s.htlen)
  | 0x0B => some (zext64 s.tcnt)
  | 0x0C => some (zext64 s.root)
  | 0x0D => some (zext64 s.nalloc)
  | 0x0E => some s.ipos
  | 0x0F => some s.ilen
  | _ => none

end Sys2Proof.Machine
end

