-- ==== Sys2Proof/Machine/Header.lean ====
section
/-! DEFINITION. The header commands `HPUT`, `HGET`, `HSET` (43_header.md). -/

namespace Sys2Proof.Machine

/-- `PAD`, `HTLEN` and `HV` from a header value (R129, R130). -/
def State.setHeader (s : State) (h : Header) : State :=
  { s with pad := hdrPad h, htlen := hdrTlen h, hv := true }

/-- `HPUT` (R127): the two bytes of `HDR`. -/
def execHput (s : State) : Host.Outcome State Fault Refusal :=
  unlessFault s <| settle <|
    let b := hdrBytes s.cfg s.hdr
    .ok (((s.cOut b.1).cOut b.2).setResp 0)

/-- The body of `HGET` (R129). -/
def hgetBody (s : State) : Body :=
  if s.remaining < 2 then .raised .hdrTrunc s.ipos s
  else
    match s.inGet with
    | none => .raised .hdrTrunc s.ipos s
    | some (b0, s1) =>
      match s1.inGet with
      | none => .raised .hdrTrunc s.ipos s
      | some (b1, s2) =>
        let h := hdrOfBytes s.cfg b0 b1
        .ok ((s2.setHeader h).setResp (zext64 h))

/-- `HGET` (R129). -/
def execHget (s : State) : Host.Outcome State Fault Refusal :=
  unlessFault s <| settle (hgetBody s)

/-- `HSET imm16` (R130). -/
def execHset (imm16 : BitVec 16) (s : State) : Host.Outcome State Fault Refusal :=
  unlessFault s <| settle <| .ok ((s.setHeader imm16).setResp 0)

end Sys2Proof.Machine
end

