-- ==== Sys2Proof/Machine/Nodes.lean ====
section
/-! DEFINITION. The node memory commands `NLEAF`, `NINT`, `SROOT`, `NRD` (42_tree_codec.md R107 to R110). -/

namespace Sys2Proof.Machine

/-- The response word of `NRD` (R110): bit 19 `V`, bit 18 `K`, then `LEFT` and `RIGHT`, or `SYM`. -/
def nrdWord : Option Node → Resp
  | none => 0
  | some (.leaf sym) => (1#64 <<< 19) ||| zext64 sym
  | some (.internal l r) => (1#64 <<< 19) ||| (1#64 <<< 18) ||| (zext64 l <<< 9) ||| zext64 r

/-- `NLEAF idx, sym` (R107). -/
def execNleaf (idx : NodeIdx) (sym : Byte) (s : State) : Host.Outcome State Fault Refusal :=
  unlessFault s <| settle <| .ok ((s.nmSet idx (.leaf sym)).setResp 0)

/-- `NINT idx, left, right` (R108). -/
def execNint (idx left right : NodeIdx) (s : State) : Host.Outcome State Fault Refusal :=
  unlessFault s <| settle <| .ok ((s.nmSet idx (.internal left right)).setResp 0)

/-- `SROOT idx` (R109). -/
def execSroot (idx : NodeIdx) (s : State) : Host.Outcome State Fault Refusal :=
  unlessFault s <| settle <| .ok { s with root := idx, rootv := true, resp := 0 }

/-- `NRD idx` (R110), performed in the fault state too (R156). -/
def execNrd (idx : NodeIdx) (s : State) : Host.Outcome State Fault Refusal :=
  .next (s.setResp (nrdWord (s.nmGet idx)))

end Sys2Proof.Machine
end

