-- ==== Sys2Proof/Machine/Packer.lean ====
section
/-! DEFINITION. The bit packer commands `PUTB`, `PUTC`, `FIN` (40_bit_packer.md). -/

namespace Sys2Proof.Machine

/-- The accumulator with one more bit: `(ACC << 1) | bit`, cut to 8 bits (R87, R88). -/
def shiftIn (acc : BitVec 8) (b : Bool) : BitVec 8 := (acc <<< 1) ||| (BitVec.ofBool b).setWidth 8

/-- The body of `PUTB` (R88, from "ACC <-" to the end of the if). -/
def pushBit (b : Bool) (s : State) : State :=
  let acc := shiftIn s.acc b
  if s.nbuf = 7 then State.cOut { s with acc := 0, nbuf := 0, total := s.total + 1 } acc
  else { s with acc := acc, nbuf := s.nbuf + 1, total := s.total + 1 }

/-- The same for a run of bits, first bit first (R89, R90). -/
def pushBits : List Bool → State → State
  | [], s => s
  | b :: bs, s => pushBits bs (pushBit b s)

/-- The body of `FIN` (R91). -/
def finish (s : State) : State :=
  if s.nbuf = 0 then { s with fdone := true }
  else State.cOut { s with acc := 0, nbuf := 0, fdone := true } (s.acc <<< (8 - s.nbuf.toNat))

/-- `PUTB bit` (R88). -/
def execPutb (bit : Bool) (s : State) : Host.Outcome State Fault Refusal :=
  unlessFault s <| settle <|
    if s.fdone then .raised .seq (zext64 (encPutb bit)) s
    else .ok ((pushBit bit s).setResp 0)

/-- `PUTC len, code` (R89): `len` above 16 is `ILLEGAL` before `SEQ` is tested (R162). -/
def execPutc (len : BitVec 5) (code : BitVec 16) (s : State) : Host.Outcome State Fault Refusal :=
  unlessFault s <| settle <|
    if len.toNat > s.cfg.chunkMax.val then .raised .illegal (zext64 (encPutc len code)) s
    else if s.fdone then .raised .seq (zext64 (encPutc len code)) s
    else .ok ((pushBits (codeBits len code) s).setResp 0)

/-- `FIN` (R91). -/
def execFin (s : State) : Host.Outcome State Fault Refusal :=
  unlessFault s <| settle <| .ok ((finish s).setResp 0)

end Sys2Proof.Machine
end

