-- ==== Sys2Proof/Machine/System.lean ====
section
/-! DEFINITION. The system commands `NOP`, `RST`, `RDCSR` (44_system.md). All three are performed in the fault state too
(R156). -/

namespace Sys2Proof.Machine

/-- `NOP` (R133). -/
def execNop (s : State) : Host.Outcome State Fault Refusal := .next (s.setResp 0)

/-- `RST` (R134). -/
def execRst (s : State) : Host.Outcome State Fault Refusal := .next s.rst

/-- `RDCSR csr` (R135). An unassigned number makes the word illegal (R80 (d)). -/
def execRdcsr (csr : BitVec 8) (s : State) : Host.Outcome State Fault Refusal :=
  match s.readCsr csr with
  | some v => .next (s.setResp v)
  | none => illegalWord (encRdcsr csr) s

end Sys2Proof.Machine
end

