-- ==== Sys2Proof/Machine/TreeDes.lean ====
section
/-! DEFINITION. The tree deserializer command `TDES` (42_tree_codec.md R118) and the tokens it takes: a token is one pass
of its loop. -/

namespace Sys2Proof.Machine

/-- `get()` (R118), then `k` with the byte: the end of the input is `TREE_TRUNC`. -/
def getByte (s : State) (k : Byte → State → Body) : Body :=
  match s.inGet with
  | none => .raised .treeTrunc s.ipos s
  | some (x, s) => k x { s with tcnt := s.tcnt + 1 }

/-- Hang node `n` under the innermost open node (R118): its left child first, then its right child, which closes it. -/
def hang (n : NodeIdx) (s : State) : State :=
  match s.stk with
  | [] => s
  | e :: below =>
    if e.waitLeft then State.nmSetLeft { s with stk := { node := e.node, waitLeft := false } :: below } e.node n
    else State.nmSetRight { s with stk := below } e.node n

/-- An internal node waits for its children (R118): `STK_OVF` when `SP = 256`. -/
def openNode (nd : Node) (n : NodeIdx) (s : State) : Body :=
  match nd with
  | .leaf _ => .ok s
  | .internal _ _ =>
    if s.stk.length = s.cfg.stkCap.val then .raised .stkOvf (zext64 n) s
    else .ok { s with stk := { node := n, waitLeft := true } :: s.stk }

/-- The end of a pass (R118): with nodes still open the loop goes on; otherwise the tree is complete, its length is
checked when `CHECK_TLEN = 1`, and the root is named. -/
def closePass (s : State) : Body :=
  if s.stk ≠ [] then .ok { s with treeOpen := true }
  else if s.cfg.checkTlen ∧ s.tcnt ≠ s.htlen then .raised .tlenMismatch (zext64 s.tcnt) s
  else .ok { s with root := 0, rootv := true, treeOpen := false, resp := 0 }

/-- The entry the next token's node is given (R118 `n <- NALLOC`). -/
def State.nextNode (s : State) : NodeIdx := s.nalloc.setWidth 9

/-- A pass after its token has been read (R118 from "if NALLOC = 512"): allocate the next entry, hang it, open it. -/
def place (nd : Node) (s : State) : Body :=
  if s.nalloc.toNat = s.cfg.nodeCap.val then .raised .nodeOvf s.ipos s
  else
    (openNode nd s.nextNode (hang s.nextNode (State.nmSet { s with nalloc := s.nalloc + 1 } s.nextNode nd))).bind closePass

/-- One pass of the loop (R118). -/
def tdesPass (s : State) : Body :=
  getByte s fun b s =>
    if b = s.cfg.esc then getByte s fun x s => place (.leaf x) s
    else if b = s.cfg.mark then place (.internal 0 0) s
    else place (.leaf b) s

/-- The loop (R118), for at most `fuel` passes (R178). -/
def tdesLoop : Nat → State → Body
  | 0, s => if s.treeOpen then .unbounded else .ok s
  | fuel + 1, s => if s.treeOpen then (tdesPass s).bind (tdesLoop fuel) else .ok s

/-- `TDES` up to its loop (R118, R120, R121). -/
def tdesStart (s : State) : Body :=
  if s.hv then
    let s := { s with
      nm := [], nalloc := 0, rootv := false, root := 0, tcnt := 0, stk := [], treeOpen := false }
    if s.htlen = 0 then .ok (s.setResp 0)
    else if s.cfg.checkTlen ∧ s.htlen.toNat > s.remaining then .raised .treeTrunc s.ipos s
    else .ok { s with treeOpen := true }
  else .raised .noHdr (zext64 encTdes) s

/-- `TDES` (R118). -/
def execTdes (s : State) : Host.Outcome State Fault Refusal :=
  unlessFault s <| settleTdes ((tdesStart s).bind (tdesLoop Config.tdesPasses))

/-- The token `MARK` (R67, R118): one byte, an internal node. -/
def execMark (s : State) : Host.Outcome State Fault Refusal :=
  unlessFault s <| settleTdes (getByte s fun _ s => place (.internal 0 0) s)

/-- The token `ESC s` (R67, R118): two bytes, a leaf with symbol `s`. -/
def execEsc (sym : Byte) (s : State) : Host.Outcome State Fault Refusal :=
  unlessFault s <| settleTdes (getByte s fun _ s => getByte s fun _ s => place (.leaf sym) s)

/-- The token `LIT s` (R67, R118): one byte, a leaf with symbol `s`. -/
def execLit (sym : Byte) (s : State) : Host.Outcome State Fault Refusal :=
  unlessFault s <| settleTdes (getByte s fun _ s => place (.leaf sym) s)

/-- The tree section ends where a token should begin or inside one (R122): the pass itself raises `TREE_TRUNC`. -/
def truncatedToken (s : State) : Host.Outcome State Fault Refusal :=
  unlessFault s <| settleTdes (tdesPass s)

end Sys2Proof.Machine
end

