-- ==== Sys2Proof/Machine/TreeSer.lean ====
section
/-! DEFINITION. The tree serializer command `TSER` (42_tree_codec.md R112), with the explicit stack of R106. -/

namespace Sys2Proof.Machine

/-- `emit(b, n)` (R112): count the byte in `TLEN`; an 8192nd byte is `TLEN_OVF` and is not appended. -/
def emit (b : Byte) (n : NodeIdx) (s : State) : Body :=
  if s.tlen.toNat = s.cfg.tlenMax.val then .raised .tlenOvf (zext64 n) s
  else .ok (State.cOut { s with tlen := s.tlen + 1 } b)

/-- `push(i)` (R112): `STK_OVF` when `SP = 256`. -/
def push (i : NodeIdx) (s : State) : Body :=
  if s.stk.length = s.cfg.stkCap.val then .raised .stkOvf (zext64 i) s
  else .ok { s with stk := { node := i, waitLeft := false } :: s.stk }

/-- One pass of the loop for the popped node `n` (R112). -/
def tserPass (n : NodeIdx) (s : State) : Body :=
  match s.nmGet n with
  | none => .raised .badNode (zext64 n) s
  | some (.leaf sym) =>
    (if sym = s.cfg.mark ∨ sym = s.cfg.esc then emit s.cfg.esc n s else .ok s).bind (emit sym n)
  | some (.internal l r) => ((emit s.cfg.mark n s).bind (push r)).bind (push l)

/-- `while SP > 0` (R112), for at most `fuel` passes (R116). -/
def tserLoop : Nat → State → Body
  | 0, s => if s.stk = [] then .ok s else .unbounded
  | fuel + 1, s =>
    match s.stk with
    | [] => .ok s
    | e :: below => (tserPass e.node { s with stk := below }).bind (tserLoop fuel)

/-- The body of `TSER` (R112). -/
def tserBody (s : State) : Body :=
  let s := { s with tlen := 0, stk := [] }
  (if s.rootv then (push s.root s).bind (tserLoop Config.tserPasses) else .ok s).bind fun s => .ok (s.setResp 0)

/-- `TSER` (R112). -/
def execTser (s : State) : Host.Outcome State Fault Refusal :=
  unlessFault s <| settle (tserBody s)

end Sys2Proof.Machine
end

