-- ==== Sys2Proof/Machine/Unpacker.lean ====
section
/-! DEFINITION. The bit unpacker command `UNPK` (41_bit_unpacker.md R96, R97). -/

namespace Sys2Proof.Machine

/-- `step(b)`: one significant bit (R97). -/
def walkBit (b : Bool) (s : State) : Body :=
  if s.rootv then
    match s.nmGet s.root with
    | none => .raised .badNode (zext64 s.root) s
    | some (.leaf sym) => .ok (s.sOut sym)
    | some (.internal _ _) =>
      let c := if b then s.nmRight s.walk else s.nmLeft s.walk
      match s.nmGet c with
      | none => .raised .badNode (zext64 c) s
      | some (.leaf sym) => .ok (State.sOut { s with walk := s.root } sym)
      | some (.internal _ _) => .ok { s with walk := c }
  else .raised .noTree s.ipos s

/-- A run of significant bits, first bit first (R96 `decode`). -/
def walkBits : List Bool → State → Body
  | [], s => .ok s
  | b :: bs, s => (walkBit b s).bind (walkBits bs)

/-- The end of the input (R96): the held byte is the final byte and its low `PAD` bits are padding; without one, padding
claimed by the header is `BAD_PAD`. -/
def unpkEnd (s : State) : Body :=
  if s.holdv then (walkBits (highBits s.hold (8 - s.pad.toNat)) s).bind fun s => .ok { s with holdv := false }
  else if s.pad ≠ 0 then .raised .badPad (zext64 s.pad) s
  else .ok s

/-- The loop of R96, for at most `fuel` calls of `InGet()`: one byte is held back until the next has been asked for. -/
def unpkLoop : Nat → State → Body
  | 0, _ => .unbounded
  | fuel + 1, s =>
    match s.inGet with
    | none => unpkEnd s
    | some (nb, s) =>
      (if s.holdv then walkBits (highBits s.hold 8) s else .ok s).bind fun s =>
        unpkLoop fuel { s with hold := nb, holdv := true }

/-- The body of `UNPK` (R96). -/
def unpkBody (s : State) : Body :=
  if s.hv then
    (unpkLoop (s.remaining + 1) { s with walk := s.root, holdv := false }).bind fun s =>
      if s.rootv ∧ s.walk ≠ s.root then .raised .truncCode (zext64 s.walk) s
      else .ok (s.setResp 0)
  else .raised .noHdr (zext64 encUnpk) s

/-- `UNPK` (R96). -/
def execUnpk (s : State) : Host.Outcome State Fault Refusal :=
  unlessFault s <| settle (unpkBody s)

end Sys2Proof.Machine
end

