-- ==== Sys2Proof/Machine/Dispatch.lean ====
section
/-! DEFINITION. One arm per instruction, each one direct call of its meaning. -/

namespace Sys2Proof.Machine

def exec (i : Instr) (s : State) : Host.Outcome State Fault Refusal :=
  match i with
  | .nop => Sys2Proof.Machine.execNop s
  | .rst => Sys2Proof.Machine.execRst s
  | .rdcsr csr => Sys2Proof.Machine.execRdcsr csr s
  | .putb bit => Sys2Proof.Machine.execPutb bit s
  | .putc len code => Sys2Proof.Machine.execPutc len code s
  | .fin => Sys2Proof.Machine.execFin s
  | .nleaf idx sym => Sys2Proof.Machine.execNleaf idx sym s
  | .nint idx left right => Sys2Proof.Machine.execNint idx left right s
  | .sroot idx => Sys2Proof.Machine.execSroot idx s
  | .nrd idx => Sys2Proof.Machine.execNrd idx s
  | .tser => Sys2Proof.Machine.execTser s
  | .tdes => Sys2Proof.Machine.execTdes s
  | .hput => Sys2Proof.Machine.execHput s
  | .hget => Sys2Proof.Machine.execHget s
  | .hset imm16 => Sys2Proof.Machine.execHset imm16 s
  | .unpk => Sys2Proof.Machine.execUnpk s
  | .mark => Sys2Proof.Machine.execMark s
  | .esc sym => Sys2Proof.Machine.execEsc sym s
  | .lit sym => Sys2Proof.Machine.execLit sym s

end Sys2Proof.Machine
end

