-- ==== Sys2Proof/Machine/Fetch.lean ====
section
/-! DEFINITION. What the block takes next. It fetches nothing of its own (10_state.md R30): the host presents command
words, and only `TDES`, inside its loop, takes tokens from `IN` (log entries 1 and 5). -/

namespace Sys2Proof.Machine

/-- What a step takes. -/
inductive Fetched where
  /-- No word is presented: the block waits (R169). -/
  | idle
  /-- The host's next word, and the words after it. -/
  | command (w : Word) (later : List Word)
  /-- The input bytes from `IPOS` on, where `TDES`'s loop reads its next token. -/
  | token (bs : List Byte)
  deriving DecidableEq, Repr

/-- A command is looked at only when none is still running (R10). -/
def fetch (s : State) : Fetched :=
  if s.treeOpen then .token s.rest
  else
    match s.cmds with
    | [] => .idle
    | w :: later => .command w later

/-- Where the next step takes its instruction from, with the given bits placed there: a command word is the next one the
host presents; the bytes of a token stand in `IN` at `IPOS`, with `TDES` at the top of its loop (log entry 5). -/
def placeNext (s : State) (e : Encoding) : State :=
  match e with
  | .word w => { s with cmds := w :: s.cmds, treeOpen := false }
  | .bytes bs =>
    { s with
      cfg := { s.cfg with input := s.cfg.input.take s.ipos.toNat ++ bs ++ s.cfg.input.drop s.ipos.toNat }
      treeOpen := true }

end Sys2Proof.Machine
end

