-- ==== Sys2Proof/Machine/Step.lean ====
section
/-! DEFINITION. One step: the block performs the next command the host presents, to its end or its first fault
(00_scope.md R10). With none presented it waits (70_reset_and_hazards.md R169). -/

namespace Sys2Proof.Machine

/-- One step of the machine. -/
def step (s : State) : Host.Outcome State Fault Refusal :=
  match fetch s with
  | .idle => .next s
  | .command w later =>
    match decodeWord w with
    | .ok i => exec i (s.withCmds later)
    | .error _ => illegalWord w (s.withCmds later)
  | .token bs =>
    match decodeToken s.cfg bs with
    | .ok (i, _) => exec i s
    | .error _ => truncatedToken s

/-- `s` with a row's bits placed where the next step takes its instruction (log entries 1, 5, 16). -/
def State.withFetchWord (s : State) (nbits w : Nat) : State := placeNext s (layOut nbits w)

end Sys2Proof.Machine
end

