-- ==== Sys2Proof/Safety.lean ====
section
/-! DEFINITION. The terms claims are stated in: what holds between commands, what a tree, its serialization and its codes
are, what the packer computes, and the opcode map of R79. Nothing here is used by the machine. -/

namespace Sys2Proof.Machine

/-! ### What holds of a state -/

/-- `0 <= IPOS <= ILEN` and `ILEN < 2^64` (R7, R31). -/
abbrev InputOk (s : State) : Prop := s.cfg.input.length < 2 ^ 64 ∧ s.ipos.toNat ≤ s.cfg.input.length

/-- The packer invariant (R18). -/
abbrev PackerInv (s : State) : Prop :=
  s.acc.toNat < 2 ^ s.nbuf.toNat ∧
  (s.fdone = false → s.nbuf.toNat = s.total.toNat % 8) ∧
  (s.fdone = true → s.nbuf = 0 ∧ s.acc = 0)

/-- How many bytes the packer has appended to `COUT` since reset, by its count of bits (R18): `floor(TOTAL / 8)` while
`FDONE = 0`, `ceil(TOTAL / 8)` when `FDONE = 1`. -/
def packedBytes (s : State) : Nat := if s.fdone then (s.total.toNat + 7) / 8 else s.total.toNat / 8

/-- No command is still running: `HOLDV = 0`, `SP = 0` (R27, R29) and `TDES` is not in its loop. -/
abbrev Quiet (s : State) : Prop := s.holdv = false ∧ s.stk = [] ∧ s.treeOpen = false

/-- The fault registers (R34, R159): 0 without a fault, a code of 1 to 13 with one. -/
abbrev LatchInv (s : State) : Prop :=
  (s.fault = false → s.fcause = 0 ∧ s.finfo = 0) ∧
  (s.fault = true → 1 ≤ s.fcause.toNat ∧ s.fcause.toNat ≤ 13)

/-- The deserializer's counters (R23, R24). Inside its loop each entry has taken at most two bytes. -/
abbrev CountsInv (s : State) : Prop :=
  s.nalloc.toNat ≤ 512 ∧ s.tcnt.toNat ≤ 1026 ∧ (s.treeOpen = true → s.tcnt.toNat ≤ 2 * s.nalloc.toNat)

/-- What is read before something wrote it is 0: the header fields without a header, `ROOT` without a root (R20 to R22,
R25, R26, R118). -/
abbrev UnwrittenInv (s : State) : Prop :=
  (s.hv = false → s.pad = 0 ∧ s.htlen = 0) ∧ ((s.rootv = false ∨ s.treeOpen = true) → s.root = 0)

/-! ### Trees, tokens and codes -/

/-- A tree (R11): each internal node owns its two children. -/
inductive Tree where
  | leaf (sym : Byte)
  | node (l r : Tree)
  deriving DecidableEq, Repr

/-- The number of nodes. -/
def Tree.size : Tree → Nat
  | .leaf _ => 1
  | .node l r => 1 + l.size + r.size

/-- The source's recursive serialization (R113). -/
def Tree.ser (c : Config) : Tree → List Byte
  | .leaf sym => if sym = c.mark ∨ sym = c.esc then [c.esc, sym] else [sym]
  | .node l r => c.mark :: (l.ser c ++ r.ser c)

/-- The grammar of R68 with the tokens of R69: the bytes a deserializer reads as this tree, needless escapes among them. -/
inductive Parses (c : Config) : Tree → List Byte → Prop where
  | lit (sym : Byte) : sym ≠ c.mark → sym ≠ c.esc → Parses c (.leaf sym) [sym]
  | esc (sym : Byte) : Parses c (.leaf sym) [c.esc, sym]
  | node {l r : Tree} {bl br : List Byte} : Parses c l bl → Parses c r br → Parses c (.node l r) (c.mark :: (bl ++ br))

/-- The code of a symbol (R72): the edges from the root to its leaf, left 0, right 1. -/
inductive Code : Tree → List Bool → Byte → Prop where
  | here (sym : Byte) : Code (.leaf sym) [] sym
  | left {l r : Tree} {p : List Bool} {sym : Byte} : Code l p sym → Code (.node l r) (false :: p) sym
  | right {l r : Tree} {p : List Bool} {sym : Byte} : Code r p sym → Code (.node l r) (true :: p) sym

/-- A tree with the node memory index of every node. -/
inductive NTree where
  | leaf (i : NodeIdx) (sym : Byte)
  | node (i : NodeIdx) (l r : NTree)
  deriving DecidableEq, Repr

/-- The index of the tree's own root. -/
def NTree.idx : NTree → NodeIdx
  | .leaf i _ => i
  | .node i _ _ => i

/-- The indices of all its nodes, in pre-order. -/
def NTree.idxs : NTree → List NodeIdx
  | .leaf i _ => [i]
  | .node i l r => i :: (l.idxs ++ r.idxs)

/-- The tree without the indices. -/
def NTree.shape : NTree → Tree
  | .leaf _ sym => .leaf sym
  | .node _ l r => .node l.shape r.shape

/-- The depth of its deepest node, the root at 0. -/
def NTree.depth : NTree → Nat
  | .leaf _ _ => 0
  | .node _ l r => 1 + max l.depth r.depth

/-- Node memory holds every node of the tree at its index. -/
def NTree.stored (m : List (Nat × Node)) : NTree → Prop
  | .leaf i sym => nmRead m i.toNat = some (.leaf sym)
  | .node i l r => nmRead m i.toNat = some (.internal l.idx r.idx) ∧ l.stored m ∧ r.stored m

/-- The internal node a run of edges leads to from the root. -/
inductive NTree.Leads : NTree → List Bool → NodeIdx → Prop where
  | here (i : NodeIdx) (l r : NTree) : Leads (.node i l r) [] i
  | left {i j : NodeIdx} {l r : NTree} {p : List Bool} : Leads l p j → Leads (.node i l r) (false :: p) j
  | right {i j : NodeIdx} {l r : NTree} {p : List Bool} : Leads r p j → Leads (.node i l r) (true :: p) j

/-- Node memory holds this well-formed tree at `ROOT` (R111): every reachable node valid, reached by one path, at depth at
most 255. -/
abbrev WellFormedTree (s : State) (t : NTree) : Prop :=
  s.rootv = true ∧ t.idx = s.root ∧ t.stored s.nm ∧ t.idxs.Nodup ∧ t.depth ≤ 255

/-- The tree with its nodes numbered in pre-order from `n` (R119). -/
def Tree.numbered : Tree → Nat → NTree
  | .leaf sym, n => .leaf (BitVec.ofNat 9 n) sym
  | .node l r, n => .node (BitVec.ofNat 9 n) (l.numbered (n + 1)) (r.numbered (n + 1 + l.size))

/-! ### Graphs that need not be trees -/

/-- The bytes of one entry's token (R67, R112). -/
def nodeBytes (c : Config) : Node → List Byte
  | .leaf sym => (Tree.leaf sym).ser c
  | .internal _ _ => [c.mark]

/-- Serializing in pre-order, whatever the graph (R112): with the entries of the first list still to come, next first, the
bytes are appended, and the entries of the last list are then still to come. The stack has room for both children. -/
inductive SerWalk (c : Config) (m : List (Nat × Node)) : List NodeIdx → List Byte → List NodeIdx → Prop where
  | stop (todo : List NodeIdx) : SerWalk c m todo [] todo
  | leaf {i : NodeIdx} {sym : Byte} {todo rest : List NodeIdx} {bs : List Byte} :
    nmRead m i.toNat = some (.leaf sym) → SerWalk c m todo bs rest →
    SerWalk c m (i :: todo) (nodeBytes c (.leaf sym) ++ bs) rest
  | node {i l r : NodeIdx} {todo rest : List NodeIdx} {bs : List Byte} :
    nmRead m i.toNat = some (.internal l r) → todo.length < 255 → SerWalk c m (l :: r :: todo) bs rest →
    SerWalk c m (i :: todo) (c.mark :: bs) rest

/-- The unpacker's walk, whatever the graph (R97, R103): from the first node the bits emit the symbols and lead to the last
node. A bit leads to a child; a leaf emits its symbol and leads back to the root. -/
inductive GraphWalk (m : List (Nat × Node)) (root : NodeIdx) : NodeIdx → List Bool → List Byte → NodeIdx → Prop where
  | stop (i : NodeIdx) : GraphWalk m root i [] [] i
  | inner {i j l r l' r' : NodeIdx} {b : Bool} {bits : List Bool} {syms : List Byte} :
    nmRead m i.toNat = some (.internal l r) → nmRead m (if b then r else l).toNat = some (.internal l' r') →
    GraphWalk m root (if b then r else l) bits syms j → GraphWalk m root i (b :: bits) syms j
  | leaf {i j l r : NodeIdx} {b : Bool} {sym : Byte} {bits : List Bool} {syms : List Byte} :
    nmRead m i.toNat = some (.internal l r) → nmRead m (if b then r else l).toNat = some (.leaf sym) →
    GraphWalk m root root bits syms j → GraphWalk m root i (b :: bits) (sym :: syms) j

/-! ### Bit streams -/

/-- The bits of bytes, most significant bit first (R47). -/
def msbBits (bs : List Byte) : List Bool := bs.flatMap fun b => (List.range 8).map fun k => b.getLsbD (7 - k)

/-- The significant bits of a payload (R12): all but the last `pad`. -/
def significant (bs : List Byte) (pad : Nat) : List Bool := (msbBits bs).take (8 * bs.length - pad)

/-- Byte `k` of the packed stream (R93): `b_(8k+1) ... b_(8k+8)` with `b_(8k+1)` in bit 7, bits beyond the end 0. -/
def packedByte (bits : List Bool) (k : Nat) : Byte :=
  BitVec.ofNat 8 (((List.range 8).map fun j => if bits.getD (8 * k + j) false then 2 ^ (7 - j) else 0).sum)

/-- What the packer appends for a run of bits and `FIN` (R93): `ceil(N/8)` bytes. -/
def packBits (bits : List Bool) : List Byte := (List.range ((bits.length + 7) / 8)).map (packedByte bits)

/-! ### Runs of instructions and the opcode map -/

/-- Perform instructions one after the other. -/
def execAll : List Instr → State → Host.Outcome State Fault Refusal
  | [], s => .next s
  | i :: is, s =>
    match exec i s with
    | .next t => execAll is t
    | .fault r => .fault r
    | .refused r => .refused r

/-- The words a fault state still performs (R156): legal `NOP`, `RST`, `RDCSR`, `NRD`. -/
def performedInFault : Instr → Bool
  | .nop => true
  | .rst => true
  | .rdcsr csr => decide (csr.toNat ≤ 0x0F)
  | .nrd _ => true
  | .putb _ => false
  | .putc _ _ => false
  | .fin => false
  | .nleaf _ _ => false
  | .nint _ _ _ => false
  | .sroot _ => false
  | .tser => false
  | .tdes => false
  | .hput => false
  | .hget => false
  | .hset _ => false
  | .unpk => false
  | .mark => false
  | .esc _ => false
  | .lit _ => false

/-- The opcode map of R79: match and mask. -/
def opcodeMap : List (Word × Word) :=
  [(0x00000000, 0xFFFFFFFF), (0x08000000, 0xFFFFFFFF), (0x10000000, 0xFFFFFF00), (0x20000000, 0xFFFFFFFE),
   (0x28000000, 0xFFE00000), (0x30000000, 0xFFFFFFFF), (0x40000000, 0xF803FF00), (0x48000000, 0xF8000000),
   (0x50000000, 0xF803FFFF), (0x58000000, 0xF803FFFF), (0x60000000, 0xFFFFFFFF), (0x68000000, 0xFFFFFFFF),
   (0x80000000, 0xFFFFFFFF), (0x88000000, 0xFFFFFFFF), (0x90000000, 0xFFFF0000), (0xA0000000, 0xFFFFFFFF)]

/-- A legal word (R79): it matches a row of the map, and the operand of `PUTC` or `RDCSR` is in range. -/
abbrev LegalWord (w : Word) : Prop :=
  (∃ r ∈ opcodeMap, w &&& r.2 = r.1) ∧
  (w.extractLsb' 27 5 = 0x05#5 → (w.extractLsb' 16 5).toNat ≤ 16) ∧
  (w.extractLsb' 27 5 = 0x02#5 → (w.extractLsb' 0 8).toNat ≤ 0x0F)

end Sys2Proof.Machine
end

