-- ==== Sys2Proof/Certificates/Slice0/Obligations.lean ====
section
/-! DEFINITION. The statements for the provers. Each formalises rules of spec/, named in its docstring. -/

open Sys2Proof Sys2Proof.Machine

/-! ### Encoding -/

/-- R77, R78, R79, R67, R69: decoding the bits of a well-formed instruction gives it back, whatever the parameters. -/
def Obligations.DecodeOfEncodeIsTheInstruction : Prop :=
  ∀ (c : Config) (i : Instr), c.ok → i.wellFormed c = true → decode c (encode c i) = .ok i

/-- R79, R80: a command word that decodes is the encoding of what it decodes to, and that is well-formed, so no two words
are one command and no bit of a word is dropped. -/
def Obligations.EncodeOfDecodeIsTheWord : Prop :=
  ∀ (c : Config) (w : Word) (i : Instr), decodeWord w = .ok i → encode c i = .word w ∧ i.wellFormed c = true

/-- R79, R80: a word decodes exactly when it matches a row of the opcode map with its operand in range. -/
def Obligations.WordDecodesIffLegal : Prop :=
  ∀ w : Word, (∃ i, decodeWord w = .ok i) ↔ LegalWord w

/-- R69, R82: a token has two bytes if its first byte is the escape byte and one otherwise, and the first byte decides its
form. -/
def Obligations.TokenFormIsDecidedByItsFirstByte : Prop :=
  ∀ (c : Config) (b x : Byte) (more : List Byte), c.ok →
    decodeToken c (c.esc :: x :: more) = .ok (.esc x, more) ∧
    decodeToken c (c.mark :: more) = .ok (.mark, more) ∧
    (b ≠ c.esc → b ≠ c.mark → decodeToken c (b :: more) = .ok (.lit b, more)) ∧
    decodeToken c [] = .error .noByte ∧ decodeToken c [c.esc] = .error .escCut

/-- R79: words written out from the opcode map decode to the commands they stand for (a sanity statement). -/
def Obligations.SampleWordsDecode : Prop :=
  decodeWord 0x1000000F#32 = .ok (.rdcsr 0x0F) ∧ decodeWord 0x2810ABCD#32 = .ok (.putc 16 0xABCD) ∧
  decodeWord 0x40100041#32 = .ok (.nleaf 4 0x41) ∧ decodeWord 0x48000204#32 = .ok (.nint 0 1 4) ∧
  decodeWord 0x90002005#32 = .ok (.hset 0x2005) ∧ decodeWord 0xA0000000#32 = .ok .unpk ∧
  decodeWord 0x18000000#32 = .error (.unassignedOpcode 3)

/-! ### The step -/

/-- R10, R58, R169: a step runs the decoded instruction. The host's next word is taken off its list and performed; inside
`TDES`'s loop the token at `IPOS` is performed (log entries 1 and 5); with no word presented the block waits, and nothing
changes. R169 says so of the time after reset: that it waits so between any two commands is inferred (log entry 2), and that
the last response stands while it waits is the model's choice (log entry 19). -/
def Obligations.StepRunsTheDecodedInstruction : Prop :=
  ∀ s : State,
    (∀ w later i, s.treeOpen = false → s.cmds = w :: later → decodeWord w = .ok i →
      step s = exec i { s with cmds := later }) ∧
    (∀ i more, s.treeOpen = true → decodeToken s.cfg (s.cfg.input.drop s.ipos.toNat) = .ok (i, more) → step s = exec i s) ∧
    (s.treeOpen = false → s.cmds = [] → step s = .next s)

/-- R80, R155: an illegal word raises `ILLEGAL` with the word in `FINFO` and changes nothing else; R156, R162: in the fault
state it is refused. (The word is the first of the host's list: log entry 1.) -/
def Obligations.IllegalWordIsLatchedOrRefused : Prop :=
  ∀ (s : State) (w : Word) (later : List Word), s.treeOpen = false → s.cmds = w :: later → ¬ LegalWord w →
    (s.fault = false →
      step s = .next { s with
        cmds := later, fault := true, fcause := 1, finfo := w.setWidth 64, resp := 0, holdv := false, stk := [] }) ∧
    (s.fault = true → step s = .next { s with cmds := later, resp := 0 })

/-- R178, R179: every command word in every state has one outcome, a next state. No step and no instruction, legal or not,
stops the machine. That it also holds of the tokens and of ill-formed instructions, which no word of the host is, rests on
the model's choice of a meaning for them (log entries 5 and 14). -/
def Obligations.EveryStepAnswersANextState : Prop :=
  ∀ s : State, InputOk s → (∃ t, step s = .next t) ∧ ∀ i : Instr, ∃ t, exec i s = .next t

/-! ### System commands -/

/-- R133: `NOP` changes nothing and responds 0, also when a fault is latched. -/
def Obligations.NopOnlyResponds : Prop :=
  ∀ s : State, exec .nop s = .next { s with resp := 0 }

/-- R134, R40, R157, R167: `RST` puts every register in its reset state in any state, keeps both output streams and the
launch's arguments, and responds 0. -/
def Obligations.RstResetsAllButTheStreams : Prop :=
  ∀ s : State, ∃ t, exec .rst s = .next t ∧
    t.acc = 0 ∧ t.nbuf = 0 ∧ t.total = 0 ∧ t.fdone = false ∧ t.tlen = 0 ∧ t.pad = 0 ∧ t.htlen = 0 ∧ t.hv = false ∧
    t.tcnt = 0 ∧ t.nalloc = 0 ∧ t.root = 0 ∧ t.rootv = false ∧ (∀ i, t.nmGet i = none) ∧ t.holdv = false ∧ t.walk = 0 ∧
    t.stk = [] ∧ t.ipos = 0 ∧ t.fault = false ∧ t.fcause = 0 ∧ t.finfo = 0 ∧ t.resp = 0 ∧ t.treeOpen = false ∧
    t.cout = s.cout ∧ t.sout = s.sout ∧ t.cfg.input = s.cfg.input ∧ t.cfg = s.cfg ∧ t.cmds = s.cmds

/-- R167: after `RST`, and after hardware reset, every CSR reads 0 except `ILEN`, which reads the length of `IN`. -/
def Obligations.AfterResetEveryCsrReadsZeroButIlen : Prop :=
  ∀ (s t : State), (exec .rst s = .next t ∨ ∃ c, t = State.launch c) → ∀ csr : BitVec 8, csr.toNat ≤ 0x0F →
    exec (.rdcsr csr) t =
      .next { t with resp := if csr = 0x0F then BitVec.ofNat 64 t.cfg.input.length else 0 }

/-- R35, R36, R37, R38, R135: what `RDCSR` answers for each of the sixteen registers, zero-extended, in any state (the
fault state too, R156), with nothing else changed. -/
def Obligations.RdcsrReadsTheRegister : Prop :=
  ∀ s : State,
    (∃ v : Resp, exec (.rdcsr 0x00) s = .next { s with resp := v } ∧
      v.getLsbD 0 = s.fault ∧ v.getLsbD 1 = s.fdone ∧ v.getLsbD 2 = s.hv ∧ v.getLsbD 3 = s.rootv ∧
      ∀ k, 4 ≤ k → v.getLsbD k = false) ∧
    exec (.rdcsr 0x01) s = .next { s with resp := s.fcause.setWidth 64 } ∧
    exec (.rdcsr 0x02) s = .next { s with resp := s.finfo } ∧
    exec (.rdcsr 0x03) s = .next { s with resp := s.acc.setWidth 64 } ∧
    exec (.rdcsr 0x04) s = .next { s with resp := s.nbuf.setWidth 64 } ∧
    exec (.rdcsr 0x05) s = .next { s with resp := s.total } ∧
    (∃ v : Resp, exec (.rdcsr 0x06) s = .next { s with resp := v } ∧ v.toNat = (8 - s.total.toNat % 8) % 8) ∧
    exec (.rdcsr 0x07) s = .next { s with resp := s.tlen.setWidth 64 } ∧
    (∃ v : Resp, exec (.rdcsr 0x08) s = .next { s with resp := v } ∧
      v.toNat = (8 - s.total.toNat % 8) % 8 * 2 ^ 13 + s.tlen.toNat) ∧
    exec (.rdcsr 0x09) s = .next { s with resp := s.pad.setWidth 64 } ∧
    exec (.rdcsr 0x0A) s = .next { s with resp := s.htlen.setWidth 64 } ∧
    exec (.rdcsr 0x0B) s = .next { s with resp := s.tcnt.setWidth 64 } ∧
    exec (.rdcsr 0x0C) s = .next { s with resp := s.root.setWidth 64 } ∧
    exec (.rdcsr 0x0D) s = .next { s with resp := s.nalloc.setWidth 64 } ∧
    exec (.rdcsr 0x0E) s = .next { s with resp := s.ipos } ∧
    exec (.rdcsr 0x0F) s = .next { s with resp := BitVec.ofNat 64 s.cfg.input.length }

/-! ### Packer -/

/-- R88: `PUTB` shifts the bit in at bit 0 and counts it; the eighth bit sends the byte to `COUT` and empties the
accumulator. Nothing else changes. -/
def Obligations.PutbShiftsTheBitIn : Prop :=
  ∀ (s : State) (b : Bool), s.fault = false → s.fdone = false →
    ∃ acc : BitVec 8, acc.toNat = (2 * s.acc.toNat + b.toNat) % 256 ∧
      exec (.putb b) s = .next
        (if s.nbuf = 7 then { s with acc := 0, nbuf := 0, total := s.total + 1, cout := s.cout ++ [acc], resp := 0 }
         else { s with acc := acc, nbuf := s.nbuf + 1, total := s.total + 1, resp := 0 })

/-- R90: `PUTC len, code` has exactly the effect of the `len` commands `PUTB code[len-1]`, ..., `PUTB code[0]`. -/
def Obligations.PutcIsARunOfPutb : Prop :=
  ∀ (s : State) (len : BitVec 5) (code : BitVec 16), s.fault = false → s.fdone = false → len.toNat ≤ 16 →
    ∃ t, execAll ((List.range len.toNat).map fun k => .putb (code.getLsbD (len.toNat - 1 - k))) s = .next t ∧
      exec (.putc len code) s = .next { t with resp := 0 }

/-- R89: from `NBUF = n` a `PUTC` of `len` bits appends `floor((n + len) / 8)` bytes, leaves `NBUF = (n + len) mod 8`, adds
`len` to `TOTAL`, and changes nothing else but `ACC`. -/
def Obligations.PutcCountsItsBits : Prop :=
  ∀ (s : State) (len : BitVec 5) (code : BitVec 16), s.fault = false → s.fdone = false → len.toNat ≤ 16 →
    ∃ (acc : BitVec 8) (bs : List Byte), bs.length = (s.nbuf.toNat + len.toNat) / 8 ∧
      exec (.putc len code) s = .next { s with
        acc := acc, nbuf := BitVec.ofNat 3 ((s.nbuf.toNat + len.toNat) % 8), total := s.total + BitVec.ofNat 64 len.toNat,
        cout := s.cout ++ bs, resp := 0 }

/-- R88, R89, R162: after `FIN`, `PUTB` and `PUTC` raise `SEQ` with the word in `FINFO`; `len` above 16 is `ILLEGAL`, tested
first; in both cases nothing else is changed. (The word is recomputed from the operands: log entry 13.) -/
def Obligations.PutAfterFinishRaisesSeq : Prop :=
  ∀ (s : State) (b : Bool) (len : BitVec 5) (code : BitVec 16), s.fault = false → s.fdone = true →
    exec (.putb b) s = .next { s with
      fault := true, fcause := 2, finfo := (encPutb b).setWidth 64, resp := 0, holdv := false, stk := [], treeOpen := false } ∧
    exec (.putc len code) s = .next { s with
      fault := true, fcause := if len.toNat ≤ 16 then 2 else 1, finfo := (encPutc len code).setWidth 64, resp := 0,
      holdv := false, stk := [], treeOpen := false }

/-- R91: `FIN` with buffered bits appends them at the top of one byte with zeros below, clears `ACC` and `NBUF`, and sets
`FDONE`; without buffered bits it only sets `FDONE`. `TOTAL` is not changed. -/
def Obligations.FinFlushesTheBufferedBits : Prop :=
  ∀ s : State, s.fault = false →
    (s.nbuf ≠ 0 → ∃ b : Byte, b.toNat = s.acc.toNat * 2 ^ (8 - s.nbuf.toNat) % 256 ∧
      exec .fin s = .next { s with acc := 0, nbuf := 0, fdone := true, cout := s.cout ++ [b], resp := 0 }) ∧
    (s.nbuf = 0 → exec .fin s = .next { s with fdone := true, resp := 0 })

/-- R92: where the packer invariant holds, the zero bits `FIN` appends are `PADOUT` in number, and
`(TOTAL + PADOUT) mod 8 = 0`. -/
def Obligations.FinAppendsPadoutZeroBits : Prop :=
  ∀ s : State, s.fault = false → s.fdone = false → PackerInv s →
    (s.total.toNat + s.padout.toNat) % 8 = 0 ∧ s.padout.toNat ≤ 7 ∧
    ∃ t, exec .fin s = .next t ∧ t.padout = s.padout ∧
      (s.padout = 0 → t.cout = s.cout) ∧
      (s.padout ≠ 0 → ∃ b : Byte, t.cout = s.cout ++ [b] ∧
        (∀ k, k < s.padout.toNat → b.getLsbD k = false) ∧
        (∀ k, k < s.nbuf.toNat → b.getLsbD (s.padout.toNat + k) = s.acc.getLsbD k))

/-- R93: the packer as a function. From an empty packer, a run of `PUTB` and then `FIN` appends `ceil(N/8)` bytes, byte `k`
being bits `8k+1` to `8k+8` with the first in bit 7 and zeros beyond the end. -/
def Obligations.PackerPacksItsBits : Prop :=
  ∀ (s : State) (bits : List Bool), s.fault = false → s.fdone = false → s.nbuf = 0 → s.acc = 0 →
    execAll (bits.map Instr.putb ++ [.fin]) s = .next { s with
      fdone := true, total := s.total + BitVec.ofNat 64 bits.length, cout := s.cout ++ packBits bits, resp := 0 }

/-! ### Node memory commands -/

/-- R107, R108, R53, R61: `NLEAF` and `NINT` write the whole entry `idx`, which every later read sees; every other entry
and every other register is as before. -/
def Obligations.NodeWritesAreReadBack : Prop :=
  ∀ (s : State) (idx left right : NodeIdx) (sym : Byte), s.fault = false →
    (∃ t, exec (.nleaf idx sym) s = .next t ∧ t.nmGet idx = some (.leaf sym) ∧
      (∀ j, j ≠ idx → t.nmGet j = s.nmGet j) ∧ t = { s with nm := t.nm, resp := 0 }) ∧
    (∃ t, exec (.nint idx left right) s = .next t ∧ t.nmGet idx = some (.internal left right) ∧
      (∀ j, j ≠ idx → t.nmGet j = s.nmGet j) ∧ t = { s with nm := t.nm, resp := 0 })

/-- R109: `SROOT` names the root and sets `ROOTV`, whatever the entry holds. -/
def Obligations.SrootNamesTheRoot : Prop :=
  ∀ (s : State) (idx : NodeIdx), s.fault = false →
    exec (.sroot idx) s = .next { s with root := idx, rootv := true, resp := 0 }

/-- R110, R156: `NRD` answers the entry's word, 0 for an invalid entry, in any state, and changes nothing else. -/
def Obligations.NrdAnswersTheEntry : Prop :=
  ∀ (s : State) (idx : NodeIdx), ∃ v : Resp, exec (.nrd idx) s = .next { s with resp := v } ∧
    (s.nmGet idx = none → v = 0) ∧
    (∀ sym, s.nmGet idx = some (.leaf sym) → v.toNat = 2 ^ 19 + sym.toNat) ∧
    (∀ l r, s.nmGet idx = some (.internal l r) → v.toNat = 2 ^ 19 + 2 ^ 18 + l.toNat * 2 ^ 9 + r.toNat)

/-! ### Tree serializer -/

/-- R113: for a well-formed tree `TSER` appends exactly the recursive serialization and sets `TLEN` to its length, without a
fault, and changes nothing else. -/
def Obligations.TserEmitsTheRecursiveSerialization : Prop :=
  ∀ (s : State) (t : NTree), s.fault = false → WellFormedTree s t →
    exec .tser s = .next { s with
      tlen := BitVec.ofNat 13 (t.shape.ser s.cfg).length, cout := s.cout ++ t.shape.ser s.cfg, stk := [], resp := 0 }

/-- R114: with `ROOTV = 0` `TSER` appends nothing, sets `TLEN` to 0 and ends without a fault. R112, R41: a root that names
an invalid entry is `BAD_NODE` with its index, and nothing is appended either. -/
def Obligations.TserWithNothingAtTheRootEmitsNothing : Prop :=
  ∀ s : State, s.fault = false →
    (s.rootv = false → exec .tser s = .next { s with tlen := 0, stk := [], resp := 0 }) ∧
    (s.rootv = true → s.nmGet s.root = none → exec .tser s = .next { s with
      tlen := 0, stk := [], fault := true, fcause := 10, finfo := s.root.setWidth 64, resp := 0, holdv := false,
      treeOpen := false })

/-- R112, R116, R163: whatever node memory holds, `TSER` ends; the bytes it appended stay in `COUT` and `TLEN` counts them;
only `BAD_NODE` with an invalid entry, `TLEN_OVF` with the entry whose byte would be the 8192nd, or `STK_OVF` with the left
child that finds the stack full can be latched; node memory, `ROOT` and all else are as before. And exactly: once the entries
before it in pre-order have been serialized as `bs`, with `todo` still to come, the next entry decides what happens. -/
def Obligations.TserEndsOnAnyGraph : Prop :=
  ∀ s : State, s.fault = false →
    (∃ (t : State) (bs : List Byte), exec .tser s = .next t ∧ bs.length = t.tlen.toNat ∧
      ((t.fault = false ∧
          t = { s with tlen := t.tlen, cout := s.cout ++ bs, stk := [], resp := 0 }) ∨
       (t.fault = true ∧
          ((t.fcause = 8 ∧ ∃ n l r, s.nmGet n = some (.internal l r) ∧ t.finfo = l.setWidth 64) ∨
           (t.fcause = 9 ∧ t.tlen = 8191 ∧ ∃ n nd, s.nmGet n = some nd ∧ t.finfo = n.setWidth 64) ∨
           (t.fcause = 10 ∧ ∃ n, s.nmGet n = none ∧ t.finfo = n.setWidth 64)) ∧
          t = { s with tlen := t.tlen, cout := s.cout ++ bs, fault := true, fcause := t.fcause, finfo := t.finfo,
                       stk := [], holdv := false, treeOpen := false, resp := 0 }))) ∧
    (∀ (bs : List Byte) (todo : List NodeIdx), s.rootv = true → SerWalk s.cfg s.nm [s.root] bs todo → bs.length ≤ 8191 →
      (todo = [] → exec .tser s = .next { s with
        tlen := BitVec.ofNat 13 bs.length, cout := s.cout ++ bs, stk := [], resp := 0 }) ∧
      ∀ n below, todo = n :: below →
        (s.nmGet n = none → exec .tser s = .next { s with
          tlen := BitVec.ofNat 13 bs.length, cout := s.cout ++ bs, fault := true, fcause := 10, finfo := n.setWidth 64,
          stk := [], holdv := false, treeOpen := false, resp := 0 }) ∧
        (∀ nd, s.nmGet n = some nd → 8191 < bs.length + (nodeBytes s.cfg nd).length → exec .tser s = .next { s with
          tlen := 8191, cout := s.cout ++ (bs ++ nodeBytes s.cfg nd).take 8191, fault := true, fcause := 9,
          finfo := n.setWidth 64, stk := [], holdv := false, treeOpen := false, resp := 0 }) ∧
        (∀ l r, s.nmGet n = some (.internal l r) → below.length = 255 → bs.length < 8191 → exec .tser s = .next { s with
          tlen := BitVec.ofNat 13 (bs.length + 1), cout := s.cout ++ bs ++ [s.cfg.mark], fault := true, fcause := 8,
          finfo := l.setWidth 64, stk := [], holdv := false, treeOpen := false, resp := 0 }))

/-! ### Tree deserializer and its tokens -/

/-- R119: on bytes that are a serialized tree with `HTLEN` their length (or, with `CHECK_TLEN = 0`, not 0), `TDES` builds
that tree in pre-order from entry 0, counts its bytes and tokens, and leaves every other entry invalid. -/
def Obligations.TdesBuildsTheTreeInPreOrder : Prop :=
  ∀ (s : State) (t : Tree) (bs more : List Byte), s.fault = false → s.hv = true → InputOk s → s.cfg.ok →
    s.cfg.input.drop s.ipos.toNat = bs ++ more → Parses s.cfg t bs → t.size ≤ 512 →
    (s.htlen.toNat = bs.length ∨ (s.cfg.checkTlen = false ∧ s.htlen ≠ 0)) →
    ∃ m, exec .tdes s = .next { s with
        nm := m, root := 0, rootv := true, nalloc := BitVec.ofNat 10 t.size, tcnt := BitVec.ofNat 13 bs.length,
        ipos := s.ipos + BitVec.ofNat 64 bs.length, stk := [], treeOpen := false, resp := 0 } ∧
      (t.numbered 0).stored m ∧ ∀ j, t.size ≤ j → nmRead m j = none

/-- R120: `HTLEN = 0` is the empty tree: `TDES` reads no byte and leaves node memory all invalid, without a fault. -/
def Obligations.TdesOfLengthZeroIsTheEmptyTree : Prop :=
  ∀ s : State, s.fault = false → s.hv = true → s.htlen = 0 →
    exec .tdes s = .next { s with
      nm := [], nalloc := 0, rootv := false, root := 0, tcnt := 0, stk := [], treeOpen := false, resp := 0 }

/-- R22, R118, R162: `TDES` and `UNPK` without a header raise `NO_HDR` with the word, before anything is read or changed. -/
def Obligations.NoHeaderIsRaisedFirst : Prop :=
  ∀ s : State, s.fault = false → s.hv = false →
    exec .tdes s = .next { s with
      fault := true, fcause := 3, finfo := 0x68000000, resp := 0, holdv := false, stk := [], treeOpen := false } ∧
    exec .unpk s = .next { s with
      fault := true, fcause := 3, finfo := 0xA0000000, resp := 0, holdv := false, stk := [], treeOpen := false }

/-- R121, R162: with `CHECK_TLEN = 1` a tree length beyond what remains is `TREE_TRUNC` before the first byte is read. -/
def Obligations.TdesChecksWhatIsAvailableFirst : Prop :=
  ∀ s : State, s.fault = false → s.hv = true → InputOk s → s.cfg.checkTlen = true →
    s.cfg.input.length - s.ipos.toNat < s.htlen.toNat →
    exec .tdes s = .next { s with
      nm := [], nalloc := 0, rootv := false, root := 0, tcnt := 0, stk := [], treeOpen := false, holdv := false,
      fault := true, fcause := 5, finfo := s.ipos, resp := 0 }

/-- R118, R163: whatever the input, `TDES` with a header ends; it changes only what R118 names; a fault leaves node memory
invalid with no root, and the bytes read stay consumed and counted. -/
def Obligations.TdesEndsAndFaultsLeaveNoTree : Prop :=
  ∀ s : State, s.fault = false → s.hv = true → InputOk s → ∃ t, exec .tdes s = .next t ∧
    t.ipos = s.ipos + BitVec.ofNat 64 t.tcnt.toNat ∧ t.ipos.toNat ≤ s.cfg.input.length ∧ t.tcnt.toNat ≤ 1026 ∧ t.nalloc.toNat ≤ 512 ∧
    t.root = 0 ∧
    ((t.fault = false ∧ (t.rootv = true ↔ s.htlen ≠ 0) ∧
        t = { s with nm := t.nm, nalloc := t.nalloc, rootv := t.rootv, root := 0, tcnt := t.tcnt, ipos := t.ipos,
                     stk := [], treeOpen := false, resp := 0 }) ∨
     (t.fault = true ∧ 5 ≤ t.fcause.toNat ∧ t.fcause.toNat ≤ 8 ∧
        t = { s with nm := [], nalloc := t.nalloc, rootv := false, root := 0, tcnt := t.tcnt, ipos := t.ipos, stk := [],
                     treeOpen := false, holdv := false, fault := true, fcause := t.fcause, finfo := t.finfo, resp := 0 }))

/-- R118: `TDES`, once started, is its tokens performed one after the other: the steps of the token machine, at most 513 of
them (R178), give exactly what the command gives (log entry 5). -/
def Obligations.TdesIsARunOfItsTokens : Prop :=
  ∀ s s₀ : State, s.fault = false → InputOk s → tdesStart s = .ok s₀ → s₀.treeOpen = true →
    ∃ n, n ≤ 513 ∧ Host.Core.run Sys2Proof.core n s₀ = exec .tdes s

/-- R118: a leaf token, `LIT` of one byte or `ESC` of two, allocates the next entry as a leaf and hangs it under the
innermost open node: its left child first, then its right child, which closes that node. The tree is still open. That a token
is an instruction of its own, performed between two states of `TDES`'s loop, is the model's choice (log entry 5). -/
def Obligations.LeafTokenHangsUnderTheOpenNode : Prop :=
  ∀ (s : State) (i : Instr) (sym : Byte) (k : Nat) (p : NodeIdx) (w : Bool) (below : List StkEntry) (l r : NodeIdx),
    (i = .lit sym ∧ k = 1) ∨ (i = .esc sym ∧ k = 2) → s.fault = false → InputOk s →
    k ≤ s.cfg.input.length - s.ipos.toNat → s.nalloc.toNat < 512 → s.stk = { node := p, waitLeft := w } :: below →
    (w = true ∨ below ≠ []) → s.nmGet p = some (.internal l r) → p.toNat ≠ s.nalloc.toNat →
    ∃ t, exec i s = .next t ∧ t.nmGet (s.nalloc.setWidth 9) = some (.leaf sym) ∧
      t.nmGet p = some (if w then .internal (s.nalloc.setWidth 9) r else .internal l (s.nalloc.setWidth 9)) ∧
      (∀ j, j ≠ p → j ≠ s.nalloc.setWidth 9 → t.nmGet j = s.nmGet j) ∧
      t = { s with nm := t.nm, nalloc := s.nalloc + 1, tcnt := s.tcnt + BitVec.ofNat 13 k, ipos := s.ipos + BitVec.ofNat 64 k,
                   stk := (if w then { node := p, waitLeft := false } :: below else below), treeOpen := true }

/-- R118, R121: a leaf token completes the tree where no node is open, or where the one open node only waits for its right
child, which the leaf becomes: `ROOT` is entry 0 and `ROOTV` is set; with `CHECK_TLEN = 1` a count other than `HTLEN` is
`TLEN_MISMATCH` instead, and no tree is left. (A token as an instruction: log entry 5.) -/
def Obligations.LeafTokenCompletesTheTree : Prop :=
  ∀ (s : State) (i : Instr) (sym : Byte) (k : Nat), (i = .lit sym ∧ k = 1) ∨ (i = .esc sym ∧ k = 2) →
    s.fault = false → InputOk s → k ≤ s.cfg.input.length - s.ipos.toNat → s.nalloc.toNat < 512 →
    (s.stk = [] ∨ ∃ p l r, s.stk = [{ node := p, waitLeft := false }] ∧ s.nmGet p = some (.internal l r) ∧
      p.toNat ≠ s.nalloc.toNat) →
    ∃ t, exec i s = .next t ∧
      (s.cfg.checkTlen = false ∨ s.tcnt + BitVec.ofNat 13 k = s.htlen →
        t.nmGet (s.nalloc.setWidth 9) = some (.leaf sym) ∧
        (∀ p l r, s.stk = [{ node := p, waitLeft := false }] → s.nmGet p = some (.internal l r) →
          t.nmGet p = some (.internal l (s.nalloc.setWidth 9))) ∧
        (∀ j, j ≠ s.nalloc.setWidth 9 → (∀ e ∈ s.stk, j ≠ e.node) → t.nmGet j = s.nmGet j) ∧
        t = { s with nm := t.nm, nalloc := s.nalloc + 1, tcnt := s.tcnt + BitVec.ofNat 13 k,
                     ipos := s.ipos + BitVec.ofNat 64 k, root := 0, rootv := true, stk := [], treeOpen := false, resp := 0 }) ∧
      (s.cfg.checkTlen = true → s.tcnt + BitVec.ofNat 13 k ≠ s.htlen →
        t = { s with nm := [], rootv := false, nalloc := s.nalloc + 1, tcnt := s.tcnt + BitVec.ofNat 13 k,
                     ipos := s.ipos + BitVec.ofNat 64 k, fault := true, fcause := 6,
                     finfo := (s.tcnt + BitVec.ofNat 13 k).setWidth 64, resp := 0, holdv := false, stk := [],
                     treeOpen := false })

/-- R118: the token `MARK` allocates the next entry as an internal node that waits for its left child, hung as a leaf would
be. (A token as an instruction: log entry 5.) -/
def Obligations.MarkTokenOpensANode : Prop :=
  ∀ s : State, s.fault = false → InputOk s → s.ipos.toNat < s.cfg.input.length → s.nalloc.toNat < 512 →
    (s.stk = [] → ∃ t, exec .mark s = .next t ∧ t.nmGet (s.nalloc.setWidth 9) = some (.internal 0 0) ∧
      (∀ j, j ≠ s.nalloc.setWidth 9 → t.nmGet j = s.nmGet j) ∧
      t = { s with nm := t.nm, nalloc := s.nalloc + 1, tcnt := s.tcnt + 1, ipos := s.ipos + 1,
                   stk := [{ node := s.nalloc.setWidth 9, waitLeft := true }], treeOpen := true }) ∧
    (∀ p w below l r, s.stk = { node := p, waitLeft := w } :: below →
      (if w then below.length + 1 else below.length) < 256 → s.nmGet p = some (.internal l r) → p.toNat ≠ s.nalloc.toNat →
      ∃ t, exec .mark s = .next t ∧ t.nmGet (s.nalloc.setWidth 9) = some (.internal 0 0) ∧
        t.nmGet p = some (if w then .internal (s.nalloc.setWidth 9) r else .internal l (s.nalloc.setWidth 9)) ∧
        (∀ j, j ≠ p → j ≠ s.nalloc.setWidth 9 → t.nmGet j = s.nmGet j) ∧
        t = { s with nm := t.nm, nalloc := s.nalloc + 1, tcnt := s.tcnt + 1, ipos := s.ipos + 1, treeOpen := true,
                     stk := { node := s.nalloc.setWidth 9, waitLeft := true } ::
                       (if w then { node := p, waitLeft := false } :: below else below) })

/-- R118, R122, R123: a token that needs a 513th node is `NODE_OVF` with `IPOS` after the token; a `MARK` with 256 nodes
open that all stay open is `STK_OVF` with its own index; the end of the input, where a token should begin or inside an
`ESC`, is `TREE_TRUNC` with `IPOS`. Each leaves no tree. (A token as an instruction: log entry 5.) -/
def Obligations.TokensBeyondCapacityFault : Prop :=
  ∀ s : State, s.fault = false → InputOk s →
    (s.ipos.toNat < s.cfg.input.length → s.nalloc.toNat = 512 → ∀ sym, ∀ i ∈ [Instr.mark, Instr.lit sym],
      exec i s = .next { s with nm := [], rootv := false, tcnt := s.tcnt + 1, ipos := s.ipos + 1, fault := true, fcause := 7,
                                finfo := s.ipos + 1, resp := 0, holdv := false, stk := [], treeOpen := false }) ∧
    (s.ipos.toNat + 1 < s.cfg.input.length → s.nalloc.toNat = 512 → ∀ sym,
      exec (.esc sym) s = .next { s with
        nm := [], rootv := false, tcnt := s.tcnt + 2, ipos := s.ipos + 2, fault := true, fcause := 7, finfo := s.ipos + 2,
        resp := 0, holdv := false, stk := [], treeOpen := false }) ∧
    (s.ipos.toNat < s.cfg.input.length → s.nalloc.toNat < 512 → s.stk.length = 256 → (∀ e ∈ s.stk.head?, e.waitLeft = true) →
      exec .mark s = .next { s with nm := [], rootv := false, nalloc := s.nalloc + 1, tcnt := s.tcnt + 1, ipos := s.ipos + 1,
                                    fault := true, fcause := 8, finfo := s.nalloc.setWidth 64, resp := 0, holdv := false,
                                    stk := [], treeOpen := false }) ∧
    (s.ipos.toNat = s.cfg.input.length → s.treeOpen = true →
      step s = .next { s with nm := [], rootv := false, fault := true, fcause := 5, finfo := s.ipos, resp := 0,
                              holdv := false, stk := [], treeOpen := false }) ∧
    (s.ipos.toNat + 1 = s.cfg.input.length → s.treeOpen = true → s.cfg.input[s.ipos.toNat]? = some s.cfg.esc →
      step s = .next { s with nm := [], rootv := false, tcnt := s.tcnt + 1, ipos := s.ipos + 1, fault := true, fcause := 5,
                              finfo := s.ipos + 1, resp := 0, holdv := false, stk := [], treeOpen := false })

/-- R125: the round trip of the tree. What `TSER` appends for a well-formed tree, behind two header bytes that give its
length, is read back by `HGET` and `TDES` as the same tree numbered in pre-order, with `TCNT` and the `TLEN` of the first
launch both equal to the number of bytes appended, and no fault, in either setting of `CHECK_TLEN`. (For `HDR_BIG_ENDIAN`
false the order of the two header bytes is inferred: log entry 10.) -/
def Obligations.SerializedTreeIsReadBack : Prop :=
  ∀ (s₁ s₂ : State) (t : NTree) (h : BitVec 16) (more : List Byte),
    s₁.fault = false → WellFormedTree s₁ t → s₁.cfg.ok → s₂.cfg.mark = s₁.cfg.mark → s₂.cfg.esc = s₁.cfg.esc →
    s₂.fault = false → InputOk s₂ → (h.extractLsb' 0 13).toNat = (t.shape.ser s₁.cfg).length →
    s₂.cfg.input.drop s₂.ipos.toNat = (hdrBytes s₂.cfg h).1 :: (hdrBytes s₂.cfg h).2 :: (t.shape.ser s₁.cfg ++ more) →
    ∃ u₁ u₂ u₃, exec .tser s₁ = .next u₁ ∧ u₁.cout = s₁.cout ++ t.shape.ser s₁.cfg ∧
      exec .hget s₂ = .next u₂ ∧ exec .tdes u₂ = .next u₃ ∧ u₃.fault = false ∧ u₃.rootv = true ∧ u₃.root = 0 ∧
      (t.shape.numbered 0).stored u₃.nm ∧ u₃.tcnt.toNat = (t.shape.ser s₁.cfg).length ∧ u₃.tcnt = u₁.tlen

/-! ### Header -/

/-- R127, R36, R37, R48: `HPUT` appends the two bytes of `(PADOUT << 13) | TLEN`, bits 15 to 8 first when
`HDR_BIG_ENDIAN` and bits 7 to 0 first otherwise (log entry 10), and changes no register. -/
def Obligations.HputAppendsTheHeader : Prop :=
  ∀ s : State, s.fault = false → ∃ hi lo : Byte,
    hi.toNat * 256 + lo.toNat = (8 - s.total.toNat % 8) % 8 * 2 ^ 13 + s.tlen.toNat ∧
    exec .hput s = .next { s with
      cout := s.cout ++ (if s.cfg.hdrBigEndian then [hi, lo] else [lo, hi]), resp := 0 }

/-- R129: `HGET` takes two bytes as the header value (in the order `HDR_BIG_ENDIAN` says: log entry 10), splits it into `PAD`
and `HTLEN`, sets `HV` and answers the value. -/
def Obligations.HgetTakesTheHeader : Prop :=
  ∀ (s : State) (b0 b1 : Byte) (more : List Byte), s.fault = false → InputOk s →
    s.cfg.input.drop s.ipos.toNat = b0 :: b1 :: more →
    ∃ h : BitVec 16, h.toNat = (if s.cfg.hdrBigEndian then b0.toNat * 256 + b1.toNat else b1.toNat * 256 + b0.toNat) ∧
      exec .hget s = .next { s with
        pad := h.extractLsb' 13 3, htlen := h.extractLsb' 0 13, hv := true, ipos := s.ipos + 2, resp := h.setWidth 64 }

/-- R129: with fewer than two bytes left `HGET` is `HDR_TRUNC` with `IPOS`, and nothing is consumed or changed. -/
def Obligations.HgetOfTooFewBytesIsTruncated : Prop :=
  ∀ s : State, s.fault = false → s.cfg.input.length - s.ipos.toNat < 2 →
    exec .hget s = .next { s with
      fault := true, fcause := 4, finfo := s.ipos, resp := 0, holdv := false, stk := [], treeOpen := false }

/-- R130: `HSET` takes the header from the command and consumes no input. -/
def Obligations.HsetTakesTheHeaderFromTheWord : Prop :=
  ∀ (s : State) (imm16 : BitVec 16), s.fault = false →
    ∃ (p : BitVec 3) (n : BitVec 13), imm16.toNat = p.toNat * 2 ^ 13 + n.toNat ∧
      exec (.hset imm16) s = .next { s with pad := p, htlen := n, hv := true, resp := 0 }

/-- R131: `HPUT` and `HGET` are inverse: from the two bytes `HPUT` appended, `HGET` gives `PAD = PADOUT` and
`HTLEN = TLEN`. -/
def Obligations.HgetInvertsHput : Prop :=
  ∀ (s u : State) (more : List Byte), s.fault = false → u.fault = false → InputOk u → u.cfg.hdrBigEndian = s.cfg.hdrBigEndian →
    ∃ t hdr, exec .hput s = .next t ∧ t.cout = s.cout ++ hdr ∧ hdr.length = 2 ∧
      (u.cfg.input.drop u.ipos.toNat = hdr ++ more →
        ∃ v, exec .hget u = .next v ∧ v.pad = s.padout ∧ v.htlen = s.tlen ∧ v.hv = true)

/-! ### Unpacker -/

/-- R104: for a well-formed tree with an internal node, significant bits that are the codes of `syms` one after the other
make `UNPK` append exactly `syms`, take all the input and end without a fault. -/
def Obligations.UnpkDecodesTheCodes : Prop :=
  ∀ (s : State) (i : NodeIdx) (l r : NTree) (codes : List (List Bool)) (syms : List Byte),
    s.fault = false → s.hv = true → InputOk s → WellFormedTree s (.node i l r) →
    (s.cfg.input.drop s.ipos.toNat = [] → s.pad = 0) →
    List.Forall₂ (fun p sym => Code (NTree.node i l r).shape p sym) codes syms →
    significant (s.cfg.input.drop s.ipos.toNat) s.pad.toNat = codes.flatten →
    ∃ hold, exec .unpk s = .next { s with
      sout := s.sout ++ syms, walk := s.root, ipos := BitVec.ofNat 64 s.cfg.input.length, hold := hold, holdv := false,
      resp := 0 }

/-- R97, R104: with a tree that is a single leaf each significant bit, whatever its value, appends one copy of its symbol. -/
def Obligations.UnpkOfASingleLeafRepeatsIt : Prop :=
  ∀ (s : State) (sym : Byte), s.fault = false → s.hv = true → InputOk s → s.rootv = true →
    s.nmGet s.root = some (.leaf sym) → s.ipos.toNat < s.cfg.input.length →
    ∃ hold, exec .unpk s = .next { s with
      sout := s.sout ++ List.replicate (8 * (s.cfg.input.length - s.ipos.toNat) - s.pad.toNat) sym, walk := s.root,
      ipos := BitVec.ofNat 64 s.cfg.input.length, hold := hold, holdv := false, resp := 0 }

/-- R99: with no payload `UNPK` emits nothing and ends without a fault when `PAD = 0`, with or without a tree; when
`PAD` is not 0 it is `BAD_PAD` with `PAD`. -/
def Obligations.UnpkOfAnEmptyPayload : Prop :=
  ∀ s : State, s.fault = false → s.hv = true → s.ipos.toNat = s.cfg.input.length →
    (s.pad = 0 → exec .unpk s = .next { s with walk := s.root, holdv := false, resp := 0 }) ∧
    (s.pad ≠ 0 → exec .unpk s = .next { s with
      walk := s.root, holdv := false, fault := true, fcause := 12, finfo := s.pad.setWidth 64, resp := 0, stk := [],
      treeOpen := false })

/-- R100: without a tree the first significant bit is `NO_TREE` with `IPOS` at that moment: after the only payload byte, or
after the second one. Nothing is emitted. -/
def Obligations.UnpkWithoutATreeRaisesNoTree : Prop :=
  ∀ s : State, s.fault = false → s.hv = true → InputOk s → s.rootv = false → s.ipos.toNat < s.cfg.input.length →
    ∃ hold, exec .unpk s = .next { s with
      walk := s.root, hold := hold, holdv := false, stk := [], treeOpen := false, fault := true, fcause := 11, resp := 0,
      ipos := s.ipos + BitVec.ofNat 64 (min 2 (s.cfg.input.length - s.ipos.toNat)),
      finfo := s.ipos + BitVec.ofNat 64 (min 2 (s.cfg.input.length - s.ipos.toNat)) }

/-- R101: significant bits that end inside a code are `TRUNC_CODE` with the node the walk stands at; the symbols decoded
before are in `SOUT`. -/
def Obligations.UnpkOfAnUnfinishedCodeRaisesTruncCode : Prop :=
  ∀ (s : State) (i j : NodeIdx) (l r : NTree) (codes : List (List Bool)) (syms : List Byte) (part : List Bool),
    s.fault = false → s.hv = true → InputOk s → WellFormedTree s (.node i l r) →
    List.Forall₂ (fun p sym => Code (NTree.node i l r).shape p sym) codes syms →
    part ≠ [] → (NTree.node i l r).Leads part j →
    significant (s.cfg.input.drop s.ipos.toNat) s.pad.toNat = codes.flatten ++ part →
    ∃ hold, exec .unpk s = .next { s with
      sout := s.sout ++ syms, walk := j, ipos := BitVec.ofNat 64 s.cfg.input.length, hold := hold, holdv := false, stk := [],
      treeOpen := false, fault := true, fcause := 13, finfo := j.setWidth 64, resp := 0 }

/-- R96, R103: whatever node memory and the input hold, `UNPK` with a header ends; it appends symbols to `SOUT` and moves
`IPOS`, `WALK` and the hidden byte only; without a fault it has taken all the input; a fault is `BAD_NODE` with the invalid
root or the invalid child of the node the walk stands at, `NO_TREE`, `BAD_PAD` or `TRUNC_CODE`, each with its information.
And exactly (R97): it decodes according to the graph as it stands. Where the bits walked so far lead to node `w`, the end of
the bits or the next bit decides what happens. -/
def Obligations.UnpkEndsOnAnyGraph : Prop :=
  ∀ s : State, s.fault = false → s.hv = true → InputOk s →
    (∃ (t : State) (syms : List Byte), exec .unpk s = .next t ∧
      t.ipos.toNat ≤ s.cfg.input.length ∧ s.ipos.toNat ≤ t.ipos.toNat ∧
      syms.length ≤ 8 * (s.cfg.input.length - s.ipos.toNat) ∧
      ((t.fault = false ∧ t.ipos.toNat = s.cfg.input.length ∧ (s.rootv = true → t.walk = s.root) ∧
          t = { s with sout := s.sout ++ syms, walk := t.walk, ipos := t.ipos, hold := t.hold, holdv := false, resp := 0 }) ∨
       (t.fault = true ∧
          ((t.fcause = 10 ∧ s.rootv = true ∧ ∃ c, s.nmGet c = none ∧ t.finfo = c.setWidth 64 ∧
              (c = s.root ∨ ∃ l r, s.nmGet t.walk = some (.internal l r) ∧ (c = l ∨ c = r))) ∨
           (t.fcause = 11 ∧ s.rootv = false ∧ t.finfo = t.ipos) ∨
           (t.fcause = 12 ∧ s.ipos.toNat = s.cfg.input.length ∧ s.pad ≠ 0 ∧ t.finfo = s.pad.setWidth 64) ∨
           (t.fcause = 13 ∧ s.rootv = true ∧ t.walk ≠ s.root ∧ t.ipos.toNat = s.cfg.input.length ∧
              t.finfo = t.walk.setWidth 64)) ∧
          t = { s with sout := s.sout ++ syms, walk := t.walk, ipos := t.ipos, hold := t.hold, holdv := false, stk := [],
                       treeOpen := false, fault := true, fcause := t.fcause, finfo := t.finfo, resp := 0 }))) ∧
    (s.rootv = true → s.nmGet s.root = none → s.ipos.toNat < s.cfg.input.length → ∃ hold, exec .unpk s = .next { s with
      walk := s.root, ipos := s.ipos + BitVec.ofNat 64 (min 2 (s.cfg.input.length - s.ipos.toNat)), hold := hold, holdv := false,
      stk := [], treeOpen := false, fault := true, fcause := 10, finfo := s.root.setWidth 64, resp := 0 }) ∧
    (∀ (bits more : List Bool) (syms : List Byte) (w : NodeIdx), s.rootv = true →
      significant (s.cfg.input.drop s.ipos.toNat) s.pad.toNat = bits ++ more → GraphWalk s.nm s.root s.root bits syms w →
      (more = [] → w = s.root → (s.cfg.input.drop s.ipos.toNat = [] → s.pad = 0) → ∃ hold, exec .unpk s = .next { s with
        sout := s.sout ++ syms, walk := s.root, ipos := BitVec.ofNat 64 s.cfg.input.length, hold := hold, holdv := false,
        resp := 0 }) ∧
      (more = [] → w ≠ s.root → ∃ hold, exec .unpk s = .next { s with
        sout := s.sout ++ syms, walk := w, ipos := BitVec.ofNat 64 s.cfg.input.length, hold := hold, holdv := false, stk := [],
        treeOpen := false, fault := true, fcause := 13, finfo := w.setWidth 64, resp := 0 }) ∧
      (∀ b later l r, more = b :: later → s.nmGet w = some (.internal l r) → s.nmGet (if b then r else l) = none →
        ∃ hold, exec .unpk s = .next { s with
          sout := s.sout ++ syms, walk := w, hold := hold, holdv := false, stk := [], treeOpen := false, fault := true,
          ipos := s.ipos + BitVec.ofNat 64 (min (bits.length / 8 + 2) (s.cfg.input.length - s.ipos.toNat)),
          fcause := 10, finfo := (if b then r else l).setWidth 64, resp := 0 }))

/-- R102, R75: the padding bits of the final byte are not looked at: two inputs that differ only in them give the same
outcome in everything but the input and the hidden byte. -/
def Obligations.UnpkDoesNotLookAtThePadding : Prop :=
  ∀ (s : State) (pre : List Byte) (b₁ b₂ : Byte), s.ipos.toNat ≤ pre.length → pre.length + 1 < 2 ^ 64 →
    (∀ k, s.pad.toNat ≤ k → k < 8 → b₁.getLsbD k = b₂.getLsbD k) →
    ∃ t₁ t₂, exec .unpk { s with cfg := { s.cfg with input := pre ++ [b₁] } } = .next t₁ ∧
      exec .unpk { s with cfg := { s.cfg with input := pre ++ [b₂] } } = .next t₂ ∧
      t₂ = { t₁ with cfg := { s.cfg with input := pre ++ [b₂] }, hold := t₂.hold }

/-! ### The fault state -/

/-- R156: in the fault state a legal `NOP`, `RST`, `RDCSR` or `NRD` is performed as usual: `NOP` responds 0, `RST` resets,
`RDCSR` answers the register's value and `NRD` the entry's word, as it would without the fault (R133, R134, R135, R110). Every
other instruction is refused: it changes nothing and responds 0. That a token is among the refused is the model's choice (log
entries 5 and 14). -/
def Obligations.FaultStateRefusesTheRest : Prop :=
  ∀ (s : State), s.fault = true →
    (∀ i : Instr, performedInFault i = false → exec i s = .next { s with resp := 0 }) ∧
    exec .nop s = .next { s with resp := 0 } ∧
    (∃ t, exec .rst s = .next t ∧ t = s.rst ∧ t.fault = false ∧ t.fcause = 0 ∧ t.finfo = 0) ∧
    (∀ csr : BitVec 8, csr.toNat ≤ 0x0F → ∃ v, s.readCsr csr = some v ∧ exec (.rdcsr csr) s = .next { s with resp := v }) ∧
    (∀ idx : NodeIdx, ∃ u, exec (.nrd idx) { s with fault := false } = .next u ∧
      exec (.nrd idx) s = .next { s with resp := u.resp })

/-- R157, R158: only `RST` leaves the fault state, and the first fault's registers are kept until then. -/
def Obligations.OnlyResetLeavesTheFaultState : Prop :=
  ∀ s t : State, s.fault = true → step s = .next t →
    (t.fault = true ∧ t.fcause = s.fcause ∧ t.finfo = s.finfo) ∨
    (s.treeOpen = false ∧ ∃ later, s.cmds = 0x08000000#32 :: later ∧ t = State.rst { s with cmds := later })

/-! ### Invariants every step keeps, and whole-machine rules -/

/-- R18: every step keeps the packer invariant on `ACC`, `NBUF`, `TOTAL` and `FDONE`; and, as long as `TOTAL` does not wrap,
the bytes `PUTB`, `PUTC` and `FIN` append to `COUT` keep pace with `packedBytes`, which is `floor(TOTAL / 8)`, or
`ceil(TOTAL / 8)` once `FDONE` is set: it grows by as many as they append, no other instruction changes it, and `RST` starts it
again from 0. -/
def Obligations.StepKeepsThePackerInvariant : Prop :=
  ∀ s t : State, PackerInv s →
    (step s = .next t → PackerInv t) ∧
    (∀ i, exec i s = .next t → s.total.toNat ≤ t.total.toNat →
      ((∃ b, i = .putb b) ∨ (∃ len code, i = .putc len code) ∨ i = .fin →
        ∃ bs, t.cout = s.cout ++ bs ∧ packedBytes t = packedBytes s + bs.length) ∧
      ((∀ b, i ≠ .putb b) → (∀ len code, i ≠ .putc len code) → i ≠ .fin → i ≠ .rst → packedBytes t = packedBytes s)) ∧
    (exec .rst s = .next t → packedBytes t = 0)

/-- R32, R53 (log entry 6): every step keeps node memory in canonical form. -/
def Obligations.StepKeepsNodeMemoryCanonical : Prop :=
  ∀ s t : State, Memory.wf s.nm → step s = .next t → Memory.wf t.nm

/-- R34, R159: every step keeps `FCAUSE` and `FINFO` 0 without a fault and `FCAUSE` a code of 1 to 13 with one. R20 to R22,
R25, R26: every step keeps the header fields 0 without a header and `ROOT` 0 without a root. -/
def Obligations.StepKeepsUnwrittenRegistersZero : Prop :=
  ∀ s t : State, step s = .next t → (LatchInv s → LatchInv t) ∧ (UnwrittenInv s → UnwrittenInv t)

/-- R23, R24: every step keeps `NALLOC` at most 512 and `TCNT` at most 1026. -/
def Obligations.StepKeepsTheCountsInRange : Prop :=
  ∀ s t : State, CountsInv s → step s = .next t → CountsInv t

/-- R27, R29: after every command the hidden state is quiet again. -/
def Obligations.StepKeepsTheHiddenStateQuiet : Prop :=
  ∀ s t : State, Quiet s → step s = .next t → Quiet t

/-- R31, R13: every step keeps `IPOS` at most `ILEN`, and changes neither `IN` nor a parameter. -/
def Obligations.StepKeepsTheInputInRange : Prop :=
  ∀ s t : State, InputOk s → step s = .next t → InputOk t ∧ t.cfg.input = s.cfg.input ∧ t.cfg = s.cfg

/-- R33, R46: every step leaves both output streams as they were or longer: bytes once appended are never changed. -/
def Obligations.StepOnlyAppendsToTheStreams : Prop :=
  ∀ s t : State, step s = .next t → s.cout <+: t.cout ∧ s.sout <+: t.sout

/-- All the invariants hold right after hardware reset, whatever the launch's arguments. -/
def Obligations.InvariantsHoldAtReset : Prop :=
  ∀ c : Config, c.input.length < 2 ^ 64 →
    let s := State.launch c
    PackerInv s ∧ packedBytes s = s.cout.length ∧ Memory.wf s.nm ∧ LatchInv s ∧ CountsInv s ∧ UnwrittenInv s ∧ Quiet s ∧ InputOk s

/-- R14 to R34, `RST` aside: each register is written only by the instructions its rule names, and the hidden `HOLDV` and
`SP`, and the fault registers, also where a fault is latched (R155), which happens only outside the fault state. The launch's
record and the host's further words are not written at all. (The tokens are passes of `TDES`: log entry 5.) -/
def Obligations.RegistersChangeOnlyByTheirWriters : Prop :=
  ∀ (s t : State) (i : Instr), exec i s = .next t → i ≠ .rst →
    (t.total ≠ s.total → (∃ b, i = .putb b) ∨ ∃ len code, i = .putc len code) ∧
    (t.acc ≠ s.acc ∨ t.nbuf ≠ s.nbuf → (∃ b, i = .putb b) ∨ (∃ len code, i = .putc len code) ∨ i = .fin) ∧
    (t.fdone ≠ s.fdone → i = .fin) ∧
    (t.tlen ≠ s.tlen → i = .tser) ∧
    (t.pad ≠ s.pad ∨ t.htlen ≠ s.htlen ∨ t.hv ≠ s.hv → i = .hget ∨ ∃ imm, i = .hset imm) ∧
    (t.tcnt ≠ s.tcnt ∨ t.nalloc ≠ s.nalloc → i = .tdes ∨ i = .mark ∨ (∃ x, i = .esc x) ∨ ∃ x, i = .lit x) ∧
    (t.root ≠ s.root ∨ t.rootv ≠ s.rootv →
      (∃ idx, i = .sroot idx) ∨ i = .tdes ∨ i = .mark ∨ (∃ x, i = .esc x) ∨ ∃ x, i = .lit x) ∧
    (t.hold ≠ s.hold → i = .unpk) ∧
    (t.holdv ≠ s.holdv → t.holdv = false ∧ (i = .unpk ∨ (s.fault = false ∧ t.fault = true))) ∧
    (t.walk ≠ s.walk → i = .unpk) ∧
    (t.stk ≠ s.stk → i = .tser ∨ i = .tdes ∨ i = .mark ∨ (∃ x, i = .esc x) ∨ (∃ x, i = .lit x) ∨
      (s.fault = false ∧ t.fault = true ∧ t.stk = [])) ∧
    (t.ipos ≠ s.ipos → i = .hget ∨ i = .tdes ∨ i = .unpk ∨ i = .mark ∨ (∃ x, i = .esc x) ∨ ∃ x, i = .lit x) ∧
    (t.nm ≠ s.nm → (∃ idx x, i = .nleaf idx x) ∨ (∃ idx l r, i = .nint idx l r) ∨ i = .tdes ∨ i = .mark ∨
      (∃ x, i = .esc x) ∨ ∃ x, i = .lit x) ∧
    (t.cout ≠ s.cout → i = .hput ∨ i = .tser ∨ (∃ b, i = .putb b) ∨ (∃ len code, i = .putc len code) ∨ i = .fin) ∧
    (t.sout ≠ s.sout → i = .unpk) ∧
    (t.fault ≠ s.fault ∨ t.fcause ≠ s.fcause ∨ t.finfo ≠ s.finfo → s.fault = false ∧ t.fault = true) ∧
    t.cfg = s.cfg ∧ t.cmds = s.cmds

/-! ### The length check of a whole tree -/

/-- R121, R118, R119: with `CHECK_TLEN = 1` a complete tree whose bytes are not as many as `HTLEN` says is `TLEN_MISMATCH`
with `TCNT`, whatever the tree's size; its tokens are counted and consumed, and no tree is left. -/
def Obligations.TdesOfAnotherLengthIsTlenMismatch : Prop :=
  ∀ (s : State) (t : Tree) (bs more : List Byte), s.fault = false → s.hv = true → InputOk s → s.cfg.ok →
    s.cfg.checkTlen = true → s.cfg.input.drop s.ipos.toNat = bs ++ more → Parses s.cfg t bs → t.size ≤ 512 →
    s.htlen ≠ 0 → s.htlen.toNat ≤ s.cfg.input.length - s.ipos.toNat → s.htlen.toNat ≠ bs.length →
    exec .tdes s = .next { s with
      nm := [], root := 0, rootv := false, nalloc := BitVec.ofNat 10 t.size, tcnt := BitVec.ofNat 13 bs.length,
      ipos := s.ipos + BitVec.ofNat 64 bs.length, fault := true, fcause := 6, finfo := BitVec.ofNat 64 bs.length,
      resp := 0, holdv := false, stk := [], treeOpen := false }
end

