-- ==== Sys2Proof/Laws/Config.lean ====
section
/-! SUPPORT. The configuration record of 00_scope.md R7: the values of its fixed parameters, and that the types of Word.lean
and of State have the widths it gives. -/

namespace Sys2Proof

@[simp] theorem Config.tlenMax_val (c : Config) : c.tlenMax.val = 8191 := rfl
@[simp] theorem Config.nodeCap_val (c : Config) : c.nodeCap.val = 512 := rfl
@[simp] theorem Config.stkCap_val (c : Config) : c.stkCap.val = 256 := rfl
@[simp] theorem Config.chunkMax_val (c : Config) : c.chunkMax.val = 16 := rfl

/-- The word types have the record's widths. -/
theorem Config.word_widths (c : Config) :
    Byte = BitVec c.symW.val ∧ PadCount = BitVec c.padW.val ∧ TreeLen = BitVec c.tlenW.val ∧ Header = BitVec c.hdrW.val ∧
    NodeIdx = BitVec c.nodeIdxW.val ∧ Total = BitVec c.totalW.val ∧ Word = BitVec c.cmdW.val ∧ Resp = BitVec c.respW.val :=
  ⟨rfl, rfl, rfl, rfl, rfl, rfl, rfl, rfl⟩

/-- The counts that follow from the widths: the alphabet, the largest tree byte-length, the header's two fields, and an index
for every entry of node memory. -/
theorem Config.counts_of_widths (c : Config) :
    c.alphabet.val = 2 ^ c.symW.val ∧ c.tlenMax.val = 2 ^ c.tlenW.val - 1 ∧ c.hdrW.val = c.padW.val + c.tlenW.val ∧
    c.nodeCap.val = 2 ^ c.nodeIdxW.val :=
  ⟨rfl, rfl, rfl, rfl⟩

end Sys2Proof
end

