-- ==== Sys2Proof/Laws/State.lean ====
section
/-! SUPPORT. The small lemmas of the named updates of State: one per field per update, each true by rfl, so that no later
proof unfolds a record update. -/

namespace Sys2Proof.Machine

@[simp] theorem State.nmSet_cfg (s : State) (i : NodeIdx) (v : Node) : (s.nmSet i v).cfg = s.cfg := rfl
@[simp] theorem State.nmSet_cmds (s : State) (i : NodeIdx) (v : Node) : (s.nmSet i v).cmds = s.cmds := rfl
@[simp] theorem State.nmSet_acc (s : State) (i : NodeIdx) (v : Node) : (s.nmSet i v).acc = s.acc := rfl
@[simp] theorem State.nmSet_nbuf (s : State) (i : NodeIdx) (v : Node) : (s.nmSet i v).nbuf = s.nbuf := rfl
@[simp] theorem State.nmSet_total (s : State) (i : NodeIdx) (v : Node) : (s.nmSet i v).total = s.total := rfl
@[simp] theorem State.nmSet_fdone (s : State) (i : NodeIdx) (v : Node) : (s.nmSet i v).fdone = s.fdone := rfl
@[simp] theorem State.nmSet_tlen (s : State) (i : NodeIdx) (v : Node) : (s.nmSet i v).tlen = s.tlen := rfl
@[simp] theorem State.nmSet_pad (s : State) (i : NodeIdx) (v : Node) : (s.nmSet i v).pad = s.pad := rfl
@[simp] theorem State.nmSet_htlen (s : State) (i : NodeIdx) (v : Node) : (s.nmSet i v).htlen = s.htlen := rfl
@[simp] theorem State.nmSet_hv (s : State) (i : NodeIdx) (v : Node) : (s.nmSet i v).hv = s.hv := rfl
@[simp] theorem State.nmSet_tcnt (s : State) (i : NodeIdx) (v : Node) : (s.nmSet i v).tcnt = s.tcnt := rfl
@[simp] theorem State.nmSet_nalloc (s : State) (i : NodeIdx) (v : Node) : (s.nmSet i v).nalloc = s.nalloc := rfl
@[simp] theorem State.nmSet_root (s : State) (i : NodeIdx) (v : Node) : (s.nmSet i v).root = s.root := rfl
@[simp] theorem State.nmSet_rootv (s : State) (i : NodeIdx) (v : Node) : (s.nmSet i v).rootv = s.rootv := rfl
@[simp] theorem State.nmSet_hold (s : State) (i : NodeIdx) (v : Node) : (s.nmSet i v).hold = s.hold := rfl
@[simp] theorem State.nmSet_holdv (s : State) (i : NodeIdx) (v : Node) : (s.nmSet i v).holdv = s.holdv := rfl
@[simp] theorem State.nmSet_walk (s : State) (i : NodeIdx) (v : Node) : (s.nmSet i v).walk = s.walk := rfl
@[simp] theorem State.nmSet_stk (s : State) (i : NodeIdx) (v : Node) : (s.nmSet i v).stk = s.stk := rfl
@[simp] theorem State.nmSet_treeOpen (s : State) (i : NodeIdx) (v : Node) : (s.nmSet i v).treeOpen = s.treeOpen := rfl
@[simp] theorem State.nmSet_ipos (s : State) (i : NodeIdx) (v : Node) : (s.nmSet i v).ipos = s.ipos := rfl
@[simp] theorem State.nmSet_nm (s : State) (i : NodeIdx) (v : Node) : (s.nmSet i v).nm = nmWrite s.nm i.toNat v := rfl
@[simp] theorem State.nmSet_cout (s : State) (i : NodeIdx) (v : Node) : (s.nmSet i v).cout = s.cout := rfl
@[simp] theorem State.nmSet_sout (s : State) (i : NodeIdx) (v : Node) : (s.nmSet i v).sout = s.sout := rfl
@[simp] theorem State.nmSet_fault (s : State) (i : NodeIdx) (v : Node) : (s.nmSet i v).fault = s.fault := rfl
@[simp] theorem State.nmSet_fcause (s : State) (i : NodeIdx) (v : Node) : (s.nmSet i v).fcause = s.fcause := rfl
@[simp] theorem State.nmSet_finfo (s : State) (i : NodeIdx) (v : Node) : (s.nmSet i v).finfo = s.finfo := rfl
@[simp] theorem State.nmSet_resp (s : State) (i : NodeIdx) (v : Node) : (s.nmSet i v).resp = s.resp := rfl

@[simp] theorem State.cOut_cfg (s : State) (b : Byte) : (s.cOut b).cfg = s.cfg := rfl
@[simp] theorem State.cOut_cmds (s : State) (b : Byte) : (s.cOut b).cmds = s.cmds := rfl
@[simp] theorem State.cOut_acc (s : State) (b : Byte) : (s.cOut b).acc = s.acc := rfl
@[simp] theorem State.cOut_nbuf (s : State) (b : Byte) : (s.cOut b).nbuf = s.nbuf := rfl
@[simp] theorem State.cOut_total (s : State) (b : Byte) : (s.cOut b).total = s.total := rfl
@[simp] theorem State.cOut_fdone (s : State) (b : Byte) : (s.cOut b).fdone = s.fdone := rfl
@[simp] theorem State.cOut_tlen (s : State) (b : Byte) : (s.cOut b).tlen = s.tlen := rfl
@[simp] theorem State.cOut_pad (s : State) (b : Byte) : (s.cOut b).pad = s.pad := rfl
@[simp] theorem State.cOut_htlen (s : State) (b : Byte) : (s.cOut b).htlen = s.htlen := rfl
@[simp] theorem State.cOut_hv (s : State) (b : Byte) : (s.cOut b).hv = s.hv := rfl
@[simp] theorem State.cOut_tcnt (s : State) (b : Byte) : (s.cOut b).tcnt = s.tcnt := rfl
@[simp] theorem State.cOut_nalloc (s : State) (b : Byte) : (s.cOut b).nalloc = s.nalloc := rfl
@[simp] theorem State.cOut_root (s : State) (b : Byte) : (s.cOut b).root = s.root := rfl
@[simp] theorem State.cOut_rootv (s : State) (b : Byte) : (s.cOut b).rootv = s.rootv := rfl
@[simp] theorem State.cOut_hold (s : State) (b : Byte) : (s.cOut b).hold = s.hold := rfl
@[simp] theorem State.cOut_holdv (s : State) (b : Byte) : (s.cOut b).holdv = s.holdv := rfl
@[simp] theorem State.cOut_walk (s : State) (b : Byte) : (s.cOut b).walk = s.walk := rfl
@[simp] theorem State.cOut_stk (s : State) (b : Byte) : (s.cOut b).stk = s.stk := rfl
@[simp] theorem State.cOut_treeOpen (s : State) (b : Byte) : (s.cOut b).treeOpen = s.treeOpen := rfl
@[simp] theorem State.cOut_ipos (s : State) (b : Byte) : (s.cOut b).ipos = s.ipos := rfl
@[simp] theorem State.cOut_nm (s : State) (b : Byte) : (s.cOut b).nm = s.nm := rfl
@[simp] theorem State.cOut_cout (s : State) (b : Byte) : (s.cOut b).cout = s.cout ++ [b] := rfl
@[simp] theorem State.cOut_sout (s : State) (b : Byte) : (s.cOut b).sout = s.sout := rfl
@[simp] theorem State.cOut_fault (s : State) (b : Byte) : (s.cOut b).fault = s.fault := rfl
@[simp] theorem State.cOut_fcause (s : State) (b : Byte) : (s.cOut b).fcause = s.fcause := rfl
@[simp] theorem State.cOut_finfo (s : State) (b : Byte) : (s.cOut b).finfo = s.finfo := rfl
@[simp] theorem State.cOut_resp (s : State) (b : Byte) : (s.cOut b).resp = s.resp := rfl

@[simp] theorem State.sOut_cfg (s : State) (b : Byte) : (s.sOut b).cfg = s.cfg := rfl
@[simp] theorem State.sOut_cmds (s : State) (b : Byte) : (s.sOut b).cmds = s.cmds := rfl
@[simp] theorem State.sOut_acc (s : State) (b : Byte) : (s.sOut b).acc = s.acc := rfl
@[simp] theorem State.sOut_nbuf (s : State) (b : Byte) : (s.sOut b).nbuf = s.nbuf := rfl
@[simp] theorem State.sOut_total (s : State) (b : Byte) : (s.sOut b).total = s.total := rfl
@[simp] theorem State.sOut_fdone (s : State) (b : Byte) : (s.sOut b).fdone = s.fdone := rfl
@[simp] theorem State.sOut_tlen (s : State) (b : Byte) : (s.sOut b).tlen = s.tlen := rfl
@[simp] theorem State.sOut_pad (s : State) (b : Byte) : (s.sOut b).pad = s.pad := rfl
@[simp] theorem State.sOut_htlen (s : State) (b : Byte) : (s.sOut b).htlen = s.htlen := rfl
@[simp] theorem State.sOut_hv (s : State) (b : Byte) : (s.sOut b).hv = s.hv := rfl
@[simp] theorem State.sOut_tcnt (s : State) (b : Byte) : (s.sOut b).tcnt = s.tcnt := rfl
@[simp] theorem State.sOut_nalloc (s : State) (b : Byte) : (s.sOut b).nalloc = s.nalloc := rfl
@[simp] theorem State.sOut_root (s : State) (b : Byte) : (s.sOut b).root = s.root := rfl
@[simp] theorem State.sOut_rootv (s : State) (b : Byte) : (s.sOut b).rootv = s.rootv := rfl
@[simp] theorem State.sOut_hold (s : State) (b : Byte) : (s.sOut b).hold = s.hold := rfl
@[simp] theorem State.sOut_holdv (s : State) (b : Byte) : (s.sOut b).holdv = s.holdv := rfl
@[simp] theorem State.sOut_walk (s : State) (b : Byte) : (s.sOut b).walk = s.walk := rfl
@[simp] theorem State.sOut_stk (s : State) (b : Byte) : (s.sOut b).stk = s.stk := rfl
@[simp] theorem State.sOut_treeOpen (s : State) (b : Byte) : (s.sOut b).treeOpen = s.treeOpen := rfl
@[simp] theorem State.sOut_ipos (s : State) (b : Byte) : (s.sOut b).ipos = s.ipos := rfl
@[simp] theorem State.sOut_nm (s : State) (b : Byte) : (s.sOut b).nm = s.nm := rfl
@[simp] theorem State.sOut_cout (s : State) (b : Byte) : (s.sOut b).cout = s.cout := rfl
@[simp] theorem State.sOut_sout (s : State) (b : Byte) : (s.sOut b).sout = s.sout ++ [b] := rfl
@[simp] theorem State.sOut_fault (s : State) (b : Byte) : (s.sOut b).fault = s.fault := rfl
@[simp] theorem State.sOut_fcause (s : State) (b : Byte) : (s.sOut b).fcause = s.fcause := rfl
@[simp] theorem State.sOut_finfo (s : State) (b : Byte) : (s.sOut b).finfo = s.finfo := rfl
@[simp] theorem State.sOut_resp (s : State) (b : Byte) : (s.sOut b).resp = s.resp := rfl

@[simp] theorem State.setResp_cfg (s : State) (v : Resp) : (s.setResp v).cfg = s.cfg := rfl
@[simp] theorem State.setResp_cmds (s : State) (v : Resp) : (s.setResp v).cmds = s.cmds := rfl
@[simp] theorem State.setResp_acc (s : State) (v : Resp) : (s.setResp v).acc = s.acc := rfl
@[simp] theorem State.setResp_nbuf (s : State) (v : Resp) : (s.setResp v).nbuf = s.nbuf := rfl
@[simp] theorem State.setResp_total (s : State) (v : Resp) : (s.setResp v).total = s.total := rfl
@[simp] theorem State.setResp_fdone (s : State) (v : Resp) : (s.setResp v).fdone = s.fdone := rfl
@[simp] theorem State.setResp_tlen (s : State) (v : Resp) : (s.setResp v).tlen = s.tlen := rfl
@[simp] theorem State.setResp_pad (s : State) (v : Resp) : (s.setResp v).pad = s.pad := rfl
@[simp] theorem State.setResp_htlen (s : State) (v : Resp) : (s.setResp v).htlen = s.htlen := rfl
@[simp] theorem State.setResp_hv (s : State) (v : Resp) : (s.setResp v).hv = s.hv := rfl
@[simp] theorem State.setResp_tcnt (s : State) (v : Resp) : (s.setResp v).tcnt = s.tcnt := rfl
@[simp] theorem State.setResp_nalloc (s : State) (v : Resp) : (s.setResp v).nalloc = s.nalloc := rfl
@[simp] theorem State.setResp_root (s : State) (v : Resp) : (s.setResp v).root = s.root := rfl
@[simp] theorem State.setResp_rootv (s : State) (v : Resp) : (s.setResp v).rootv = s.rootv := rfl
@[simp] theorem State.setResp_hold (s : State) (v : Resp) : (s.setResp v).hold = s.hold := rfl
@[simp] theorem State.setResp_holdv (s : State) (v : Resp) : (s.setResp v).holdv = s.holdv := rfl
@[simp] theorem State.setResp_walk (s : State) (v : Resp) : (s.setResp v).walk = s.walk := rfl
@[simp] theorem State.setResp_stk (s : State) (v : Resp) : (s.setResp v).stk = s.stk := rfl
@[simp] theorem State.setResp_treeOpen (s : State) (v : Resp) : (s.setResp v).treeOpen = s.treeOpen := rfl
@[simp] theorem State.setResp_ipos (s : State) (v : Resp) : (s.setResp v).ipos = s.ipos := rfl
@[simp] theorem State.setResp_nm (s : State) (v : Resp) : (s.setResp v).nm = s.nm := rfl
@[simp] theorem State.setResp_cout (s : State) (v : Resp) : (s.setResp v).cout = s.cout := rfl
@[simp] theorem State.setResp_sout (s : State) (v : Resp) : (s.setResp v).sout = s.sout := rfl
@[simp] theorem State.setResp_fault (s : State) (v : Resp) : (s.setResp v).fault = s.fault := rfl
@[simp] theorem State.setResp_fcause (s : State) (v : Resp) : (s.setResp v).fcause = s.fcause := rfl
@[simp] theorem State.setResp_finfo (s : State) (v : Resp) : (s.setResp v).finfo = s.finfo := rfl
@[simp] theorem State.setResp_resp (s : State) (v : Resp) : (s.setResp v).resp = v := rfl

@[simp] theorem State.withCmds_cfg (s : State) (ws : List Word) : (s.withCmds ws).cfg = s.cfg := rfl
@[simp] theorem State.withCmds_cmds (s : State) (ws : List Word) : (s.withCmds ws).cmds = ws := rfl
@[simp] theorem State.withCmds_acc (s : State) (ws : List Word) : (s.withCmds ws).acc = s.acc := rfl
@[simp] theorem State.withCmds_nbuf (s : State) (ws : List Word) : (s.withCmds ws).nbuf = s.nbuf := rfl
@[simp] theorem State.withCmds_total (s : State) (ws : List Word) : (s.withCmds ws).total = s.total := rfl
@[simp] theorem State.withCmds_fdone (s : State) (ws : List Word) : (s.withCmds ws).fdone = s.fdone := rfl
@[simp] theorem State.withCmds_tlen (s : State) (ws : List Word) : (s.withCmds ws).tlen = s.tlen := rfl
@[simp] theorem State.withCmds_pad (s : State) (ws : List Word) : (s.withCmds ws).pad = s.pad := rfl
@[simp] theorem State.withCmds_htlen (s : State) (ws : List Word) : (s.withCmds ws).htlen = s.htlen := rfl
@[simp] theorem State.withCmds_hv (s : State) (ws : List Word) : (s.withCmds ws).hv = s.hv := rfl
@[simp] theorem State.withCmds_tcnt (s : State) (ws : List Word) : (s.withCmds ws).tcnt = s.tcnt := rfl
@[simp] theorem State.withCmds_nalloc (s : State) (ws : List Word) : (s.withCmds ws).nalloc = s.nalloc := rfl
@[simp] theorem State.withCmds_root (s : State) (ws : List Word) : (s.withCmds ws).root = s.root := rfl
@[simp] theorem State.withCmds_rootv (s : State) (ws : List Word) : (s.withCmds ws).rootv = s.rootv := rfl
@[simp] theorem State.withCmds_hold (s : State) (ws : List Word) : (s.withCmds ws).hold = s.hold := rfl
@[simp] theorem State.withCmds_holdv (s : State) (ws : List Word) : (s.withCmds ws).holdv = s.holdv := rfl
@[simp] theorem State.withCmds_walk (s : State) (ws : List Word) : (s.withCmds ws).walk = s.walk := rfl
@[simp] theorem State.withCmds_stk (s : State) (ws : List Word) : (s.withCmds ws).stk = s.stk := rfl
@[simp] theorem State.withCmds_treeOpen (s : State) (ws : List Word) : (s.withCmds ws).treeOpen = s.treeOpen := rfl
@[simp] theorem State.withCmds_ipos (s : State) (ws : List Word) : (s.withCmds ws).ipos = s.ipos := rfl
@[simp] theorem State.withCmds_nm (s : State) (ws : List Word) : (s.withCmds ws).nm = s.nm := rfl
@[simp] theorem State.withCmds_cout (s : State) (ws : List Word) : (s.withCmds ws).cout = s.cout := rfl
@[simp] theorem State.withCmds_sout (s : State) (ws : List Word) : (s.withCmds ws).sout = s.sout := rfl
@[simp] theorem State.withCmds_fault (s : State) (ws : List Word) : (s.withCmds ws).fault = s.fault := rfl
@[simp] theorem State.withCmds_fcause (s : State) (ws : List Word) : (s.withCmds ws).fcause = s.fcause := rfl
@[simp] theorem State.withCmds_finfo (s : State) (ws : List Word) : (s.withCmds ws).finfo = s.finfo := rfl
@[simp] theorem State.withCmds_resp (s : State) (ws : List Word) : (s.withCmds ws).resp = s.resp := rfl

@[simp] theorem State.setHeader_cfg (s : State) (h : BitVec 16) : (s.setHeader h).cfg = s.cfg := rfl
@[simp] theorem State.setHeader_cmds (s : State) (h : BitVec 16) : (s.setHeader h).cmds = s.cmds := rfl
@[simp] theorem State.setHeader_acc (s : State) (h : BitVec 16) : (s.setHeader h).acc = s.acc := rfl
@[simp] theorem State.setHeader_nbuf (s : State) (h : BitVec 16) : (s.setHeader h).nbuf = s.nbuf := rfl
@[simp] theorem State.setHeader_total (s : State) (h : BitVec 16) : (s.setHeader h).total = s.total := rfl
@[simp] theorem State.setHeader_fdone (s : State) (h : BitVec 16) : (s.setHeader h).fdone = s.fdone := rfl
@[simp] theorem State.setHeader_tlen (s : State) (h : BitVec 16) : (s.setHeader h).tlen = s.tlen := rfl
@[simp] theorem State.setHeader_pad (s : State) (h : BitVec 16) : (s.setHeader h).pad = hdrPad h := rfl
@[simp] theorem State.setHeader_htlen (s : State) (h : BitVec 16) : (s.setHeader h).htlen = hdrTlen h := rfl
@[simp] theorem State.setHeader_hv (s : State) (h : BitVec 16) : (s.setHeader h).hv = true := rfl
@[simp] theorem State.setHeader_tcnt (s : State) (h : BitVec 16) : (s.setHeader h).tcnt = s.tcnt := rfl
@[simp] theorem State.setHeader_nalloc (s : State) (h : BitVec 16) : (s.setHeader h).nalloc = s.nalloc := rfl
@[simp] theorem State.setHeader_root (s : State) (h : BitVec 16) : (s.setHeader h).root = s.root := rfl
@[simp] theorem State.setHeader_rootv (s : State) (h : BitVec 16) : (s.setHeader h).rootv = s.rootv := rfl
@[simp] theorem State.setHeader_hold (s : State) (h : BitVec 16) : (s.setHeader h).hold = s.hold := rfl
@[simp] theorem State.setHeader_holdv (s : State) (h : BitVec 16) : (s.setHeader h).holdv = s.holdv := rfl
@[simp] theorem State.setHeader_walk (s : State) (h : BitVec 16) : (s.setHeader h).walk = s.walk := rfl
@[simp] theorem State.setHeader_stk (s : State) (h : BitVec 16) : (s.setHeader h).stk = s.stk := rfl
@[simp] theorem State.setHeader_treeOpen (s : State) (h : BitVec 16) : (s.setHeader h).treeOpen = s.treeOpen := rfl
@[simp] theorem State.setHeader_ipos (s : State) (h : BitVec 16) : (s.setHeader h).ipos = s.ipos := rfl
@[simp] theorem State.setHeader_nm (s : State) (h : BitVec 16) : (s.setHeader h).nm = s.nm := rfl
@[simp] theorem State.setHeader_cout (s : State) (h : BitVec 16) : (s.setHeader h).cout = s.cout := rfl
@[simp] theorem State.setHeader_sout (s : State) (h : BitVec 16) : (s.setHeader h).sout = s.sout := rfl
@[simp] theorem State.setHeader_fault (s : State) (h : BitVec 16) : (s.setHeader h).fault = s.fault := rfl
@[simp] theorem State.setHeader_fcause (s : State) (h : BitVec 16) : (s.setHeader h).fcause = s.fcause := rfl
@[simp] theorem State.setHeader_finfo (s : State) (h : BitVec 16) : (s.setHeader h).finfo = s.finfo := rfl
@[simp] theorem State.setHeader_resp (s : State) (h : BitVec 16) : (s.setHeader h).resp = s.resp := rfl

@[simp] theorem State.latch_cfg (s : State) (c : Cause) (info : Resp) : (s.latch c info).cfg = s.cfg := rfl
@[simp] theorem State.latch_cmds (s : State) (c : Cause) (info : Resp) : (s.latch c info).cmds = s.cmds := rfl
@[simp] theorem State.latch_acc (s : State) (c : Cause) (info : Resp) : (s.latch c info).acc = s.acc := rfl
@[simp] theorem State.latch_nbuf (s : State) (c : Cause) (info : Resp) : (s.latch c info).nbuf = s.nbuf := rfl
@[simp] theorem State.latch_total (s : State) (c : Cause) (info : Resp) : (s.latch c info).total = s.total := rfl
@[simp] theorem State.latch_fdone (s : State) (c : Cause) (info : Resp) : (s.latch c info).fdone = s.fdone := rfl
@[simp] theorem State.latch_tlen (s : State) (c : Cause) (info : Resp) : (s.latch c info).tlen = s.tlen := rfl
@[simp] theorem State.latch_pad (s : State) (c : Cause) (info : Resp) : (s.latch c info).pad = s.pad := rfl
@[simp] theorem State.latch_htlen (s : State) (c : Cause) (info : Resp) : (s.latch c info).htlen = s.htlen := rfl
@[simp] theorem State.latch_hv (s : State) (c : Cause) (info : Resp) : (s.latch c info).hv = s.hv := rfl
@[simp] theorem State.latch_tcnt (s : State) (c : Cause) (info : Resp) : (s.latch c info).tcnt = s.tcnt := rfl
@[simp] theorem State.latch_nalloc (s : State) (c : Cause) (info : Resp) : (s.latch c info).nalloc = s.nalloc := rfl
@[simp] theorem State.latch_root (s : State) (c : Cause) (info : Resp) : (s.latch c info).root = s.root := rfl
@[simp] theorem State.latch_rootv (s : State) (c : Cause) (info : Resp) : (s.latch c info).rootv = s.rootv := rfl
@[simp] theorem State.latch_hold (s : State) (c : Cause) (info : Resp) : (s.latch c info).hold = s.hold := rfl
@[simp] theorem State.latch_holdv (s : State) (c : Cause) (info : Resp) : (s.latch c info).holdv = false := rfl
@[simp] theorem State.latch_walk (s : State) (c : Cause) (info : Resp) : (s.latch c info).walk = s.walk := rfl
@[simp] theorem State.latch_stk (s : State) (c : Cause) (info : Resp) : (s.latch c info).stk = [] := rfl
@[simp] theorem State.latch_treeOpen (s : State) (c : Cause) (info : Resp) : (s.latch c info).treeOpen = false := rfl
@[simp] theorem State.latch_ipos (s : State) (c : Cause) (info : Resp) : (s.latch c info).ipos = s.ipos := rfl
@[simp] theorem State.latch_nm (s : State) (c : Cause) (info : Resp) : (s.latch c info).nm = s.nm := rfl
@[simp] theorem State.latch_cout (s : State) (c : Cause) (info : Resp) : (s.latch c info).cout = s.cout := rfl
@[simp] theorem State.latch_sout (s : State) (c : Cause) (info : Resp) : (s.latch c info).sout = s.sout := rfl
@[simp] theorem State.latch_fault (s : State) (c : Cause) (info : Resp) : (s.latch c info).fault = true := rfl
@[simp] theorem State.latch_fcause (s : State) (c : Cause) (info : Resp) : (s.latch c info).fcause = causeCode c := rfl
@[simp] theorem State.latch_finfo (s : State) (c : Cause) (info : Resp) : (s.latch c info).finfo = info := rfl
@[simp] theorem State.latch_resp (s : State) (c : Cause) (info : Resp) : (s.latch c info).resp = 0 := rfl

@[simp] theorem State.dropTree_cfg (s : State) : (s.dropTree).cfg = s.cfg := rfl
@[simp] theorem State.dropTree_cmds (s : State) : (s.dropTree).cmds = s.cmds := rfl
@[simp] theorem State.dropTree_acc (s : State) : (s.dropTree).acc = s.acc := rfl
@[simp] theorem State.dropTree_nbuf (s : State) : (s.dropTree).nbuf = s.nbuf := rfl
@[simp] theorem State.dropTree_total (s : State) : (s.dropTree).total = s.total := rfl
@[simp] theorem State.dropTree_fdone (s : State) : (s.dropTree).fdone = s.fdone := rfl
@[simp] theorem State.dropTree_tlen (s : State) : (s.dropTree).tlen = s.tlen := rfl
@[simp] theorem State.dropTree_pad (s : State) : (s.dropTree).pad = s.pad := rfl
@[simp] theorem State.dropTree_htlen (s : State) : (s.dropTree).htlen = s.htlen := rfl
@[simp] theorem State.dropTree_hv (s : State) : (s.dropTree).hv = s.hv := rfl
@[simp] theorem State.dropTree_tcnt (s : State) : (s.dropTree).tcnt = s.tcnt := rfl
@[simp] theorem State.dropTree_nalloc (s : State) : (s.dropTree).nalloc = s.nalloc := rfl
@[simp] theorem State.dropTree_root (s : State) : (s.dropTree).root = s.root := rfl
@[simp] theorem State.dropTree_rootv (s : State) : (s.dropTree).rootv = false := rfl
@[simp] theorem State.dropTree_hold (s : State) : (s.dropTree).hold = s.hold := rfl
@[simp] theorem State.dropTree_holdv (s : State) : (s.dropTree).holdv = s.holdv := rfl
@[simp] theorem State.dropTree_walk (s : State) : (s.dropTree).walk = s.walk := rfl
@[simp] theorem State.dropTree_stk (s : State) : (s.dropTree).stk = s.stk := rfl
@[simp] theorem State.dropTree_treeOpen (s : State) : (s.dropTree).treeOpen = s.treeOpen := rfl
@[simp] theorem State.dropTree_ipos (s : State) : (s.dropTree).ipos = s.ipos := rfl
@[simp] theorem State.dropTree_nm (s : State) : (s.dropTree).nm = [] := rfl
@[simp] theorem State.dropTree_cout (s : State) : (s.dropTree).cout = s.cout := rfl
@[simp] theorem State.dropTree_sout (s : State) : (s.dropTree).sout = s.sout := rfl
@[simp] theorem State.dropTree_fault (s : State) : (s.dropTree).fault = s.fault := rfl
@[simp] theorem State.dropTree_fcause (s : State) : (s.dropTree).fcause = s.fcause := rfl
@[simp] theorem State.dropTree_finfo (s : State) : (s.dropTree).finfo = s.finfo := rfl
@[simp] theorem State.dropTree_resp (s : State) : (s.dropTree).resp = s.resp := rfl

@[simp] theorem State.refuse_cfg (s : State) : (s.refuse).cfg = s.cfg := rfl
@[simp] theorem State.refuse_cmds (s : State) : (s.refuse).cmds = s.cmds := rfl
@[simp] theorem State.refuse_acc (s : State) : (s.refuse).acc = s.acc := rfl
@[simp] theorem State.refuse_nbuf (s : State) : (s.refuse).nbuf = s.nbuf := rfl
@[simp] theorem State.refuse_total (s : State) : (s.refuse).total = s.total := rfl
@[simp] theorem State.refuse_fdone (s : State) : (s.refuse).fdone = s.fdone := rfl
@[simp] theorem State.refuse_tlen (s : State) : (s.refuse).tlen = s.tlen := rfl
@[simp] theorem State.refuse_pad (s : State) : (s.refuse).pad = s.pad := rfl
@[simp] theorem State.refuse_htlen (s : State) : (s.refuse).htlen = s.htlen := rfl
@[simp] theorem State.refuse_hv (s : State) : (s.refuse).hv = s.hv := rfl
@[simp] theorem State.refuse_tcnt (s : State) : (s.refuse).tcnt = s.tcnt := rfl
@[simp] theorem State.refuse_nalloc (s : State) : (s.refuse).nalloc = s.nalloc := rfl
@[simp] theorem State.refuse_root (s : State) : (s.refuse).root = s.root := rfl
@[simp] theorem State.refuse_rootv (s : State) : (s.refuse).rootv = s.rootv := rfl
@[simp] theorem State.refuse_hold (s : State) : (s.refuse).hold = s.hold := rfl
@[simp] theorem State.refuse_holdv (s : State) : (s.refuse).holdv = s.holdv := rfl
@[simp] theorem State.refuse_walk (s : State) : (s.refuse).walk = s.walk := rfl
@[simp] theorem State.refuse_stk (s : State) : (s.refuse).stk = s.stk := rfl
@[simp] theorem State.refuse_treeOpen (s : State) : (s.refuse).treeOpen = s.treeOpen := rfl
@[simp] theorem State.refuse_ipos (s : State) : (s.refuse).ipos = s.ipos := rfl
@[simp] theorem State.refuse_nm (s : State) : (s.refuse).nm = s.nm := rfl
@[simp] theorem State.refuse_cout (s : State) : (s.refuse).cout = s.cout := rfl
@[simp] theorem State.refuse_sout (s : State) : (s.refuse).sout = s.sout := rfl
@[simp] theorem State.refuse_fault (s : State) : (s.refuse).fault = s.fault := rfl
@[simp] theorem State.refuse_fcause (s : State) : (s.refuse).fcause = s.fcause := rfl
@[simp] theorem State.refuse_finfo (s : State) : (s.refuse).finfo = s.finfo := rfl
@[simp] theorem State.refuse_resp (s : State) : (s.refuse).resp = 0 := rfl

@[simp] theorem State.rst_cfg (s : State) : s.rst.cfg = s.cfg := rfl
@[simp] theorem State.rst_cmds (s : State) : s.rst.cmds = s.cmds := rfl
@[simp] theorem State.rst_acc (s : State) : s.rst.acc = 0 := rfl
@[simp] theorem State.rst_nbuf (s : State) : s.rst.nbuf = 0 := rfl
@[simp] theorem State.rst_total (s : State) : s.rst.total = 0 := rfl
@[simp] theorem State.rst_fdone (s : State) : s.rst.fdone = false := rfl
@[simp] theorem State.rst_tlen (s : State) : s.rst.tlen = 0 := rfl
@[simp] theorem State.rst_pad (s : State) : s.rst.pad = 0 := rfl
@[simp] theorem State.rst_htlen (s : State) : s.rst.htlen = 0 := rfl
@[simp] theorem State.rst_hv (s : State) : s.rst.hv = false := rfl
@[simp] theorem State.rst_tcnt (s : State) : s.rst.tcnt = 0 := rfl
@[simp] theorem State.rst_nalloc (s : State) : s.rst.nalloc = 0 := rfl
@[simp] theorem State.rst_root (s : State) : s.rst.root = 0 := rfl
@[simp] theorem State.rst_rootv (s : State) : s.rst.rootv = false := rfl
@[simp] theorem State.rst_hold (s : State) : s.rst.hold = 0 := rfl
@[simp] theorem State.rst_holdv (s : State) : s.rst.holdv = false := rfl
@[simp] theorem State.rst_walk (s : State) : s.rst.walk = 0 := rfl
@[simp] theorem State.rst_stk (s : State) : s.rst.stk = [] := rfl
@[simp] theorem State.rst_treeOpen (s : State) : s.rst.treeOpen = false := rfl
@[simp] theorem State.rst_ipos (s : State) : s.rst.ipos = 0 := rfl
@[simp] theorem State.rst_nm (s : State) : s.rst.nm = [] := rfl
@[simp] theorem State.rst_cout (s : State) : s.rst.cout = s.cout := rfl
@[simp] theorem State.rst_sout (s : State) : s.rst.sout = s.sout := rfl
@[simp] theorem State.rst_fault (s : State) : s.rst.fault = false := rfl
@[simp] theorem State.rst_fcause (s : State) : s.rst.fcause = 0 := rfl
@[simp] theorem State.rst_finfo (s : State) : s.rst.finfo = 0 := rfl
@[simp] theorem State.rst_resp (s : State) : s.rst.resp = 0 := rfl

end Sys2Proof.Machine
end

