-- ==== Sys2Proof/Laws/Memory.lean ====
section
/-! SUPPORT. Node memory: a read after a write, and the canonical form, which every operation keeps. -/

namespace Sys2Proof.Machine

@[simp] theorem nmRead_nmWrite_self (m : List (Nat × Node)) (i : Nat) (v : Node) : nmRead (nmWrite m i v) i = some v := by
  induction m with
  | nil => simp [nmWrite, nmRead]
  | cons e rest ih =>
    simp only [nmWrite]
    split
    · simp [nmRead]
    · split
      · simp [nmRead]
      · next h => simp [nmRead, ih, Ne.symm h]

theorem nmRead_nmWrite_other {m : List (Nat × Node)} {i j : Nat} (v : Node) (h : j ≠ i) :
    nmRead (nmWrite m i v) j = nmRead m j := by
  induction m with
  | nil => simp [nmWrite, nmRead, h.symm]
  | cons e rest ih =>
    simp only [nmWrite]
    split
    · simp [nmRead, h.symm]
    · split
      · next h' => subst h'; simp [nmRead, h.symm]
      · simp [nmRead, ih]

theorem nmWrite_mem {m : List (Nat × Node)} {i : Nat} {v : Node} {e : Nat × Node} (h : e ∈ nmWrite m i v) :
    e = (i, v) ∨ e ∈ m := by
  induction m with
  | nil => simpa [nmWrite] using h
  | cons a rest ih =>
    simp only [nmWrite] at h
    split at h
    · simpa using h
    · split at h
      · simp only [List.mem_cons] at h ⊢
        tauto
      · simp only [List.mem_cons] at h ⊢
        rcases h with h | h
        · exact .inr (.inl h)
        · rcases ih h with h | h
          · exact .inl h
          · exact .inr (.inr h)

/-- A write at an existing index keeps the canonical form. -/
theorem nmWrite_wf {m : List (Nat × Node)} {i : Nat} (v : Node) (hm : Memory.wf m) (hi : i < Config.default.nodeCap.val) :
    Memory.wf (nmWrite m i v) := by
  refine ⟨?_, fun e he => ?_⟩
  · have := hm.1
    clear hm
    induction m with
    | nil => simp [nmWrite]
    | cons a rest ih =>
      have hp := List.pairwise_cons.mp this
      simp only [nmWrite]
      split
      · next hlt =>
        refine List.pairwise_cons.mpr ⟨fun b hb => ?_, this⟩
        rcases List.mem_cons.mp hb with rfl | hb
        · exact hlt
        · exact lt_trans hlt (hp.1 b hb)
      · split
        · next heq => exact List.pairwise_cons.mpr ⟨fun b hb => by simpa [heq] using hp.1 b hb, hp.2⟩
        · next hlt hne =>
          refine List.pairwise_cons.mpr ⟨fun b hb => ?_, ih hp.2⟩
          rcases nmWrite_mem hb with rfl | hb
          · show a.1 < i; omega
          · exact hp.1 b hb
  · rcases nmWrite_mem he with rfl | he
    · exact hi
    · exact hm.2 e he

theorem memory_wf_nil : Memory.wf [] := ⟨List.Pairwise.nil, by simp⟩

theorem nodeIdx_lt_cap (i : NodeIdx) : i.toNat < Config.default.nodeCap.val := i.isLt

theorem State.reset_memory_wf : Memory.wf State.reset.nm := memory_wf_nil

theorem State.nmSet_wf {s : State} (i : NodeIdx) (v : Node) (h : Memory.wf s.nm) : Memory.wf (s.nmSet i v).nm :=
  nmWrite_wf v h (nodeIdx_lt_cap i)

theorem State.nmSetLeft_wf {s : State} (i n : NodeIdx) (h : Memory.wf s.nm) : Memory.wf (s.nmSetLeft i n).nm := by
  unfold State.nmSetLeft
  split
  · exact State.nmSet_wf i _ h
  · exact h

theorem State.nmSetRight_wf {s : State} (i n : NodeIdx) (h : Memory.wf s.nm) : Memory.wf (s.nmSetRight i n).nm := by
  unfold State.nmSetRight
  split
  · exact State.nmSet_wf i _ h
  · exact h

@[simp] theorem State.nmGet_nmSet_self (s : State) (i : NodeIdx) (v : Node) : (s.nmSet i v).nmGet i = some v :=
  nmRead_nmWrite_self s.nm i.toNat v

theorem State.nmGet_nmSet_other {s : State} {i j : NodeIdx} (v : Node) (h : j ≠ i) : (s.nmSet i v).nmGet j = s.nmGet j :=
  nmRead_nmWrite_other v fun h' => h (BitVec.eq_of_toNat_eq h')

/-- What `NM[i].LEFT <- n` does: only node memory changes, and there only an internal entry `i`. -/
theorem State.nmSetLeft_eq (s : State) (i n : NodeIdx) : s.nmSetLeft i n = { s with nm := (s.nmSetLeft i n).nm } := by
  unfold State.nmSetLeft
  split <;> rfl

theorem State.nmSetRight_eq (s : State) (i n : NodeIdx) : s.nmSetRight i n = { s with nm := (s.nmSetRight i n).nm } := by
  unfold State.nmSetRight
  split <;> rfl

theorem State.nmSetLeft_internal {s : State} {i n l r : NodeIdx} (h : s.nmGet i = some (.internal l r)) :
    s.nmSetLeft i n = s.nmSet i (.internal n r) := by
  simp [State.nmSetLeft, h]

theorem State.nmSetRight_internal {s : State} {i n l r : NodeIdx} (h : s.nmGet i = some (.internal l r)) :
    s.nmSetRight i n = s.nmSet i (.internal l n) := by
  simp [State.nmSetRight, h]

end Sys2Proof.Machine
end

