-- ==== Sys2Proof/Laws/Ops.lean ====
section
/-! SUPPORT. The shared operations: one lemma each that says what it can do. -/

namespace Sys2Proof.Machine

/-! ### Bodies and outcomes -/

@[simp] theorem Body.bind_ok (s : State) (k : State → Body) : (Body.ok s).bind k = k s := rfl

@[simp] theorem Body.bind_raised (c : Cause) (info : Resp) (s : State) (k : State → Body) :
    (Body.raised c info s).bind k = .raised c info s := rfl

@[simp] theorem Body.bind_unbounded (k : State → Body) : Body.unbounded.bind k = .unbounded := rfl

theorem Body.bind_assoc (b : Body) (k l : State → Body) : (b.bind k).bind l = b.bind fun s => (k s).bind l := by
  cases b <;> rfl

/-- A property of how a body ends: of the state it has come to, and of the state in which it raised. -/
def Body.All (P : State → Prop) (Q : Cause → Resp → State → Prop) : Body → Prop
  | .ok s => P s
  | .raised c info s => Q c info s
  | .unbounded => False

@[simp] theorem Body.all_ok {P : State → Prop} {Q : Cause → Resp → State → Prop} {s : State} :
    (Body.ok s).All P Q ↔ P s := Iff.rfl

@[simp] theorem Body.all_raised {P : State → Prop} {Q : Cause → Resp → State → Prop} {c : Cause} {info : Resp} {s : State} :
    (Body.raised c info s).All P Q ↔ Q c info s := Iff.rfl

@[simp] theorem Body.all_unbounded {P : State → Prop} {Q : Cause → Resp → State → Prop} :
    Body.unbounded.All P Q ↔ False := Iff.rfl

theorem Body.All.mono {P P' : State → Prop} {Q Q' : Cause → Resp → State → Prop} {b : Body} (h : b.All P Q)
    (hP : ∀ s, P s → P' s) (hQ : ∀ c info s, Q c info s → Q' c info s) : b.All P' Q' := by
  cases b with
  | ok s => exact hP s h
  | raised c info s => exact hQ c info s h
  | unbounded => exact h

/-- The rule of a sequence of two bodies. -/
theorem Body.All.bind {P P' : State → Prop} {Q : Cause → Resp → State → Prop} {b : Body} {k : State → Body}
    (h : b.All P Q) (hk : ∀ s, P s → (k s).All P' Q) : (b.bind k).All P' Q := by
  cases b with
  | ok s => exact hk s h
  | raised c info s => exact h
  | unbounded => exact h

/-- A body of which something holds ends in a next state: its own, or the latched one. -/
theorem settle_all {P : State → Prop} {Q : Cause → Resp → State → Prop} {b : Body} (h : b.All P Q) :
    ∃ t, settle b = .next t ∧ (P t ∨ ∃ c info s, Q c info s ∧ t = s.latch c info) := by
  cases b with
  | ok s => exact ⟨s, rfl, .inl h⟩
  | raised c info s => exact ⟨_, rfl, .inr ⟨c, info, s, h, rfl⟩⟩
  | unbounded => exact absurd h id

theorem settleTdes_all {P : State → Prop} {Q : Cause → Resp → State → Prop} {b : Body} (h : b.All P Q) :
    ∃ t, settleTdes b = .next t ∧
      (P t ∨ ∃ c info s, Q c info s ∧ t = (if c = .noHdr then s else s.dropTree).latch c info) := by
  cases b with
  | ok s => exact ⟨s, rfl, .inl h⟩
  | raised c info s => exact ⟨_, rfl, .inr ⟨c, info, s, h, rfl⟩⟩
  | unbounded => exact absurd h id

@[simp] theorem settle_ok (s : State) : settle (.ok s) = .next s := rfl

@[simp] theorem settle_raised (c : Cause) (info : Resp) (s : State) :
    settle (.raised c info s) = .next (s.latch c info) := rfl

@[simp] theorem settleTdes_ok (s : State) : settleTdes (.ok s) = .next s := rfl

@[simp] theorem settleTdes_raised (c : Cause) (info : Resp) (s : State) :
    settleTdes (.raised c info s) = .next ((if c = .noHdr then s else s.dropTree).latch c info) := rfl

/-- The test for refusal (R156). -/
theorem unlessFault_of_fault {s : State} (h : s.fault = true) (run : Host.Outcome State Fault Refusal) :
    unlessFault s run = .next { s with resp := 0 } := by
  simp [unlessFault, h, State.refuse, State.setResp]

@[simp] theorem unlessFault_of_no_fault {s : State} (h : s.fault = false) (run : Host.Outcome State Fault Refusal) :
    unlessFault s run = run := by
  simp [unlessFault, h]

theorem unlessFault_next {s t : State} {run : Host.Outcome State Fault Refusal} (h : unlessFault s run = .next t) :
    (s.fault = true ∧ t = { s with resp := 0 }) ∨ (s.fault = false ∧ run = .next t) := by
  by_cases hf : s.fault = true
  · rw [unlessFault_of_fault hf] at h
    cases h
    exact .inl ⟨hf, rfl⟩
  · have hf : s.fault = false := by simpa using hf
    exact .inr ⟨hf, by simpa [hf] using h⟩

/-- The codes of R159 are 1 to 13. -/
theorem causeCode_range (c : Cause) : 1 ≤ (causeCode c).toNat ∧ (causeCode c).toNat ≤ 13 := by
  cases c <;> decide

/-! ### The input stream -/

/-- What `InGet()` can answer (R50): the end of the input, or the byte at `IPOS`, which it then passes. -/
theorem State.inGet_cases (s : State) :
    (s.inGet = none ∧ s.cfg.input.length ≤ s.ipos.toNat) ∨
    (∃ b, s.inGet = some (b, { s with ipos := s.ipos + 1 }) ∧ s.ipos.toNat < s.cfg.input.length ∧
      s.cfg.input[s.ipos.toNat]? = some b) := by
  unfold State.inGet
  cases h : s.cfg.input[s.ipos.toNat]? with
  | none => exact .inl ⟨rfl, by simpa using h⟩
  | some b => exact .inr ⟨b, rfl, (List.getElem?_eq_some_iff.mp h).1, rfl⟩

/-- Reading the bytes that remain, first one first (R45). -/
theorem State.inGet_of_rest {s : State} {b : Byte} {bs : List Byte} (h : s.cfg.input.drop s.ipos.toNat = b :: bs) :
    s.inGet = some (b, { s with ipos := s.ipos + 1 }) := by
  have : s.cfg.input[s.ipos.toNat]? = some b := by
    rw [← List.head?_drop, h]
    rfl
  simp [State.inGet, this]

theorem State.inGet_of_rest_nil {s : State} (h : s.cfg.input.drop s.ipos.toNat = []) : s.inGet = none := by
  have : s.cfg.input[s.ipos.toNat]? = none := by
    rw [← List.head?_drop, h]
    rfl
  simp [State.inGet, this]

/-- Where the position stands inside the input, it moves on by one without wrapping (R31). -/
theorem State.ipos_succ {s : State} (hb : s.cfg.input.length < 2 ^ 64) (h : s.ipos.toNat < s.cfg.input.length) :
    (s.ipos + 1).toNat = s.ipos.toNat + 1 := by
  rw [BitVec.toNat_add, show (1 : BitVec 64).toNat = 1 from rfl]
  omega

end Sys2Proof.Machine
end

