-- ==== Sys2Proof/Laws/Flags.lean ====
section
/-! SUPPORT. The computed registers and the header value as numbers and bits. -/

namespace Sys2Proof.Machine

theorem flagBit_getLsbD (b : Bool) (k : Nat) : (flagBit b).getLsbD k = (decide (k = 0) && b) := by
  cases b <;> simp [flagBit, BitVec.getLsbD_one]

/-- The bits of `STATUS` (R35). -/
theorem status_getLsbD (s : State) (k : Nat) :
    s.status.getLsbD k =
      (decide (k = 0) && s.fault || decide (k = 1) && s.fdone || decide (k = 2) && s.hv || decide (k = 3) && s.rootv) := by
  simp only [State.status, BitVec.getLsbD_or, BitVec.getLsbD_shiftLeft, flagBit_getLsbD]
  rcases k with _ | _ | _ | _ | k <;> simp

/-- After either reset `STATUS` reads 0 (R167). -/
theorem fresh_status (c : Config) (ws : List Word) (x y : List Byte) :
    (State.fresh c ws x y).status = 0 := by
  apply BitVec.eq_of_getLsbD_eq
  intro k _
  rw [status_getLsbD]
  simp [State.fresh]

/-- `PADOUT` as a number (R36). -/
theorem padout_toNat (s : State) : s.padout.toNat = (8 - s.total.toNat % 8) % 8 := by
  simp only [State.padout, BitVec.toNat_ofNat]
  omega

/-- Two fields side by side as a number. -/
theorem or_shiftLeft_toNat {w n : Nat} (a b : BitVec w) (ha : a.toNat * 2 ^ n < 2 ^ w) (hb : b.toNat < 2 ^ n) :
    ((a <<< n) ||| b).toNat = a.toNat * 2 ^ n + b.toNat := by
  rw [BitVec.toNat_or, BitVec.toNat_shiftLeft, Nat.shiftLeft_eq, Nat.mod_eq_of_lt ha, ← Nat.shiftLeft_eq,
    ← Nat.shiftLeft_add_eq_or_of_lt hb]

/-- `(pad << 13) | tlen` as a number (R65). -/
theorem hdrPack_toNat (p : BitVec 3) (n : BitVec 13) : (hdrPack p n).toNat = p.toNat * 2 ^ 13 + n.toNat := by
  have hp := p.isLt
  have hn := n.isLt
  have ep : (p.setWidth 16).toNat = p.toNat := by
    rw [BitVec.toNat_setWidth]
    omega
  have en : (n.setWidth 16).toNat = n.toNat := by
    rw [BitVec.toNat_setWidth]
    omega
  rw [hdrPack, or_shiftLeft_toNat _ _ (by omega) (by omega), ep, en]

theorem hdrPad_toNat (h : BitVec 16) : (hdrPad h).toNat = h.toNat / 2 ^ 13 := by
  have := h.isLt
  simp only [hdrPad, BitVec.extractLsb'_toNat, Nat.shiftRight_eq_div_pow]
  omega

theorem hdrTlen_toNat (h : BitVec 16) : (hdrTlen h).toNat = h.toNat % 2 ^ 13 := by
  simp [hdrTlen, BitVec.extractLsb'_toNat]

/-- Unpacking inverts packing (R65). -/
theorem hdrPad_hdrPack (p : BitVec 3) (n : BitVec 13) : hdrPad (hdrPack p n) = p := by
  apply BitVec.eq_of_toNat_eq
  have := n.isLt
  rw [hdrPad_toNat, hdrPack_toNat]
  omega

theorem hdrTlen_hdrPack (p : BitVec 3) (n : BitVec 13) : hdrTlen (hdrPack p n) = n := by
  apply BitVec.eq_of_toNat_eq
  have := n.isLt
  rw [hdrTlen_toNat, hdrPack_toNat]
  omega

/-- Two bytes as a header value, in either byte order (R48, R65). -/
theorem hdrOfBytes_toNat (c : Config) (b0 b1 : Byte) :
    (hdrOfBytes c b0 b1).toNat =
      if c.hdrBigEndian then b0.toNat * 256 + b1.toNat else b1.toNat * 256 + b0.toNat := by
  have h0 := b0.isLt
  have h1 := b1.isLt
  have e : ∀ b : Byte, (b.setWidth 16).toNat = b.toNat := fun b => by
    rw [BitVec.toNat_setWidth]
    omega
  unfold hdrOfBytes
  split
  · rw [or_shiftLeft_toNat _ _ (by rw [e]; omega) (by rw [e]; omega), e, e]
    norm_num
  · rw [or_shiftLeft_toNat _ _ (by rw [e]; omega) (by rw [e]; omega), e, e]
    norm_num

/-- The two bytes of a header value (R48). -/
theorem hdrBytes_toNat (c : Config) (h : BitVec 16) :
    (if c.hdrBigEndian then (hdrBytes c h).1.toNat * 256 + (hdrBytes c h).2.toNat
      else (hdrBytes c h).2.toNat * 256 + (hdrBytes c h).1.toNat) = h.toNat := by
  have := h.isLt
  unfold hdrBytes
  split <;> simp only [BitVec.extractLsb'_toNat, Nat.shiftRight_eq_div_pow] <;> omega

/-- Assembling inverts splitting (R49). -/
theorem hdrOfBytes_hdrBytes (c : Config) (h : BitVec 16) : hdrOfBytes c (hdrBytes c h).1 (hdrBytes c h).2 = h := by
  apply BitVec.eq_of_toNat_eq
  rw [hdrOfBytes_toNat, hdrBytes_toNat]

end Sys2Proof.Machine
end

