-- ==== Sys2Proof/Laws/TreeDes.lean ====
section
/-! SUPPORT. The tree deserializer's operations: what `get`, a token's placing, a pass and the loop can do, on any input. -/

namespace Sys2Proof.Machine

/-- What `get()` can do (R118): `TREE_TRUNC` at the end of the input, or go on past the byte with it counted. -/
theorem getByte_cases (s : State) (k : Byte → State → Body) :
    (getByte s k = .raised .treeTrunc s.ipos s ∧ s.cfg.input.length ≤ s.ipos.toNat) ∨
    (∃ b, getByte s k = k b { s with ipos := s.ipos + 1, tcnt := s.tcnt + 1 } ∧ s.ipos.toNat < s.cfg.input.length ∧
      s.cfg.input[s.ipos.toNat]? = some b) := by
  rcases s.inGet_cases with ⟨h, hl⟩ | ⟨b, h, hl, hb⟩
  · exact .inl ⟨by simp [getByte, h], hl⟩
  · exact .inr ⟨b, by simp [getByte, h], hl, hb⟩

theorem getByte_of_rest {s : State} {b : Byte} {bs : List Byte} (k : Byte → State → Body)
    (h : s.cfg.input.drop s.ipos.toNat = b :: bs) :
    getByte s k = k b { s with ipos := s.ipos + 1, tcnt := s.tcnt + 1 } := by
  simp [getByte, State.inGet_of_rest h]

theorem getByte_of_end {s : State} (k : Byte → State → Body) (h : s.cfg.input.drop s.ipos.toNat = []) :
    getByte s k = .raised .treeTrunc s.ipos s := by
  simp [getByte, State.inGet_of_rest_nil h]

/-- What hanging a node does (R118): it writes one child field and may close the innermost open node. -/
theorem hang_frame (n : NodeIdx) (s : State) :
    hang n s = { s with nm := (hang n s).nm, stk := (hang n s).stk } ∧ (Memory.wf s.nm → Memory.wf (hang n s).nm) := by
  unfold hang
  split
  · exact ⟨rfl, id⟩
  · next e below _ =>
    split
    · refine ⟨?_, fun h => State.nmSetLeft_wf _ _ h⟩
      rw [State.nmSetLeft_eq]
    · refine ⟨?_, fun h => State.nmSetRight_wf _ _ h⟩
      rw [State.nmSetRight_eq]

/-- `ROOT`, `ROOTV` and the response after a pass (R118): as before while nodes are open, the finished tree otherwise. -/
def PassState (s t : State) : Prop :=
  (t.treeOpen = true ∧ t.stk ≠ [] ∧ t.root = s.root ∧ t.rootv = s.rootv ∧ t.resp = s.resp) ∨
  (t.treeOpen = false ∧ t.stk = [] ∧ t.root = 0 ∧ t.rootv = true ∧ t.resp = 0)

/-- The causes a pass can raise (R118). -/
def DesCause (c : Cause) : Prop := c = .treeTrunc ∨ c = .tlenMismatch ∨ c = .nodeOvf ∨ c = .stkOvf

/-- What opening a node can do (R118): at most its stack entry is new, or `STK_OVF`. -/
theorem openNode_all (nd : Node) (n : NodeIdx) (s : State) :
    (openNode nd n s).All (fun t => t = { s with stk := t.stk }) (fun c _ t => DesCause c ∧ t = s) := by
  unfold openNode
  split
  · rfl
  · split
    · exact ⟨.inr (.inr (.inr rfl)), rfl⟩
    · rfl

/-- What the end of a pass can do (R118). -/
theorem closePass_all (s : State) :
    (closePass s).All
      (fun t => PassState s t ∧
        t = { s with rootv := t.rootv, root := t.root, treeOpen := t.treeOpen, resp := t.resp })
      (fun c _ t => DesCause c ∧ t = s) := by
  unfold closePass
  split
  · next h => exact ⟨.inl ⟨rfl, h, rfl, rfl, rfl⟩, rfl⟩
  · next h =>
    have h : s.stk = [] := by simpa using h
    split
    · exact ⟨.inr (.inl rfl), rfl⟩
    · exact ⟨.inr ⟨rfl, h, rfl, rfl, rfl⟩, rfl⟩

/-- What placing a token's node can do (R118 from "if NALLOC = 512"). -/
theorem place_all (nd : Node) (s : State) :
    (place nd s).All
      (fun t => s.nalloc.toNat ≠ 512 ∧ PassState s t ∧ (Memory.wf s.nm → Memory.wf t.nm) ∧
        t = { s with nm := t.nm, nalloc := s.nalloc + 1, rootv := t.rootv, root := t.root, stk := t.stk,
                     treeOpen := t.treeOpen, resp := t.resp })
      (fun c _ t => DesCause c ∧ (t.nalloc = s.nalloc ∨ (s.nalloc.toNat ≠ 512 ∧ t.nalloc = s.nalloc + 1)) ∧
        t = { s with nm := t.nm, nalloc := t.nalloc, stk := t.stk }) := by
  unfold place
  split
  · exact ⟨.inr (.inr (.inl rfl)), .inl rfl, by simp⟩
  · next hn =>
    have hn : s.nalloc.toNat ≠ 512 := hn
    obtain ⟨hh, hwf⟩ :=
      hang_frame s.nextNode (State.nmSet { s with nalloc := s.nalloc + 1 } s.nextNode nd)
    have hwf' : Memory.wf s.nm → Memory.wf (hang s.nextNode
        (State.nmSet { s with nalloc := s.nalloc + 1 } s.nextNode nd)).nm := fun hw => hwf (State.nmSet_wf _ _ hw)
    clear hwf
    revert hh hwf'
    generalize hang s.nextNode (State.nmSet { s with nalloc := s.nalloc + 1 } s.nextNode nd) = h
    intro hh hwf
    have hh : h = { s with nm := h.nm, nalloc := s.nalloc + 1, stk := h.stk } := by simpa using hh
    refine Body.All.bind
      (P := fun t => t = { s with nm := h.nm, nalloc := s.nalloc + 1, stk := t.stk })
      ((openNode_all nd s.nextNode h).mono (fun t ht => ?_) ?_) ?_
    · rw [hh] at ht
      simpa using ht
    · rintro c _ t ⟨hc, rfl⟩
      exact ⟨hc, .inr ⟨hn, by rw [hh]⟩, by rw [hh]⟩
    · intro t ht
      refine (closePass_all t).mono ?_ ?_
      · rintro u ⟨hp, hu⟩
        rw [ht] at hu hp
        refine ⟨hn, by simpa [PassState] using hp, fun hw => ?_, by rw [hu]⟩
        rw [hu]
        exact hwf hw
      · rintro c _ u ⟨hc, rfl⟩
        exact ⟨hc, .inr ⟨hn, by rw [ht]⟩, by rw [ht]⟩

/-- A pass, or a token, that has read `k` bytes and placed its node. -/
def PassEnds (k : Nat) (s t : State) : Prop :=
  s.ipos.toNat + k ≤ s.cfg.input.length ∧ s.nalloc.toNat ≠ 512 ∧ PassState s t ∧ (Memory.wf s.nm → Memory.wf t.nm) ∧
    t = { s with nm := t.nm, nalloc := s.nalloc + 1, rootv := t.rootv, root := t.root, stk := t.stk, treeOpen := t.treeOpen,
                 resp := t.resp, tcnt := s.tcnt + BitVec.ofNat 13 k, ipos := s.ipos + BitVec.ofNat 64 k }

/-- A pass, or a token, that has raised after reading `k` bytes. -/
def PassRaises (k : Nat) (s : State) (c : Cause) (t : State) : Prop :=
  DesCause c ∧ (s.ipos.toNat ≤ s.cfg.input.length → s.ipos.toNat + k ≤ s.cfg.input.length) ∧
    (t.nalloc = s.nalloc ∨ (s.nalloc.toNat ≠ 512 ∧ t.nalloc = s.nalloc + 1)) ∧
    t = { s with nm := t.nm, nalloc := t.nalloc, stk := t.stk, tcnt := s.tcnt + BitVec.ofNat 13 k,
                 ipos := s.ipos + BitVec.ofNat 64 k }

theorem pass_raises_at_end (s : State) : PassRaises 0 s .treeTrunc s := ⟨.inl rfl, id, .inl rfl, by simp⟩

/-- Placing a node after `k` bytes have been read from `s`. -/
theorem place_after {s u : State} (k : Nat) (nd : Node) (hk : s.ipos.toNat + k ≤ s.cfg.input.length)
    (hu : u = { s with ipos := s.ipos + BitVec.ofNat 64 k, tcnt := s.tcnt + BitVec.ofNat 13 k }) :
    (place nd u).All (PassEnds k s) (fun c _ t => PassRaises k s c t) := by
  subst hu
  refine (place_all nd _).mono ?_ ?_
  · rintro t ⟨hn, hp, hw, ht⟩
    exact ⟨hk, hn, hp, hw, ht⟩
  · rintro c _ t ⟨hc, hn, ht⟩
    exact ⟨hc, fun _ => hk, hn, ht⟩

/-- A node of one byte: `MARK`, `LIT`. -/
theorem getPlace_all (s : State) (nd : Node) :
    (getByte s fun _ u => place nd u).All (PassEnds 1 s) (fun c _ t => ∃ k, k ≤ 1 ∧ PassRaises k s c t) := by
  rcases getByte_cases s fun _ u => place nd u with ⟨h, -⟩ | ⟨b, h, hl, -⟩
  · rw [h]
    exact ⟨0, by omega, pass_raises_at_end s⟩
  · rw [h]
    exact (place_after (s := s) 1 nd hl rfl).mono (fun _ ht => ht) (fun c _ t ht => ⟨1, le_refl 1, ht⟩)

/-- The second byte of `ESC`, after the first has been read from `s`. -/
theorem getSecond_all {s : State} (hs : s.cfg.input.length < 2 ^ 64) (hl : s.ipos.toNat < s.cfg.input.length) (f : Byte → Node) :
    (getByte { s with ipos := s.ipos + 1, tcnt := s.tcnt + 1 } fun x u => place (f x) u).All (PassEnds 2 s)
      (fun c _ t => ∃ k, k ≤ 2 ∧ PassRaises k s c t) := by
  have h1 := State.ipos_succ hs hl
  rcases getByte_cases { s with ipos := s.ipos + 1, tcnt := s.tcnt + 1 } fun x u => place (f x) u
    with ⟨h, -⟩ | ⟨b, h, hl', -⟩
  · rw [h]
    exact ⟨1, by omega, .inl rfl, fun _ => hl, .inl rfl, rfl⟩
  · rw [h]
    have hl' : s.ipos.toNat + 2 ≤ s.cfg.input.length := by
      simp only [h1] at hl'
      omega
    refine (place_after (s := s) 2 (f b) hl' ?_).mono (fun _ ht => ht) (fun c _ t ht => ⟨2, le_refl 2, ht⟩)
    rw [show s.ipos + 1 + 1 = s.ipos + BitVec.ofNat 64 2 by rw [BitVec.add_assoc]; rfl,
      show s.tcnt + 1 + 1 = s.tcnt + BitVec.ofNat 13 2 by rw [BitVec.add_assoc]; rfl]

/-- A leaf of two bytes: `ESC`. -/
theorem getGetPlace_all {s : State} (hs : s.cfg.input.length < 2 ^ 64) (f : Byte → Node) :
    (getByte s fun _ u => getByte u fun x u => place (f x) u).All (PassEnds 2 s)
      (fun c _ t => ∃ k, k ≤ 2 ∧ PassRaises k s c t) := by
  rcases getByte_cases s fun _ u => getByte u fun x u => place (f x) u with ⟨h, -⟩ | ⟨b, h, hl, -⟩
  · rw [h]
    exact ⟨0, by omega, pass_raises_at_end s⟩
  · rw [h]
    exact getSecond_all hs hl f

/-- What a pass of the loop can do (R118): one node from one or two bytes, or a fault. -/
theorem tdesPass_all {s : State} (hs : s.cfg.input.length < 2 ^ 64) :
    (tdesPass s).All (fun t => ∃ k, 1 ≤ k ∧ k ≤ 2 ∧ PassEnds k s t) (fun c _ t => ∃ k, k ≤ 2 ∧ PassRaises k s c t) := by
  unfold tdesPass
  rcases getByte_cases s _ with ⟨h, -⟩ | ⟨b, h, hl, -⟩
  · rw [h]
    exact ⟨0, by omega, pass_raises_at_end s⟩
  · rw [h]
    have one : ∀ nd, (place nd { s with ipos := s.ipos + 1, tcnt := s.tcnt + 1 }).All
        (fun t => ∃ k, 1 ≤ k ∧ k ≤ 2 ∧ PassEnds k s t) (fun c _ t => ∃ k, k ≤ 2 ∧ PassRaises k s c t) := fun nd =>
      (place_after (s := s) 1 nd hl rfl).mono (fun _ ht => ⟨1, le_refl 1, by omega, ht⟩)
        (fun c _ t ht => ⟨1, by omega, ht⟩)
    split
    · exact (getSecond_all hs hl fun x => .leaf x).mono (fun _ ht => ⟨2, by omega, le_refl 2, ht⟩) (fun _ _ _ ht => ht)
    · split
      · exact one _
      · exact one _

/-- The loop has finished a tree, from `k` bytes and `n` tokens (R118). -/
def LoopEnds (s t : State) : Prop :=
  ∃ k n, 1 ≤ n ∧ k ≤ 2 * n ∧ s.nalloc.toNat + n ≤ 512 ∧ s.ipos.toNat + k ≤ s.cfg.input.length ∧
    (Memory.wf s.nm → Memory.wf t.nm) ∧
    t = { s with nm := t.nm, nalloc := s.nalloc + BitVec.ofNat 10 n, rootv := true, root := 0, stk := [], treeOpen := false,
                 resp := 0, tcnt := s.tcnt + BitVec.ofNat 13 k, ipos := s.ipos + BitVec.ofNat 64 k }

/-- The loop has raised, after `k` bytes and with `n` entries allocated (R118). -/
def LoopRaises (s : State) (c : Cause) (t : State) : Prop :=
  DesCause c ∧ ∃ k n, k ≤ 2 * n + 2 ∧ s.nalloc.toNat + n ≤ 512 ∧ s.ipos.toNat + k ≤ s.cfg.input.length ∧
    t = { s with nm := t.nm, nalloc := s.nalloc + BitVec.ofNat 10 n, stk := t.stk, tcnt := s.tcnt + BitVec.ofNat 13 k,
                 ipos := s.ipos + BitVec.ofNat 64 k }

theorem nalloc_succ {n : BitVec 10} (h : n.toNat < 512) : (n + 1).toNat = n.toNat + 1 := by
  rw [BitVec.toNat_add, show (1 : BitVec 10).toNat = 1 from rfl]
  omega

/-- What the loop can do from its top (R118, R178): with fuel for the entries that are left it ends or raises. -/
theorem tdesLoop_all (fuel : Nat) (s : State) (hs : s.cfg.input.length < 2 ^ 64) (hp : s.ipos.toNat ≤ s.cfg.input.length)
    (hn : s.nalloc.toNat ≤ 512) (hf : 513 ≤ fuel + s.nalloc.toNat) (ho : s.treeOpen = true) :
    (tdesLoop fuel s).All (LoopEnds s) (fun c _ t => LoopRaises s c t) := by
  induction fuel generalizing s with
  | zero => omega
  | succ fuel ih =>
    rw [tdesLoop, if_pos ho]
    have hpass := tdesPass_all hs
    revert hpass
    cases tdesPass s with
    | unbounded => exact fun h => h
    | raised c info t =>
      rintro ⟨k, hk, hc, hi, hna, ht⟩
      refine ⟨hc, ?_⟩
      rcases hna with hna | ⟨hne, hna⟩
      · exact ⟨k, 0, by omega, by omega, hi hp, by rw [ht, hna]; simp⟩
      · exact ⟨k, 1, by omega, by omega, hi hp, by rw [ht, hna]; rfl⟩
    | ok t =>
      rintro ⟨k, hk1, hk2, hi, hne, hst, hw, ht⟩
      have hnt : t.nalloc = s.nalloc + 1 := by rw [ht]
      have hnt' : t.nalloc.toNat = s.nalloc.toNat + 1 := by rw [hnt, nalloc_succ (by omega)]
      have hit : t.cfg.input = s.cfg.input := by rw [ht]
      have hit' : t.ipos.toNat = s.ipos.toNat + k := by
        have : t.ipos = s.ipos + BitVec.ofNat 64 k := by rw [ht]
        rw [this, BitVec.toNat_add, BitVec.toNat_ofNat]
        omega
      rcases hst with ⟨hopen, -, hroot, hrootv, hresp⟩ | ⟨hclosed, hstk, hroot, hrootv, hresp⟩
      · have loop := ih t (by rw [hit]; exact hs) (by rw [hit, hit']; omega) (by omega) (by omega) hopen
        rw [hroot, hrootv, hresp, hopen] at ht
        refine loop.mono ?_ ?_
        · rintro u ⟨k', n', hn1, hk', hn', hi', hw', hu⟩
          refine ⟨k + k', n' + 1, by omega, by omega, by omega, ?_, fun h => hw' (hw h), ?_⟩
          · rw [hit, hit'] at hi'
            omega
          · rw [ht] at hu
            rw [hu]
            simp [BitVec.ofNat_add, BitVec.add_assoc, BitVec.add_comm 1#10]
        · rintro c _ u ⟨hc, k', n', hk', hn', hi', hu⟩
          refine ⟨hc, k + k', n' + 1, by omega, by omega, ?_, ?_⟩
          · rw [hit, hit'] at hi'
            omega
          · rw [ht] at hu
            rw [hu]
            simp [BitVec.ofNat_add, BitVec.add_assoc, BitVec.add_comm 1#10, ho]
      · have hdone : tdesLoop fuel t = .ok t := by
          cases fuel <;> simp [tdesLoop, hclosed]
        show ((Body.ok t).bind (tdesLoop fuel)).All _ _
        rw [Body.bind_ok, hdone]
        refine ⟨k, 1, le_refl 1, by omega, by omega, hi, hw, ?_⟩
        rw [hroot, hrootv, hresp, hclosed, hstk] at ht
        rw [ht]
        rfl

/-- What the body of `TDES` can do with a header (R118, R120, R121, R163): the empty tree, a tree, or a fault. -/
theorem tdesBody_all {s : State} (hv : s.hv = true) (hs : s.cfg.input.length < 2 ^ 64) (hp : s.ipos.toNat ≤ s.cfg.input.length) :
    ((tdesStart s).bind (tdesLoop Config.tdesPasses)).All
      (fun t => ∃ k n, k ≤ 2 * n ∧ n ≤ 512 ∧ s.ipos.toNat + k ≤ s.cfg.input.length ∧ Memory.wf t.nm ∧
        (t.rootv = true ↔ s.htlen ≠ 0) ∧
        t = { s with nm := t.nm, nalloc := BitVec.ofNat 10 n, rootv := t.rootv, root := 0, stk := [], treeOpen := false,
                     resp := 0, tcnt := BitVec.ofNat 13 k, ipos := s.ipos + BitVec.ofNat 64 k })
      (fun c _ t => DesCause c ∧ ∃ k n, k ≤ 2 * n + 2 ∧ n ≤ 512 ∧ s.ipos.toNat + k ≤ s.cfg.input.length ∧
        t = { s with nm := t.nm, nalloc := BitVec.ofNat 10 n, rootv := false, root := 0, stk := t.stk, treeOpen := t.treeOpen,
                     tcnt := BitVec.ofNat 13 k, ipos := s.ipos + BitVec.ofNat 64 k }) := by
  unfold tdesStart
  rw [if_pos hv]
  simp only []
  split
  · next h0 =>
    have h0 : s.htlen = 0 := h0
    refine ⟨0, 0, by omega, by omega, by omega, memory_wf_nil, by simp [h0], by simp [State.setResp]⟩
  · next h0 =>
    have h0 : s.htlen ≠ 0 := h0
    split
    · exact ⟨.inl rfl, 0, 0, by omega, by omega, by omega, by simp⟩
    · rw [Body.bind_ok]
      refine (tdesLoop_all Config.tdesPasses
        { s with nm := [], nalloc := 0, rootv := false, root := 0, tcnt := 0, stk := [], treeOpen := true } hs hp ?_ ?_
        rfl).mono ?_ ?_
      · simp
      · simp [Config.tdesPasses]
      · rintro t ⟨k, n, hn1, hk, hn, hi, hw, ht⟩
        refine ⟨k, n, hk, by simpa using hn, hi, hw memory_wf_nil, by rw [ht]; simpa using h0, ?_⟩
        rw [ht]
        simp
      · rintro c _ t ⟨hc, k, n, hk, hn, hi, ht⟩
        refine ⟨hc, k, n, hk, by simpa using hn, hi, ?_⟩
        rw [ht]
        simp

end Sys2Proof.Machine
end

