-- ==== Sys2Proof/Laws/TreeSer.lean ====
section
/-! SUPPORT. The tree serializer's operations: what `emit`, `push`, a pass and the loop can do, on any node memory. -/

namespace Sys2Proof.Machine

/-- From `s` to `t` the serializer has appended `bs` and counted them in `TLEN`; only its stack may differ besides. -/
def SerRel (s t : State) (bs : List Byte) : Prop :=
  t = { s with tlen := t.tlen, cout := s.cout ++ bs, stk := t.stk } ∧ t.tlen.toNat = s.tlen.toNat + bs.length

theorem SerRel.refl (s : State) : SerRel s s [] := ⟨by simp, by simp⟩

theorem SerRel.trans {s t u : State} {bs cs : List Byte} (h : SerRel s t bs) (h' : SerRel t u cs) :
    SerRel s u (bs ++ cs) := by
  refine ⟨?_, ?_⟩
  · rw [h'.1, h.1]
    simp
  · rw [h'.2, h.2]
    simp
    omega

/-- Popping the stack moves nothing else. -/
theorem SerRel.of_stk (s : State) (below : List StkEntry) : SerRel s { s with stk := below } [] := ⟨by simp, by simp⟩

/-- What `TSER` can raise over node memory `m` (R112), and in which state: `STK_OVF` names the left child that finds the
stack full, `TLEN_OVF` the entry whose byte would be the 8192nd, `BAD_NODE` the invalid entry. -/
def SerRaises (m : List (Nat × Node)) (c : Cause) (info : Resp) (t : State) : Prop :=
  (c = .stkOvf ∧ ∃ n l r : NodeIdx, nmRead m n.toNat = some (.internal l r) ∧ info = zext64 l) ∨
  (c = .tlenOvf ∧ t.tlen.toNat = 8191 ∧ ∃ (n : NodeIdx) (nd : Node), nmRead m n.toNat = some nd ∧ info = zext64 n) ∨
  (c = .badNode ∧ ∃ n : NodeIdx, nmRead m n.toNat = none ∧ info = zext64 n)

theorem tlen_succ {n : TreeLen} (h : n.toNat ≠ 8191) : (n + 1).toNat = n.toNat + 1 := by
  have := n.isLt
  rw [BitVec.toNat_add, show (1 : BitVec 13).toNat = 1 from rfl]
  omega

/-- What `emit` can do (R112). -/
theorem emit_all (b : Byte) (n : NodeIdx) (s : State) :
    (emit b n s).All (fun t => SerRel s t [b] ∧ t.stk = s.stk)
      (fun c info t => c = .tlenOvf ∧ info = zext64 n ∧ s.tlen.toNat = 8191 ∧ t = s) := by
  unfold emit
  split
  · next h => exact ⟨rfl, rfl, h, rfl⟩
  · next h => exact ⟨⟨rfl, tlen_succ h⟩, rfl⟩

theorem emit_of_room {s : State} (b : Byte) (n : NodeIdx) (h : s.tlen.toNat < 8191) :
    emit b n s = .ok { s with tlen := s.tlen + 1, cout := s.cout ++ [b] } := by
  rw [emit, if_neg]
  · rfl
  · show ¬ s.tlen.toNat = 8191
    omega

theorem emit_of_full {s : State} (b : Byte) (n : NodeIdx) (h : s.tlen.toNat = 8191) :
    emit b n s = .raised .tlenOvf (zext64 n) s := by
  rw [emit, if_pos (by exact h)]

theorem push_of_full {s : State} (i : NodeIdx) (h : s.stk.length = 256) : push i s = .raised .stkOvf (zext64 i) s := by
  rw [push, if_pos (by exact h)]

theorem push_of_room {s : State} (i : NodeIdx) (h : s.stk.length < 256) :
    push i s = .ok { s with stk := { node := i, waitLeft := false } :: s.stk } := by
  rw [push, if_neg]
  show ¬ s.stk.length = 256
  omega

/-- What `push` can do (R112). -/
theorem push_all (i : NodeIdx) (s : State) :
    (push i s).All (fun t => SerRel s t [] ∧ t.stk = { node := i, waitLeft := false } :: s.stk ∧ s.stk.length ≠ 256)
      (fun c info t => c = .stkOvf ∧ info = zext64 i ∧ s.stk.length = 256 ∧ t = s) := by
  unfold push
  split
  · next h => exact ⟨rfl, rfl, h, rfl⟩
  · next h => exact ⟨⟨by simp, by simp⟩, rfl, h⟩

/-- What one pass of `TSER`'s loop can do with room for one entry on the stack (R112, R116): it appends at least one byte, or
raises. -/
theorem tserPass_all (n : NodeIdx) (s : State) (hstk : s.stk.length ≤ 255) :
    (tserPass n s).All (fun t => t.stk.length ≤ 256 ∧ ∃ bs, bs ≠ [] ∧ SerRel s t bs)
      (fun c info t => SerRaises s.nm c info t ∧ ∃ bs, SerRel s t bs) := by
  unfold tserPass
  split
  · next h => exact ⟨.inr (.inr ⟨rfl, n, h, rfl⟩), [], .refl s⟩
  · next sym h =>
    have stop : ∀ {u c info t}, (∃ bs, SerRel s u bs) → c = Cause.tlenOvf ∧ info = zext64 n ∧ u.tlen.toNat = 8191 ∧ t = u →
        SerRaises s.nm c info t ∧ ∃ bs, SerRel s t bs := by
      rintro u c info t hu ⟨rfl, rfl, h8, rfl⟩
      exact ⟨.inr (.inl ⟨rfl, h8, n, _, h, rfl⟩), hu⟩
    refine Body.All.bind (P := fun t => t.stk = s.stk ∧ ∃ bs, SerRel s t bs) ?_ ?_
    · split
      · exact (emit_all _ _ _).mono (fun t h' => ⟨h'.2, _, h'.1⟩) (fun c info t h' => stop ⟨[], .refl s⟩ h')
      · exact ⟨rfl, [], .refl s⟩
    · rintro t ⟨hs, bs, ht⟩
      exact (emit_all _ _ _).mono (fun u h' => ⟨by rw [h'.2, hs]; omega, _, by simp, ht.trans h'.1⟩)
        (fun c info u h' => stop ⟨bs, ht⟩ h')
  · next l r h =>
    refine Body.All.bind (P := fun t => t.stk.length ≤ 256 ∧ ∃ bs, bs ≠ [] ∧ SerRel s t bs) ?_ ?_
    · refine Body.All.bind (P := fun t => t.stk = s.stk ∧ ∃ bs, bs ≠ [] ∧ SerRel s t bs) ?_ ?_
      · refine (emit_all _ _ _).mono (fun t h' => ⟨h'.2, _, by simp, h'.1⟩) ?_
        rintro c info t ⟨rfl, rfl, h8, rfl⟩
        exact ⟨.inr (.inl ⟨rfl, h8, n, _, h, rfl⟩), [], .refl t⟩
      · rintro t ⟨hs, bs, hb, ht⟩
        refine (push_all _ _).mono ?_ ?_
        · rintro u ⟨hu, hk, -⟩
          exact ⟨by rw [hk, hs]; simp; omega, _, by simpa using hb, ht.trans hu⟩
        · rintro c info u ⟨rfl, rfl, h8, rfl⟩
          rw [hs] at h8
          omega
    · rintro t ⟨hs, bs, hb, ht⟩
      refine (push_all _ _).mono ?_ ?_
      · rintro u ⟨hu, hk, hne⟩
        exact ⟨by rw [hk]; simp; omega, _, by simpa using hb, ht.trans hu⟩
      · rintro c info u ⟨rfl, rfl, h8, rfl⟩
        exact ⟨.inl ⟨rfl, n, l, r, h, rfl⟩, bs, ht⟩

/-- What `TSER`'s loop can do (R112, R116): with fuel for the bytes that still fit it ends, its stack empty, or raises. -/
theorem tserLoop_all (fuel : Nat) (s : State) (hstk : s.stk.length ≤ 256) (hf : 8192 ≤ fuel + s.tlen.toNat) :
    (tserLoop fuel s).All (fun t => t.stk = [] ∧ ∃ bs, SerRel s t bs)
      (fun c info t => SerRaises s.nm c info t ∧ ∃ bs, SerRel s t bs) := by
  induction fuel generalizing s with
  | zero =>
    have := s.tlen.isLt
    omega
  | succ fuel ih =>
    rw [tserLoop]
    split
    · next h => exact ⟨h, [], .refl s⟩
    · next e below h =>
      have hb : below.length ≤ 255 := by
        rw [h, List.length_cons] at hstk
        omega
      refine Body.All.bind (tserPass_all e.node { s with stk := below } hb |>.mono (fun t ht => ht) ?_) ?_
      · rintro c info t ⟨hc, bs, hbs⟩
        exact ⟨hc, _, (SerRel.of_stk s below).trans hbs⟩
      · rintro t ⟨hk, bs, hne, hbs⟩
        have hlen : 0 < bs.length := List.length_pos_iff.mpr hne
        have htl := hbs.2
        have hnm : t.nm = s.nm := by rw [hbs.1]
        refine (ih t hk (by simp at htl; omega)).mono ?_ ?_
        · rintro u ⟨hu, cs, hcs⟩
          exact ⟨hu, _, ((SerRel.of_stk s below).trans hbs).trans hcs⟩
        · rintro c info u ⟨hc, cs, hcs⟩
          rw [hnm] at hc
          exact ⟨hc, _, ((SerRel.of_stk s below).trans hbs).trans hcs⟩

/-- What the body of `TSER` can do on any node memory (R112, R116, R163). -/
theorem tserBody_all (s : State) :
    (tserBody s).All
      (fun t => ∃ bs, bs.length = t.tlen.toNat ∧
        t = { s with tlen := t.tlen, cout := s.cout ++ bs, stk := [], resp := 0 })
      (fun c info t => SerRaises s.nm c info t ∧ ∃ bs, bs.length = t.tlen.toNat ∧
        t = { s with tlen := t.tlen, cout := s.cout ++ bs, stk := t.stk }) := by
  unfold tserBody
  refine Body.All.bind
    (P := fun t => t.stk = [] ∧ ∃ bs, SerRel { s with tlen := 0, stk := [] } t bs) ?_ ?_
  · split
    · rw [push_of_room _ (by simp), Body.bind_ok]
      refine (tserLoop_all _ _ (by simp) (by simp [Config.tserPasses])).mono ?_ ?_
      · rintro u ⟨hu, bs, hbs⟩
        exact ⟨hu, bs, hbs⟩
      · rintro c info u ⟨hc, bs, hbs⟩
        exact ⟨hc, bs, by simpa using hbs.2.symm, hbs.1⟩
    · exact ⟨rfl, [], .refl _⟩
  · rintro t ⟨ht, bs, hbs⟩
    refine ⟨bs, by simpa using hbs.2.symm, ?_⟩
    have := hbs.1
    rw [ht] at this
    rw [this]
    rfl

end Sys2Proof.Machine
end

