-- ==== Sys2Proof/Laws/Packer.lean ====
section
/-! SUPPORT. The packer's shared operations: what `PUTB`'s body, a run of it and `FIN`'s body can do. -/

namespace Sys2Proof.Machine

theorem shiftIn_toNat (acc : BitVec 8) (b : Bool) : (shiftIn acc b).toNat = (2 * acc.toNat + b.toNat) % 256 := by
  revert acc b
  decide +revert

/-- What the body of `PUTB` does (R88). -/
theorem pushBit_eq (b : Bool) (s : State) :
    pushBit b s =
      if s.nbuf = 7 then { s with acc := 0, nbuf := 0, total := s.total + 1, cout := s.cout ++ [shiftIn s.acc b] }
      else { s with acc := shiftIn s.acc b, nbuf := s.nbuf + 1, total := s.total + 1 } := by
  simp only [pushBit, State.cOut]

theorem nbuf_succ {n : BitVec 3} (h : n ≠ 7) : (n + 1).toNat = n.toNat + 1 := by
  revert n
  decide

theorem pushBit_flush {s : State} (b : Bool) (h : s.nbuf = 7) :
    pushBit b s = { s with acc := 0, nbuf := 0, total := s.total + 1, cout := s.cout ++ [shiftIn s.acc b] } := by
  rw [pushBit_eq, if_pos h]

theorem pushBit_hold {s : State} (b : Bool) (h : s.nbuf ≠ 7) :
    pushBit b s = { s with acc := shiftIn s.acc b, nbuf := s.nbuf + 1, total := s.total + 1 } := by
  rw [pushBit_eq, if_neg h]

theorem add_one_add_ofNat {w : Nat} (x : BitVec w) (n : Nat) :
    x + 1#w + BitVec.ofNat w n = x + BitVec.ofNat w (n + 1) := by
  rw [BitVec.add_assoc, Nat.add_comm n 1, BitVec.ofNat_add]

/-- What a run of bits does (R89): it counts them in `TOTAL` and `NBUF`, appends a byte for each eighth bit, and changes
nothing else but `ACC`. -/
theorem pushBits_frame (bits : List Bool) (s : State) :
    ∃ (acc : BitVec 8) (bs : List Byte), bs.length = (s.nbuf.toNat + bits.length) / 8 ∧
      pushBits bits s = { s with
        acc := acc, nbuf := BitVec.ofNat 3 ((s.nbuf.toNat + bits.length) % 8), total := s.total + BitVec.ofNat 64 bits.length,
        cout := s.cout ++ bs } := by
  induction bits generalizing s with
  | nil =>
    have := s.nbuf.isLt
    refine ⟨s.acc, [], by simp; omega, ?_⟩
    simp [pushBits, Nat.mod_eq_of_lt s.nbuf.isLt]
  | cons b bits ih =>
    obtain ⟨acc, bs, hlen, heq⟩ := ih (pushBit b s)
    rw [pushBits, heq]
    by_cases h7 : s.nbuf = 7
    · refine ⟨acc, shiftIn s.acc b :: bs, ?_, ?_⟩
      · rw [pushBit_flush b h7] at hlen
        simp [h7] at hlen ⊢
        omega
      · rw [pushBit_flush b h7]
        simp [h7, add_one_add_ofNat, show 7 + (bits.length + 1) = 8 + bits.length by omega]
    · refine ⟨acc, bs, ?_, ?_⟩
      · rw [pushBit_hold b h7] at hlen
        rw [hlen, nbuf_succ h7, List.length_cons]
        congr 1
        omega
      · rw [pushBit_hold b h7]
        simp [add_one_add_ofNat,
          show s.nbuf.toNat + 1 + bits.length = s.nbuf.toNat + (bits.length + 1) by omega]

/-- What `FIN`'s body does (R91). -/
theorem finish_eq (s : State) :
    finish s =
      if s.nbuf = 0 then { s with fdone := true }
      else { s with acc := 0, nbuf := 0, fdone := true, cout := s.cout ++ [s.acc <<< (8 - s.nbuf.toNat)] } := by
  unfold finish
  split <;> rfl

theorem bitsDown_length {w : Nat} (v : BitVec w) (n : Nat) : (bitsDown v n).length = n := by
  induction n with
  | zero => rfl
  | succ n ih => simp [bitsDown, ih]

end Sys2Proof.Machine
end

