-- ==== Sys2Proof/Laws/Unpacker.lean ====
section
/-! SUPPORT. The unpacker's operations: what a significant bit, a byte and the loop can do, on any node memory. -/

namespace Sys2Proof.Machine

/-- The causes a significant bit can raise (R97). -/
def BitCause (c : Cause) : Prop := c = .noTree ∨ c = .badNode

/-- From `s` to `t` the walk has emitted `syms` and moved; nothing else differs (R97). -/
def WalkRel (s t : State) (syms : List Byte) : Prop := t = { s with sout := s.sout ++ syms, walk := t.walk }

theorem WalkRel.refl (s : State) : WalkRel s s [] := by simp [WalkRel]

theorem WalkRel.trans {s t u : State} {xs ys : List Byte} (h : WalkRel s t xs) (h' : WalkRel t u ys) :
    WalkRel s u (xs ++ ys) := by
  unfold WalkRel at *
  rw [h', h]
  simp

/-- What one significant bit can do (R97): it emits at most one symbol, or raises with nothing changed. -/
theorem walkBit_all (b : Bool) (s : State) :
    (walkBit b s).All (fun t => ∃ syms, syms.length ≤ 1 ∧ WalkRel s t syms) (fun c _ t => BitCause c ∧ t = s) := by
  unfold walkBit
  split
  · split
    · exact ⟨.inr rfl, rfl⟩
    · exact ⟨[_], le_refl 1, rfl⟩
    · dsimp only
      split
      · exact ⟨.inr rfl, rfl⟩
      · exact ⟨[_], le_refl 1, rfl⟩
      · exact ⟨[], by simp, by simp [WalkRel]⟩
  · exact ⟨.inl rfl, rfl⟩

/-- What a run of significant bits can do (R96 `decode`). -/
theorem walkBits_all (bits : List Bool) (s : State) :
    (walkBits bits s).All (fun t => ∃ syms, syms.length ≤ bits.length ∧ WalkRel s t syms)
      (fun c _ t => BitCause c ∧ ∃ syms, syms.length ≤ bits.length ∧ WalkRel s t syms) := by
  induction bits generalizing s with
  | nil => exact ⟨[], le_refl 0, .refl s⟩
  | cons b bits ih =>
    rw [walkBits]
    refine Body.All.bind ((walkBit_all b s).mono (fun t ht => ht) ?_) ?_
    · rintro c _ t ⟨hc, rfl⟩
      exact ⟨hc, [], by simp, .refl t⟩
    · rintro t ⟨xs, hx, ht⟩
      refine (ih t).mono ?_ ?_
      · rintro u ⟨ys, hy, hu⟩
        exact ⟨xs ++ ys, by simp; omega, ht.trans hu⟩
      · rintro c _ u ⟨hc, ys, hy, hu⟩
        exact ⟨hc, xs ++ ys, by simp; omega, ht.trans hu⟩

theorem highBits_length (b : Byte) {k : Nat} (h : k ≤ 8) : (highBits b k).length = k := by
  simp [highBits, bitsDown_length, h]

/-- From `s` to `t` the unpacker has taken input up to `IPOS` of `t` and emitted `syms` (R96). -/
def UnpkRel (s t : State) (syms : List Byte) : Prop :=
  t = { s with sout := s.sout ++ syms, walk := t.walk, ipos := t.ipos, hold := t.hold, holdv := t.holdv }

theorem UnpkRel.refl (s : State) : UnpkRel s s [] := by simp [UnpkRel]

theorem UnpkRel.trans {s t u : State} {xs ys : List Byte} (h : UnpkRel s t xs) (h' : UnpkRel t u ys) :
    UnpkRel s u (xs ++ ys) := by
  unfold UnpkRel at *
  rw [h', h]
  simp

theorem WalkRel.unpk {s t : State} {xs : List Byte} (h : WalkRel s t xs) : UnpkRel s t xs := by
  unfold WalkRel at h
  unfold UnpkRel
  rw [h]

/-- The causes `UNPK`'s loop can raise (R96, R97). -/
def UnpkCause (c : Cause) : Prop := c = .noTree ∨ c = .badNode ∨ c = .badPad

/-- What the end of the input can do (R96, R99). -/
theorem unpkEnd_all (s : State) :
    (unpkEnd s).All
      (fun t => t.holdv = false ∧ t.ipos = s.ipos ∧ ∃ syms, syms.length ≤ (if s.holdv then 8 else 0) ∧ UnpkRel s t syms)
      (fun c _ t => UnpkCause c ∧ t.ipos = s.ipos ∧ ∃ syms, syms.length ≤ (if s.holdv then 8 else 0) ∧ UnpkRel s t syms) := by
  unfold unpkEnd
  by_cases hv : s.holdv = true
  · simp only [hv, if_true]
    have hlen : (highBits s.hold (8 - s.pad.toNat)).length ≤ 8 := by
      rw [highBits_length _ (by omega)]
      omega
    refine Body.All.bind ((walkBits_all _ s).mono (fun t ht => ht) ?_) ?_
    · rintro c _ t ⟨hc, xs, hx, ht⟩
      refine ⟨by rcases hc with hc | hc <;> simp [UnpkCause, hc], by rw [ht], xs, by omega, ht.unpk⟩
    · rintro t ⟨xs, hx, ht⟩
      refine ⟨rfl, by rw [ht], xs, by omega, ?_⟩
      unfold UnpkRel
      rw [ht]
  · have hv : s.holdv = false := by simpa using hv
    simp only [hv]
    split
    · contradiction
    · split
      · exact ⟨.inr (.inr rfl), rfl, [], by simp, .refl s⟩
      · exact ⟨hv, rfl, [], by simp, .refl s⟩

/-- What the loop can do with fuel for the bytes that remain (R96, R103, R178): it takes all of them, or raises. -/
theorem unpkLoop_all (fuel : Nat) (s : State) (hs : s.cfg.input.length < 2 ^ 64) (hp : s.ipos.toNat ≤ s.cfg.input.length)
    (hf : s.cfg.input.length < fuel + s.ipos.toNat) :
    (unpkLoop fuel s).All
      (fun t => t.holdv = false ∧ t.ipos.toNat = s.cfg.input.length ∧
        ∃ syms, syms.length ≤ 8 * (s.cfg.input.length - s.ipos.toNat) + (if s.holdv then 8 else 0) ∧ UnpkRel s t syms)
      (fun c _ t => UnpkCause c ∧ s.ipos.toNat ≤ t.ipos.toNat ∧ t.ipos.toNat ≤ s.cfg.input.length ∧
        ∃ syms, syms.length ≤ 8 * (s.cfg.input.length - s.ipos.toNat) + (if s.holdv then 8 else 0) ∧ UnpkRel s t syms) := by
  induction fuel generalizing s with
  | zero => omega
  | succ fuel ih =>
    rw [unpkLoop]
    rcases s.inGet_cases with ⟨h, hl⟩ | ⟨nb, h, hl, -⟩
    · rw [h]
      refine (unpkEnd_all s).mono ?_ ?_
      · rintro t ⟨hv, hi, xs, hx, ht⟩
        exact ⟨hv, by rw [hi]; omega, xs, by omega, ht⟩
      · rintro c _ t ⟨hc, hi, xs, hx, ht⟩
        exact ⟨hc, by rw [hi], by rw [hi]; omega, xs, by omega, ht⟩
    · rw [h]
      have h1 := State.ipos_succ hs hl
      dsimp only
      have held : (if s.holdv = true then walkBits (highBits s.hold 8) { s with ipos := s.ipos + 1 }
          else Body.ok { s with ipos := s.ipos + 1 }).All
          (fun t => t.ipos = s.ipos + 1 ∧ t.cfg.input = s.cfg.input ∧
            ∃ syms, syms.length ≤ (if s.holdv then 8 else 0) ∧ UnpkRel s t syms)
          (fun c _ t => UnpkCause c ∧ t.ipos = s.ipos + 1 ∧
            ∃ syms, syms.length ≤ (if s.holdv then 8 else 0) ∧ UnpkRel s t syms) := by
        have step1 : UnpkRel s { s with ipos := s.ipos + 1 } [] := by simp [UnpkRel]
        split
        · refine (walkBits_all _ _).mono ?_ ?_
          · rintro t ⟨xs, hx, ht⟩
            rw [highBits_length _ (le_refl 8)] at hx
            exact ⟨by rw [ht], by rw [ht], xs, hx, step1.trans ht.unpk⟩
          · rintro c _ t ⟨hc, xs, hx, ht⟩
            rw [highBits_length _ (le_refl 8)] at hx
            exact ⟨by rcases hc with hc | hc <;> simp [UnpkCause, hc], by rw [ht], xs, hx, step1.trans ht.unpk⟩
        · exact ⟨rfl, rfl, [], by simp, step1⟩
      refine Body.All.bind (held.mono (fun t ht => ht) ?_) ?_
      · rintro c _ t ⟨hc, hi, xs, hx, ht⟩
        exact ⟨hc, by rw [hi]; omega, by rw [hi]; omega, xs, by omega, ht⟩
      · rintro t ⟨hi, hin, xs, hx, ht⟩
        have hold : UnpkRel t { t with hold := nb, holdv := true } [] := by simp [UnpkRel]
        refine (ih { t with hold := nb, holdv := true } ?_ ?_ ?_).mono ?_ ?_
        · simpa [hin] using hs
        · simp only [hin, hi]
          omega
        · simp only [hin, hi]
          omega
        · rintro u ⟨hv, hiu, ys, hy, hu⟩
          simp only [hin, hi, if_true] at hy hiu
          refine ⟨hv, hiu, xs ++ ys, ?_, by simpa using (ht.trans hold).trans hu⟩
          simp only [List.length_append]
          omega
        · rintro c _ u ⟨hc, hlo, hhi, ys, hy, hu⟩
          simp only [hin, hi, if_true] at hy hlo hhi
          refine ⟨hc, by omega, hhi, xs ++ ys, ?_, by simpa using (ht.trans hold).trans hu⟩
          simp only [List.length_append]
          omega

/-- What the body of `UNPK` can do with a header (R96, R103). -/
theorem unpkBody_all {s : State} (hv : s.hv = true) (hs : s.cfg.input.length < 2 ^ 64) (hp : s.ipos.toNat ≤ s.cfg.input.length) :
    (unpkBody s).All
      (fun t => t.ipos.toNat = s.cfg.input.length ∧ (s.rootv = true → t.walk = s.root) ∧
        ∃ syms, syms.length ≤ 8 * (s.cfg.input.length - s.ipos.toNat) ∧
          t = { s with sout := s.sout ++ syms, walk := t.walk, ipos := t.ipos, hold := t.hold, holdv := false, resp := 0 })
      (fun c _ t => (UnpkCause c ∨ c = .truncCode) ∧ s.ipos.toNat ≤ t.ipos.toNat ∧ t.ipos.toNat ≤ s.cfg.input.length ∧
        ∃ syms, syms.length ≤ 8 * (s.cfg.input.length - s.ipos.toNat) ∧
          t = { s with sout := s.sout ++ syms, walk := t.walk, ipos := t.ipos, hold := t.hold, holdv := t.holdv }) := by
  unfold unpkBody
  rw [if_pos hv]
  refine Body.All.bind ((unpkLoop_all _ { s with walk := s.root, holdv := false } hs hp ?_).mono (fun t ht => ht) ?_) ?_
  · simp only [State.remaining]
    omega
  · rintro c _ t ⟨hc, hlo, hhi, xs, hx, ht⟩
    exact ⟨.inl hc, hlo, hhi, xs, by simpa using hx, ht⟩
  · rintro t ⟨hh, hi, xs, hx, ht⟩
    have hroot : t.root = s.root := by rw [ht]
    have hrootv : t.rootv = s.rootv := by rw [ht]
    split
    · refine ⟨.inr rfl, ?_, by rw [hi], xs, by simpa using hx, ht⟩
      rw [hi]
      exact hp
    · next hw =>
      refine ⟨hi, fun hr => ?_, xs, by simpa using hx, ?_⟩
      · by_contra hne
        exact hw ⟨by rw [hrootv, hr], by rw [hroot]; exact hne⟩
      · unfold UnpkRel at ht
        rw [hh] at ht
        rw [ht]
        rfl

end Sys2Proof.Machine
end

