-- ==== Sys2Proof/Laws/Exec.lean ====
section
/-! SUPPORT. What each instruction does outside the fault state, over the shared operations. -/

namespace Sys2Proof.Machine

theorem exec_putb {s : State} (b : Bool) (hf : s.fault = false) (hd : s.fdone = false) :
    exec (.putb b) s = .next ((pushBit b s).setResp 0) := by
  simp [exec, execPutb, hf, hd]

theorem exec_putc {s : State} {len : BitVec 5} (code : BitVec 16) (hf : s.fault = false) (hd : s.fdone = false)
    (hl : len.toNat ≤ 16) : exec (.putc len code) s = .next ((pushBits (codeBits len code) s).setResp 0) := by
  simp [exec, execPutc, hf, hd, Nat.not_lt.mpr hl]

theorem exec_fin {s : State} (hf : s.fault = false) : exec .fin s = .next ((finish s).setResp 0) := by
  simp [exec, execFin, hf]

theorem exec_nleaf {s : State} (idx : NodeIdx) (sym : Byte) (hf : s.fault = false) :
    exec (.nleaf idx sym) s = .next ((s.nmSet idx (.leaf sym)).setResp 0) := by
  simp [exec, execNleaf, hf]

theorem exec_nint {s : State} (idx left right : NodeIdx) (hf : s.fault = false) :
    exec (.nint idx left right) s = .next ((s.nmSet idx (.internal left right)).setResp 0) := by
  simp [exec, execNint, hf]

theorem exec_sroot {s : State} (idx : NodeIdx) (hf : s.fault = false) :
    exec (.sroot idx) s = .next { s with root := idx, rootv := true, resp := 0 } := by
  simp [exec, execSroot, hf]

theorem exec_tser {s : State} (hf : s.fault = false) : exec .tser s = settle (tserBody s) := by
  simp [exec, execTser, hf]

theorem exec_tdes {s : State} (hf : s.fault = false) :
    exec .tdes s = settleTdes ((tdesStart s).bind (tdesLoop Config.tdesPasses)) := by
  simp [exec, execTdes, hf]

theorem exec_hput {s : State} (hf : s.fault = false) :
    exec .hput s = .next (((s.cOut (hdrBytes s.cfg s.hdr).1).cOut (hdrBytes s.cfg s.hdr).2).setResp 0) := by
  simp [exec, execHput, hf]

theorem exec_hget {s : State} (hf : s.fault = false) : exec .hget s = settle (hgetBody s) := by
  simp [exec, execHget, hf]

theorem exec_hset {s : State} (imm16 : BitVec 16) (hf : s.fault = false) :
    exec (.hset imm16) s = .next ((s.setHeader imm16).setResp 0) := by
  simp [exec, execHset, hf]

theorem exec_unpk {s : State} (hf : s.fault = false) : exec .unpk s = settle (unpkBody s) := by
  simp [exec, execUnpk, hf]

theorem exec_mark {s : State} (hf : s.fault = false) :
    exec .mark s = settleTdes (getByte s fun _ u => place (.internal 0 0) u) := by
  simp [exec, execMark, hf]

theorem exec_esc {s : State} (sym : Byte) (hf : s.fault = false) :
    exec (.esc sym) s = settleTdes (getByte s fun _ u => getByte u fun _ u => place (.leaf sym) u) := by
  simp [exec, execEsc, hf]

theorem exec_lit {s : State} (sym : Byte) (hf : s.fault = false) :
    exec (.lit sym) s = settleTdes (getByte s fun _ u => place (.leaf sym) u) := by
  simp [exec, execLit, hf]

/-- What `HGET` can do (R129): take two bytes, or `HDR_TRUNC` with nothing changed. -/
theorem hgetBody_cases {s : State} (hs : s.cfg.input.length < 2 ^ 64) :
    (s.remaining < 2 ∧ hgetBody s = .raised .hdrTrunc s.ipos s) ∨
    (∃ b0 b1, s.ipos.toNat + 2 ≤ s.cfg.input.length ∧ (s.cfg.input.drop s.ipos.toNat).take 2 = [b0, b1] ∧
      hgetBody s = .ok { s with
        pad := hdrPad (hdrOfBytes s.cfg b0 b1), htlen := hdrTlen (hdrOfBytes s.cfg b0 b1), hv := true, ipos := s.ipos + 2,
        resp := zext64 (hdrOfBytes s.cfg b0 b1) }) := by
  unfold hgetBody
  by_cases hr : s.remaining < 2
  · exact .inl ⟨hr, if_pos hr⟩
  · have hr' : s.ipos.toNat + 2 ≤ s.cfg.input.length := by
      simp only [State.remaining] at hr
      omega
    right
    obtain ⟨b0, rest, h0⟩ : ∃ b r, s.cfg.input.drop s.ipos.toNat = b :: r := by
      cases h : s.cfg.input.drop s.ipos.toNat with
      | nil => simp at h; omega
      | cons b r => exact ⟨b, r, rfl⟩
    obtain ⟨b1, more, rfl⟩ : ∃ b r, rest = b :: r := by
      have : (s.cfg.input.drop s.ipos.toNat).length = rest.length + 1 := by rw [h0]; rfl
      simp at this
      cases rest with
      | nil => simp at this; omega
      | cons b r => exact ⟨b, r, rfl⟩
    refine ⟨b0, b1, hr', by rw [h0]; rfl, ?_⟩
    have h1 : ({ s with ipos := s.ipos + 1 } : State).cfg.input.drop ({ s with ipos := s.ipos + 1 } : State).ipos.toNat =
        b1 :: more := by
      simp only [State.ipos_succ hs (show s.ipos.toNat < s.cfg.input.length by omega)]
      rw [← List.drop_drop, h0]
      rfl
    rw [if_neg hr, State.inGet_of_rest h0]
    simp only [State.inGet_of_rest h1]
    have : s.ipos + 1 + 1 = s.ipos + 2 := by rw [BitVec.add_assoc]; rfl
    simp only [this]
    rfl

end Sys2Proof.Machine
end

