-- ==== Sys2Proof/Laws/Frames.lean ====
section
/-! SUPPORT. What the commands with loops change, in every state whatever: no bound on `IN` or `IPOS` is assumed. -/

namespace Sys2Proof.Machine

/-- A property of how a body ends, if it does end. -/
def Body.Ends (P : State → Prop) (Q : Cause → State → Prop) : Body → Prop
  | .ok s => P s
  | .raised c _ s => Q c s
  | .unbounded => True

theorem Body.All.ends {P : State → Prop} {Q : Cause → State → Prop} {b : Body} (h : b.All P fun c _ s => Q c s) :
    b.Ends P Q := by
  cases b with
  | ok s => exact h
  | raised c info s => exact h
  | unbounded => trivial

theorem Body.Ends.mono {P P' : State → Prop} {Q Q' : Cause → State → Prop} {b : Body} (h : b.Ends P Q)
    (hP : ∀ s, P s → P' s) (hQ : ∀ c s, Q c s → Q' c s) : b.Ends P' Q' := by
  cases b with
  | ok s => exact hP s h
  | raised c info s => exact hQ c s h
  | unbounded => trivial

theorem Body.Ends.bind {P P' : State → Prop} {Q : Cause → State → Prop} {b : Body} {k : State → Body}
    (h : b.Ends P Q) (hk : ∀ s, P s → (k s).Ends P' Q) : (b.bind k).Ends P' Q := by
  cases b with
  | ok s => exact hk s h
  | raised c info s => exact h
  | unbounded => trivial

/-- A command that answers a next state ended, or raised and was latched (R155). -/
theorem settle_ends {P : State → Prop} {Q : Cause → State → Prop} {b : Body} {t : State} (h : b.Ends P Q)
    (ht : settle b = .next t) : P t ∨ ∃ c info s, Q c s ∧ t = s.latch c info := by
  cases b with
  | ok s =>
    cases ht
    exact .inl h
  | raised c info s =>
    cases ht
    exact .inr ⟨c, info, s, h, rfl⟩
  | unbounded => cases ht

theorem settleTdes_ends {P : State → Prop} {Q : Cause → State → Prop} {b : Body} {t : State} (h : b.Ends P Q)
    (ht : settleTdes b = .next t) :
    P t ∨ ∃ c info s, Q c s ∧ t = (if c = .noHdr then s else s.dropTree).latch c info := by
  cases b with
  | ok s =>
    cases ht
    exact .inl h
  | raised c info s =>
    cases ht
    exact .inr ⟨c, info, s, h, rfl⟩
  | unbounded => cases ht

/-! ### The tree deserializer -/

/-- A pass, or a token, has read `k` bytes and placed its node. -/
def PassMoves (k : Nat) (s t : State) : Prop :=
  s.nalloc.toNat ≠ 512 ∧ PassState s t ∧ (Memory.wf s.nm → Memory.wf t.nm) ∧
    t = { s with nm := t.nm, nalloc := s.nalloc + 1, rootv := t.rootv, root := t.root, stk := t.stk, treeOpen := t.treeOpen,
                 resp := t.resp, tcnt := s.tcnt + BitVec.ofNat 13 k, ipos := s.ipos + BitVec.ofNat 64 k }

/-- A pass, or a token, has raised after reading `k` bytes. -/
def PassStops (k : Nat) (s : State) (c : Cause) (t : State) : Prop :=
  DesCause c ∧ (t.nalloc = s.nalloc ∨ (s.nalloc.toNat ≠ 512 ∧ t.nalloc = s.nalloc + 1)) ∧
    t = { s with nm := t.nm, nalloc := t.nalloc, stk := t.stk, tcnt := s.tcnt + BitVec.ofNat 13 k,
                 ipos := s.ipos + BitVec.ofNat 64 k }

theorem pass_stops_at_end (s : State) : PassStops 0 s .treeTrunc s := ⟨.inl rfl, .inl rfl, by simp⟩

/-- Placing a node after `k` bytes have been read from `s`. -/
theorem place_moves {s u : State} (k : Nat) (nd : Node)
    (hu : u = { s with ipos := s.ipos + BitVec.ofNat 64 k, tcnt := s.tcnt + BitVec.ofNat 13 k }) :
    (place nd u).Ends (PassMoves k s) (PassStops k s) := by
  subst hu
  exact (place_all nd _).ends

/-- A token of one byte: `MARK`, `LIT`. -/
theorem getPlace_moves (s : State) (nd : Node) :
    (getByte s fun _ u => place nd u).Ends (PassMoves 1 s) (fun c t => ∃ k, k ≤ 1 ∧ PassStops k s c t) := by
  rcases getByte_cases s fun _ u => place nd u with ⟨h, -⟩ | ⟨b, h, -, -⟩
  · rw [h]
    exact ⟨0, by omega, pass_stops_at_end s⟩
  · rw [h]
    exact (place_moves (s := s) 1 nd rfl).mono (fun _ ht => ht) (fun _ _ ht => ⟨1, le_refl 1, ht⟩)

/-- The second byte of `ESC`, after the first has been read from `s`. -/
theorem getSecond_moves (s : State) (f : Byte → Node) :
    (getByte { s with ipos := s.ipos + 1, tcnt := s.tcnt + 1 } fun x u => place (f x) u).Ends (PassMoves 2 s)
      (fun c t => ∃ k, k ≤ 2 ∧ PassStops k s c t) := by
  rcases getByte_cases { s with ipos := s.ipos + 1, tcnt := s.tcnt + 1 } fun x u => place (f x) u
    with ⟨h, -⟩ | ⟨b, h, -, -⟩
  · rw [h]
    exact ⟨1, by omega, .inl rfl, .inl rfl, rfl⟩
  · rw [h]
    refine (place_moves (s := s) 2 (f b) ?_).mono (fun _ ht => ht) (fun _ _ ht => ⟨2, le_refl 2, ht⟩)
    rw [show s.ipos + 1 + 1 = s.ipos + BitVec.ofNat 64 2 by rw [BitVec.add_assoc]; rfl,
      show s.tcnt + 1 + 1 = s.tcnt + BitVec.ofNat 13 2 by rw [BitVec.add_assoc]; rfl]

/-- A token of two bytes: `ESC`. -/
theorem getGetPlace_moves (s : State) (f : Byte → Node) :
    (getByte s fun _ u => getByte u fun x u => place (f x) u).Ends (PassMoves 2 s)
      (fun c t => ∃ k, k ≤ 2 ∧ PassStops k s c t) := by
  rcases getByte_cases s fun _ u => getByte u fun x u => place (f x) u with ⟨h, -⟩ | ⟨b, h, -, -⟩
  · rw [h]
    exact ⟨0, by omega, pass_stops_at_end s⟩
  · rw [h]
    exact getSecond_moves s f

/-- What a pass of the loop changes (R118). -/
theorem tdesPass_moves (s : State) :
    (tdesPass s).Ends (fun t => ∃ k, k ≤ 2 ∧ PassMoves k s t) (fun c t => ∃ k, k ≤ 2 ∧ PassStops k s c t) := by
  unfold tdesPass
  rcases getByte_cases s _ with ⟨h, -⟩ | ⟨b, h, -, -⟩
  · rw [h]
    exact ⟨0, by omega, pass_stops_at_end s⟩
  · rw [h]
    have one : ∀ nd, (place nd { s with ipos := s.ipos + 1, tcnt := s.tcnt + 1 }).Ends
        (fun t => ∃ k, k ≤ 2 ∧ PassMoves k s t) (fun c t => ∃ k, k ≤ 2 ∧ PassStops k s c t) := fun nd =>
      (place_moves (s := s) 1 nd rfl).mono (fun _ ht => ⟨1, by omega, ht⟩) (fun _ _ ht => ⟨1, by omega, ht⟩)
    split
    · exact (getSecond_moves s fun x => .leaf x).mono (fun _ ht => ⟨2, le_refl 2, ht⟩) (fun _ _ ht => ht)
    · split
      · exact one _
      · exact one _

/-- What the loop changes from its top (R118). -/
theorem tdesLoop_moves (fuel : Nat) (s : State) (hn : s.nalloc.toNat ≤ 512) (ho : s.treeOpen = true) :
    (tdesLoop fuel s).Ends
      (fun t => ∃ k n, k ≤ 2 * n ∧ s.nalloc.toNat + n ≤ 512 ∧ (Memory.wf s.nm → Memory.wf t.nm) ∧
        t = { s with nm := t.nm, nalloc := s.nalloc + BitVec.ofNat 10 n, rootv := true, root := 0, stk := [],
                     treeOpen := false, resp := 0, tcnt := s.tcnt + BitVec.ofNat 13 k, ipos := s.ipos + BitVec.ofNat 64 k })
      (fun c t => DesCause c ∧ ∃ k n, k ≤ 2 * n + 2 ∧ s.nalloc.toNat + n ≤ 512 ∧
        t = { s with nm := t.nm, nalloc := s.nalloc + BitVec.ofNat 10 n, stk := t.stk, tcnt := s.tcnt + BitVec.ofNat 13 k,
                     ipos := s.ipos + BitVec.ofNat 64 k }) := by
  induction fuel generalizing s with
  | zero => simp [tdesLoop, ho, Body.Ends]
  | succ fuel ih =>
    rw [tdesLoop, if_pos ho]
    refine Body.Ends.bind ((tdesPass_moves s).mono (fun _ ht => ht) ?_) ?_
    · rintro c t ⟨k, hk, hc, hna, ht⟩
      refine ⟨hc, ?_⟩
      rcases hna with hna | ⟨hne, hna⟩
      · exact ⟨k, 0, by omega, by omega, by rw [ht, hna]; simp⟩
      · exact ⟨k, 1, by omega, by omega, by rw [ht, hna]; rfl⟩
    · rintro t ⟨k, hk, hne, hst, hw, ht⟩
      have hnt : t.nalloc = s.nalloc + 1 := by rw [ht]
      have hnt' : t.nalloc.toNat = s.nalloc.toNat + 1 := by rw [hnt, nalloc_succ (by omega)]
      rcases hst with ⟨hopen, -, hroot, hrootv, hresp⟩ | ⟨hclosed, hstk, hroot, hrootv, hresp⟩
      · have loop := ih t (by omega) hopen
        rw [hroot, hrootv, hresp, hopen] at ht
        refine loop.mono ?_ ?_
        · rintro u ⟨k', n', hk', hn', hw', hu⟩
          refine ⟨k + k', n' + 1, by omega, by omega, fun h => hw' (hw h), ?_⟩
          rw [ht] at hu
          rw [hu]
          simp [BitVec.ofNat_add, BitVec.add_assoc, BitVec.add_comm 1#10]
        · rintro c u ⟨hc, k', n', hk', hn', hu⟩
          refine ⟨hc, k + k', n' + 1, by omega, by omega, ?_⟩
          rw [ht] at hu
          rw [hu]
          simp [BitVec.ofNat_add, BitVec.add_assoc, BitVec.add_comm 1#10, ho]
      · have hdone : tdesLoop fuel t = .ok t := by
          cases fuel <;> simp [tdesLoop, hclosed]
        rw [hdone]
        refine ⟨k, 1, by omega, by omega, hw, ?_⟩
        rw [hroot, hrootv, hresp, hclosed, hstk] at ht
        rw [ht]
        rfl

/-- What `TDES` changes (R118, R120, R121, R163): a tree, the empty tree, nothing (`NO_HDR`), or a fault on the way. -/
theorem tdesBody_moves (s : State) :
    ((tdesStart s).bind (tdesLoop Config.tdesPasses)).Ends
      (fun t => ∃ k n, k ≤ 2 * n ∧ n ≤ 512 ∧ Memory.wf t.nm ∧
        t = { s with nm := t.nm, nalloc := BitVec.ofNat 10 n, rootv := t.rootv, root := 0, stk := [], treeOpen := false,
                     resp := 0, tcnt := BitVec.ofNat 13 k, ipos := s.ipos + BitVec.ofNat 64 k })
      (fun c t => (c = .noHdr ∧ t = s) ∨ (DesCause c ∧ ∃ k n, k ≤ 2 * n + 2 ∧ n ≤ 512 ∧
        t = { s with nm := t.nm, nalloc := BitVec.ofNat 10 n, rootv := false, root := 0, stk := t.stk, treeOpen := t.treeOpen,
                     tcnt := BitVec.ofNat 13 k, ipos := s.ipos + BitVec.ofNat 64 k })) := by
  unfold tdesStart
  split
  · simp only []
    split
    · exact ⟨0, 0, by omega, by omega, memory_wf_nil, by simp [State.setResp]⟩
    · split
      · exact .inr ⟨.inl rfl, 0, 0, by omega, by omega, by simp⟩
      · rw [Body.bind_ok]
        refine (tdesLoop_moves Config.tdesPasses
          { s with nm := [], nalloc := 0, rootv := false, root := 0, tcnt := 0, stk := [], treeOpen := true } ?_ rfl).mono ?_ ?_
        · simp
        · rintro t ⟨k, n, hk, hn, hw, ht⟩
          refine ⟨k, n, hk, by simpa using hn, hw memory_wf_nil, ?_⟩
          rw [ht]
          simp
        · rintro c t ⟨hc, k, n, hk, hn, ht⟩
          refine .inr ⟨hc, k, n, hk, by simpa using hn, ?_⟩
          rw [ht]
          simp
  · exact .inl ⟨rfl, rfl⟩

/-! ### The unpacker -/

/-- What the loop changes (R96): the unpacker's own fields and `SOUT`; it ends with no byte held. -/
theorem unpkLoop_moves (fuel : Nat) (s : State) :
    (unpkLoop fuel s).Ends (fun t => t.holdv = false ∧ ∃ syms, UnpkRel s t syms)
      (fun c t => UnpkCause c ∧ ∃ syms, UnpkRel s t syms) := by
  induction fuel generalizing s with
  | zero => trivial
  | succ fuel ih =>
    rw [unpkLoop]
    rcases s.inGet_cases with ⟨h, -⟩ | ⟨nb, h, -, -⟩
    · rw [h]
      exact (Body.All.ends (unpkEnd_all s)).mono (fun t ⟨hv, _, xs, _, ht⟩ => ⟨hv, xs, ht⟩)
        (fun c t ⟨hc, _, xs, _, ht⟩ => ⟨hc, xs, ht⟩)
    · rw [h]
      have step1 : UnpkRel s { s with ipos := s.ipos + 1 } [] := by simp [UnpkRel]
      refine Body.Ends.bind (P := fun t => ∃ syms, UnpkRel s t syms) ?_ ?_
      · split
        · refine (Body.All.ends (walkBits_all _ _)).mono ?_ ?_
          · rintro t ⟨xs, -, ht⟩
            exact ⟨xs, step1.trans ht.unpk⟩
          · rintro c t ⟨hc, xs, -, ht⟩
            exact ⟨by rcases hc with hc | hc <;> simp [UnpkCause, hc], xs, step1.trans ht.unpk⟩
        · exact ⟨[], step1⟩
      · rintro t ⟨xs, ht⟩
        have hold : UnpkRel t { t with hold := nb, holdv := true } [] := by simp [UnpkRel]
        refine (ih _).mono ?_ ?_
        · rintro u ⟨hv, ys, hu⟩
          exact ⟨hv, _, (ht.trans hold).trans hu⟩
        · rintro c u ⟨hc, ys, hu⟩
          exact ⟨hc, _, (ht.trans hold).trans hu⟩

/-- What `UNPK` changes (R96, R97, R101): its own fields and `SOUT`, or nothing (`NO_HDR`). -/
theorem unpkBody_moves (s : State) :
    (unpkBody s).Ends
      (fun t => ∃ syms, t = { s with
        sout := s.sout ++ syms, walk := t.walk, ipos := t.ipos, hold := t.hold, holdv := false, resp := 0 })
      (fun _ t => ∃ syms, t = { s with
        sout := s.sout ++ syms, walk := t.walk, ipos := t.ipos, hold := t.hold, holdv := t.holdv }) := by
  unfold unpkBody
  split
  · refine Body.Ends.bind ((unpkLoop_moves _ _).mono (fun _ ht => ht) ?_) ?_
    · rintro c t ⟨-, xs, ht⟩
      exact ⟨xs, ht⟩
    · rintro t ⟨hh, xs, ht⟩
      split
      · exact ⟨xs, ht⟩
      · refine ⟨xs, ?_⟩
        unfold UnpkRel at ht
        rw [hh] at ht
        rw [ht]
        rfl
  · exact ⟨[], by simp⟩

end Sys2Proof.Machine
end

