-- ==== Sys2Proof/Laws/PerInstr.lean ====
section
/-! SUPPORT. One lemma per instruction: its encoding lies under its row of the opcode table (30_encoding.md R79, R67). -/

namespace Sys2Proof.Laws.MatchesTable

open Sys2Proof Sys2Proof.Machine

/-- The row of R79 a command's word lies under, `none` for a token. -/
def row : Instr → Option (Word × Word)
  | .nop => some (0x00000000, 0xFFFFFFFF)
  | .rst => some (0x08000000, 0xFFFFFFFF)
  | .rdcsr _ => some (0x10000000, 0xFFFFFF00)
  | .putb _ => some (0x20000000, 0xFFFFFFFE)
  | .putc _ _ => some (0x28000000, 0xFFE00000)
  | .fin => some (0x30000000, 0xFFFFFFFF)
  | .nleaf _ _ => some (0x40000000, 0xF803FF00)
  | .nint _ _ _ => some (0x48000000, 0xF8000000)
  | .sroot _ => some (0x50000000, 0xF803FFFF)
  | .nrd _ => some (0x58000000, 0xF803FFFF)
  | .tser => some (0x60000000, 0xFFFFFFFF)
  | .tdes => some (0x68000000, 0xFFFFFFFF)
  | .hput => some (0x80000000, 0xFFFFFFFF)
  | .hget => some (0x88000000, 0xFFFFFFFF)
  | .hset _ => some (0x90000000, 0xFFFF0000)
  | .unpk => some (0xA0000000, 0xFFFFFFFF)
  | .mark => none
  | .esc _ => none
  | .lit _ => none

/-- A command's word has the bits its row fixes; a token has one byte, or the escape byte and a second one. -/
def Statement (i : Instr) : Prop :=
  ∀ c : Config,
    match row i with
    | some r => r ∈ opcodeMap ∧ ∃ w, encode c i = .word w ∧ w &&& r.2 = r.1
    | none => (∃ b, encode c i = .bytes [b]) ∨ ∃ b, encode c i = .bytes [c.esc, b]

theorem nop : Statement .nop := fun _ => ⟨by decide, _, rfl, by decide⟩

theorem rst : Statement .rst := fun _ => ⟨by decide, _, rfl, by decide⟩

theorem rdcsr (csr : BitVec 8) : Statement (.rdcsr csr) := fun _ => ⟨by decide, _, rfl, by
  ext k hk
  simp only [encRdcsr, BitVec.getElem_and, BitVec.getElem_or, BitVec.getElem_setWidth]
  interval_cases k <;> simp⟩

theorem putb (bit : Bool) : Statement (.putb bit) := fun _ => ⟨by decide, _, rfl, by cases bit <;> decide⟩

theorem putc (len : BitVec 5) (code : BitVec 16) : Statement (.putc len code) := fun _ => ⟨by decide, _, rfl, by
  ext k hk
  simp only [encPutc, BitVec.getElem_and, BitVec.getElem_or, BitVec.getElem_setWidth, BitVec.getElem_shiftLeft]
  interval_cases k <;> simp⟩

theorem fin : Statement .fin := fun _ => ⟨by decide, _, rfl, by decide⟩

theorem nleaf (idx : NodeIdx) (sym : Byte) : Statement (.nleaf idx sym) := fun _ => ⟨by decide, _, rfl, by
  ext k hk
  simp only [encNleaf, BitVec.getElem_and, BitVec.getElem_or, BitVec.getElem_setWidth, BitVec.getElem_shiftLeft]
  interval_cases k <;> simp⟩

theorem nint (idx left right : NodeIdx) : Statement (.nint idx left right) := fun _ => ⟨by decide, _, rfl, by
  ext k hk
  simp only [encNint, BitVec.getElem_and, BitVec.getElem_or, BitVec.getElem_setWidth, BitVec.getElem_shiftLeft]
  interval_cases k <;> simp⟩

theorem sroot (idx : NodeIdx) : Statement (.sroot idx) := fun _ => ⟨by decide, _, rfl, by
  ext k hk
  simp only [encSroot, BitVec.getElem_and, BitVec.getElem_or, BitVec.getElem_setWidth, BitVec.getElem_shiftLeft]
  interval_cases k <;> simp⟩

theorem nrd (idx : NodeIdx) : Statement (.nrd idx) := fun _ => ⟨by decide, _, rfl, by
  ext k hk
  simp only [encNrd, BitVec.getElem_and, BitVec.getElem_or, BitVec.getElem_setWidth, BitVec.getElem_shiftLeft]
  interval_cases k <;> simp⟩

theorem tser : Statement .tser := fun _ => ⟨by decide, _, rfl, by decide⟩

theorem tdes : Statement .tdes := fun _ => ⟨by decide, _, rfl, by decide⟩

theorem hput : Statement .hput := fun _ => ⟨by decide, _, rfl, by decide⟩

theorem hget : Statement .hget := fun _ => ⟨by decide, _, rfl, by decide⟩

theorem hset (imm16 : BitVec 16) : Statement (.hset imm16) := fun _ => ⟨by decide, _, rfl, by
  ext k hk
  simp only [encHset, BitVec.getElem_and, BitVec.getElem_or, BitVec.getElem_setWidth]
  interval_cases k <;> simp⟩

theorem unpk : Statement .unpk := fun _ => ⟨by decide, _, rfl, by decide⟩

theorem mark : Statement .mark := fun _ => .inl ⟨_, rfl⟩

theorem esc (sym : Byte) : Statement (.esc sym) := fun _ => .inr ⟨_, rfl⟩

theorem lit (sym : Byte) : Statement (.lit sym) := fun _ => .inl ⟨_, rfl⟩

end Sys2Proof.Laws.MatchesTable
end

