-- ==== Sys2Proof/Laws/Place.lean ====
section
/-! SUPPORT. Placing a token's node (42_tree_codec.md R118), exactly: which entries change, and what becomes of the open
nodes. -/

namespace Sys2Proof.Machine

/-- The open nodes after one more node has been hung under the innermost of them (R118): it stops waiting for its left
child, or, its right child hung, is closed. -/
def afterHang : List StkEntry → List StkEntry
  | [] => []
  | e :: below => if e.waitLeft then { node := e.node, waitLeft := false } :: below else below

@[simp] theorem afterHang_nil : afterHang [] = [] := rfl

@[simp] theorem afterHang_left (p : NodeIdx) (below : List StkEntry) :
    afterHang ({ node := p, waitLeft := true } :: below) = { node := p, waitLeft := false } :: below := rfl

@[simp] theorem afterHang_right (p : NodeIdx) (below : List StkEntry) :
    afterHang ({ node := p, waitLeft := false } :: below) = below := rfl

/-- What hanging a node does, exactly: the innermost open node gets the child it waits for; nothing else in node memory
changes. -/
theorem hang_spec (n : NodeIdx) (s : State) :
    hang n s = { s with nm := (hang n s).nm, stk := afterHang s.stk } ∧
    (∀ e below, s.stk = e :: below → ∀ l r, nmRead s.nm e.node.toNat = some (.internal l r) →
      nmRead (hang n s).nm e.node.toNat = some (if e.waitLeft then .internal n r else .internal l n)) ∧
    (∀ j, (∀ e below, s.stk = e :: below → j ≠ e.node.toNat) → nmRead (hang n s).nm j = nmRead s.nm j) := by
  unfold hang
  split
  · next h =>
    refine ⟨?_, by simp [h], fun _ _ => rfl⟩
    cases s
    simp only at h
    subst h
    rfl
  · next e below h =>
    split
    · next hw =>
      refine ⟨by rw [State.nmSetLeft_eq]; simp [h, afterHang, hw], ?_, ?_⟩
      · intro e' below' he l r hr
        rw [h] at he
        cases he
        rw [State.nmSetLeft_internal (l := l) (r := r) (by exact hr)]
        simp [State.nmSet, hw]
      · intro j hj
        unfold State.nmSetLeft
        split
        · exact nmRead_nmWrite_other _ (hj e below h)
        · rfl
    · next hw =>
      refine ⟨by rw [State.nmSetRight_eq]; simp [h, afterHang, hw], ?_, ?_⟩
      · intro e' below' he l r hr
        rw [h] at he
        cases he
        rw [State.nmSetRight_internal (l := l) (r := r) (by exact hr)]
        simp [State.nmSet, hw]
      · intro j hj
        unfold State.nmSetRight
        split
        · exact nmRead_nmWrite_other _ (hj e below h)
        · rfl

theorem nextNode_toNat {s : State} (h : s.nalloc.toNat < 512) : s.nextNode.toNat = s.nalloc.toNat := by
  simp only [State.nextNode, BitVec.toNat_setWidth]
  omega

/-- What `place` does where an entry is free: it goes on to open the node and to the end of its pass. -/
theorem place_open (nd : Node) {s : State} (hn : s.nalloc.toNat < 512) :
    place nd s = (openNode nd s.nextNode { s with
      nm := (hang s.nextNode (State.nmSet { s with nalloc := s.nalloc + 1 } s.nextNode nd)).nm, nalloc := s.nalloc + 1,
      stk := afterHang s.stk }).bind closePass := by
  have hne : ¬ s.nalloc.toNat = s.cfg.nodeCap.val := by
    show ¬ s.nalloc.toNat = 512
    omega
  rw [place, if_neg hne, (hang_spec s.nextNode (State.nmSet { s with nalloc := s.nalloc + 1 } s.nextNode nd)).1]
  rfl

/-- The same with node memory told entry by entry, where the innermost open node is not the free entry. -/
theorem place_spec (nd : Node) {s : State} (hn : s.nalloc.toNat < 512)
    (hp : ∀ e below, s.stk = e :: below → e.node.toNat ≠ s.nalloc.toNat) :
    ∃ m,
      place nd s = (openNode nd s.nextNode { s with nm := m, nalloc := s.nalloc + 1, stk := afterHang s.stk }).bind closePass ∧
      nmRead m s.nalloc.toNat = some nd ∧
      (∀ e below, s.stk = e :: below → ∀ l r, nmRead s.nm e.node.toNat = some (.internal l r) →
        nmRead m e.node.toNat = some (if e.waitLeft then .internal s.nextNode r else .internal l s.nextNode)) ∧
      (∀ j, j ≠ s.nalloc.toNat → (∀ e below, s.stk = e :: below → j ≠ e.node.toNat) → nmRead m j = nmRead s.nm j) := by
  have hi := nextNode_toNat hn
  obtain ⟨-, h2, h3⟩ := hang_spec s.nextNode (State.nmSet { s with nalloc := s.nalloc + 1 } s.nextNode nd)
  refine ⟨_, place_open nd hn, ?_, ?_, ?_⟩
  · rw [h3]
    · simp [State.nmSet, hi]
    · intro e below h
      exact (hp e below h).symm
  · intro e below h l r hr
    refine h2 e below h l r ?_
    simp only [State.nmSet]
    rw [nmRead_nmWrite_other]
    · exact hr
    · have := hp e below h
      omega
  · intro j hj hj'
    rw [h3 _ hj']
    simp only [State.nmSet]
    rw [nmRead_nmWrite_other]
    omega

/-- A leaf needs no room on the stack. -/
@[simp] theorem openNode_leaf (sym : Byte) (n : NodeIdx) (s : State) : openNode (.leaf sym) n s = .ok s := rfl

theorem openNode_of_room {s : State} (l r n : NodeIdx) (h : s.stk.length < 256) :
    openNode (.internal l r) n s = .ok { s with stk := { node := n, waitLeft := true } :: s.stk } := by
  simp only [openNode]
  rw [if_neg]
  show ¬ s.stk.length = 256
  omega

theorem openNode_of_full {s : State} (l r n : NodeIdx) (h : s.stk.length = 256) :
    openNode (.internal l r) n s = .raised .stkOvf (zext64 n) s := by
  simp only [openNode]
  rw [if_pos (by exact h)]

theorem closePass_of_open {s : State} (h : s.stk ≠ []) : closePass s = .ok { s with treeOpen := true } := by
  rw [closePass, if_pos h]

theorem closePass_of_done {s : State} (h : s.stk = []) (hl : s.cfg.checkTlen = false ∨ s.tcnt = s.htlen) :
    closePass s = .ok { s with root := 0, rootv := true, treeOpen := false, resp := 0 } := by
  rw [closePass, if_neg (not_not.mpr h), if_neg]
  rintro ⟨hc, hne⟩
  rcases hl with hl | hl
  · rw [hl] at hc
    cases hc
  · exact hne hl

theorem closePass_of_mismatch {s : State} (h : s.stk = []) (hc : s.cfg.checkTlen = true) (hne : s.tcnt ≠ s.htlen) :
    closePass s = .raised .tlenMismatch (zext64 s.tcnt) s := by
  rw [closePass, if_neg (not_not.mpr h), if_pos ⟨hc, hne⟩]

end Sys2Proof.Machine
end

