-- ==== Sys2Proof/Laws/SerWalk.lean ====
section
/-! SUPPORT. The serializer's loop against the pre-order walk over node memory (42_tree_codec.md R112, R116), exactly: what
one entry does, and where the loop stands when a walk has been made. -/

namespace Sys2Proof.Machine

/-- The stack of `TSER` with these entries still to come, next first. -/
def todoStk (todo : List NodeIdx) : List StkEntry := todo.map fun i => { node := i, waitLeft := false }

@[simp] theorem todoStk_nil : todoStk [] = [] := rfl

@[simp] theorem todoStk_cons (i : NodeIdx) (todo : List NodeIdx) :
    todoStk (i :: todo) = { node := i, waitLeft := false } :: todoStk todo := rfl

@[simp] theorem todoStk_length (todo : List NodeIdx) : (todoStk todo).length = todo.length := List.length_map _

/-- The state after `bs` have been appended, with the entries of `todo` still to come. -/
def State.serialized (s : State) (bs : List Byte) (todo : List NodeIdx) : State :=
  { s with tlen := s.tlen + BitVec.ofNat 13 bs.length, cout := s.cout ++ bs, stk := todoStk todo }

theorem State.serialized_tlen_toNat {s : State} {bs : List Byte} {todo : List NodeIdx}
    (h : s.tlen.toNat + bs.length ≤ 8191) : (s.serialized bs todo).tlen.toNat = s.tlen.toNat + bs.length := by
  simp only [State.serialized, BitVec.toNat_add, BitVec.toNat_ofNat]
  omega

theorem State.serialized_serialized (s : State) (bs cs : List Byte) (todo rest : List NodeIdx) :
    (s.serialized bs todo).serialized cs rest = s.serialized (bs ++ cs) rest := by
  simp [State.serialized, BitVec.ofNat_add, BitVec.add_assoc]

/-- Two bytes one after the other. -/
theorem serialized_pair (s : State) (b c : Byte) (stk : List StkEntry) :
    ({ s with tlen := s.tlen + 1 + 1, cout := s.cout ++ [b] ++ [c], stk := stk } : State) =
      { s with tlen := s.tlen + BitVec.ofNat 13 2, cout := s.cout ++ [b, c], stk := stk } := by
  rw [BitVec.add_assoc, List.append_assoc]
  rfl

/-- An invalid entry is `BAD_NODE` with its index (R112). -/
theorem tserPass_badNode {s : State} {n : NodeIdx} (h : s.nmGet n = none) :
    tserPass n s = .raised .badNode (zext64 n) s := by
  simp only [tserPass, h]

/-- A leaf that fits is appended (R112). -/
theorem tserPass_leaf {s : State} {n : NodeIdx} {sym : Byte} {todo : List NodeIdx} (h : s.nmGet n = some (.leaf sym))
    (hs : s.stk = todoStk todo) (hl : s.tlen.toNat + (nodeBytes s.cfg (.leaf sym)).length ≤ 8191) :
    tserPass n s = .ok (s.serialized (nodeBytes s.cfg (.leaf sym)) todo) := by
  simp only [tserPass, h]
  simp only [nodeBytes, Tree.ser] at hl ⊢
  split
  · next hr =>
    rw [if_pos hr] at hl
    simp only [List.length_cons, List.length_nil] at hl
    rw [emit_of_room _ _ (by omega), Body.bind_ok, emit_of_room, State.serialized, ← hs]
    · exact congrArg Body.ok (serialized_pair s _ _ s.stk)
    · rw [tlen_succ] <;> omega
  · next hr =>
    rw [if_neg hr] at hl
    simp only [List.length_cons, List.length_nil] at hl
    rw [Body.bind_ok, emit_of_room _ _ (by omega), State.serialized, ← hs]
    rfl

/-- An internal node that fits, with room for its children, is appended, and its children are next (R112). -/
theorem tserPass_internal {s : State} {n l r : NodeIdx} {todo : List NodeIdx} (h : s.nmGet n = some (.internal l r))
    (hs : s.stk = todoStk todo) (hl : s.tlen.toNat < 8191) (hd : todo.length < 255) :
    tserPass n s = .ok (s.serialized [s.cfg.mark] (l :: r :: todo)) := by
  simp only [tserPass, h]
  rw [emit_of_room _ _ hl, Body.bind_ok, push_of_room, Body.bind_ok, push_of_room]
  · rw [State.serialized, todoStk_cons, todoStk_cons, ← hs]
    rfl
  · simp only [List.length_cons, hs, todoStk_length]
    omega
  · simp only [hs, todoStk_length]
    omega

/-- An entry whose bytes do not all fit is `TLEN_OVF` with its index, after the bytes that fit (R112). -/
theorem tserPass_tlenOvf {s : State} {n : NodeIdx} {nd : Node} {todo : List NodeIdx} (h : s.nmGet n = some nd)
    (hs : s.stk = todoStk todo) (hf : s.tlen.toNat ≤ 8191) (hl : 8191 < s.tlen.toNat + (nodeBytes s.cfg nd).length) :
    tserPass n s =
      .raised .tlenOvf (zext64 n) (s.serialized ((nodeBytes s.cfg nd).take (8191 - s.tlen.toNat)) todo) := by
  have none : s.serialized [] todo = s := by simp [State.serialized, ← hs]
  cases nd with
  | internal l r =>
    have h8 : s.tlen.toNat = 8191 := by
      simp only [nodeBytes, List.length_cons, List.length_nil] at hl
      omega
    simp only [tserPass, h]
    rw [emit_of_full _ _ h8, h8, show (8191 - 8191 : Nat) = 0 from rfl, List.take_zero, none]
    rfl
  | leaf sym =>
    simp only [tserPass, h]
    simp only [nodeBytes, Tree.ser] at hl ⊢
    split
    · next hr =>
      rw [if_pos hr] at hl
      simp only [List.length_cons, List.length_nil] at hl
      rcases (by omega : s.tlen.toNat = 8191 ∨ s.tlen.toNat = 8190) with h8 | h8
      · rw [emit_of_full _ _ h8, h8, show (8191 - 8191 : Nat) = 0 from rfl, List.take_zero, none]
        rfl
      · rw [emit_of_room _ _ (by omega), Body.bind_ok, emit_of_full, h8, State.serialized, ← hs]
        · rfl
        · rw [tlen_succ] <;> omega
    · next hr =>
      rw [if_neg hr] at hl
      simp only [List.length_cons, List.length_nil] at hl
      have h8 : s.tlen.toNat = 8191 := by omega
      rw [Body.bind_ok, emit_of_full _ _ h8, h8, show (8191 - 8191 : Nat) = 0 from rfl, List.take_zero, none]

/-- An internal node with 255 entries below it on the stack is `STK_OVF` with its left child, after its marker (R112). -/
theorem tserPass_stkOvf {s : State} {n l r : NodeIdx} (h : s.nmGet n = some (.internal l r)) (hd : s.stk.length = 255)
    (hl : s.tlen.toNat < 8191) :
    ∃ stk, tserPass n s =
      .raised .stkOvf (zext64 l) { s with tlen := s.tlen + 1, cout := s.cout ++ [s.cfg.mark], stk := stk } := by
  refine ⟨{ node := r, waitLeft := false } :: s.stk, ?_⟩
  simp only [tserPass, h]
  rw [emit_of_room _ _ hl, Body.bind_ok, push_of_room, Body.bind_ok, push_of_full]
  · simp [hd]
  · show s.stk.length < 256
    omega

/-- The loop along a walk: it has appended the walk's bytes, and its fuel has fallen by at most one for each. -/
theorem tserLoop_of_walk {c : Config} {m : List (Nat × Node)} {todo rest : List NodeIdx} {bs : List Byte}
    (w : SerWalk c m todo bs rest) : ∀ (fuel : Nat) (s : State), s.cfg = c → s.nm = m → s.stk = todoStk todo →
      s.tlen.toNat + bs.length ≤ 8191 → bs.length ≤ fuel →
      ∃ fuel', fuel ≤ fuel' + bs.length ∧ tserLoop fuel s = tserLoop fuel' (s.serialized bs rest) := by
  induction w with
  | stop todo =>
    intro fuel s _ _ hs _ _
    exact ⟨fuel, by simp, by simp [State.serialized, ← hs]⟩
  | @leaf i sym todo rest bs h _ ih =>
    intro fuel s hc hm hs hl hfuel
    subst hc hm
    have hpos : 1 ≤ (nodeBytes s.cfg (.leaf sym)).length := by
      simp only [nodeBytes, Tree.ser]
      split <;> simp
    simp only [List.length_append] at hl hfuel
    obtain ⟨fuel, rfl⟩ : ∃ k, fuel = k + 1 := ⟨fuel - 1, by omega⟩
    have pass := tserPass_leaf (s := { s with stk := todoStk todo }) (todo := todo) (by exact h) rfl
      (by show s.tlen.toNat + (nodeBytes s.cfg (.leaf sym)).length ≤ 8191; omega)
    have ht := State.serialized_tlen_toNat (s := s) (bs := nodeBytes s.cfg (.leaf sym)) (todo := todo) (by omega)
    obtain ⟨fuel', hf', he⟩ := ih fuel (s.serialized (nodeBytes s.cfg (.leaf sym)) todo) rfl rfl rfl (by omega) (by omega)
    refine ⟨fuel', by simp only [List.length_append]; omega, ?_⟩
    rw [tserLoop, hs, todoStk_cons]
    simp only [pass]
    rw [Body.bind_ok, ← State.serialized_serialized s _ _ todo rest, ← he]
    rfl
  | @node i l r todo rest bs h hd _ ih =>
    intro fuel s hc hm hs hl hfuel
    subst hc hm
    simp only [List.length_cons] at hl hfuel
    obtain ⟨fuel, rfl⟩ : ∃ k, fuel = k + 1 := ⟨fuel - 1, by omega⟩
    have pass := tserPass_internal (s := { s with stk := todoStk todo }) (todo := todo) (by exact h) rfl
      (by show s.tlen.toNat < 8191; omega) hd
    have ht := State.serialized_tlen_toNat (s := s) (bs := [s.cfg.mark]) (todo := l :: r :: todo) (by simp; omega)
    simp only [List.length_cons, List.length_nil] at ht
    obtain ⟨fuel', hf', he⟩ := ih fuel (s.serialized [s.cfg.mark] (l :: r :: todo)) rfl rfl rfl (by omega) (by omega)
    refine ⟨fuel', by simp only [List.length_cons]; omega, ?_⟩
    rw [tserLoop, hs, todoStk_cons]
    simp only [pass]
    rw [Body.bind_ok, show s.cfg.mark :: bs = [s.cfg.mark] ++ bs from rfl,
      ← State.serialized_serialized s _ _ (l :: r :: todo) rest, ← he]
    rfl

/-- The body of `TSER` at the end of a walk from the root (R112): the loop goes on from there, with a pass left. -/
theorem tserBody_of_walk {s : State} {bs : List Byte} {rest : List NodeIdx} (hr : s.rootv = true)
    (w : SerWalk s.cfg s.nm [s.root] bs rest) (hl : bs.length ≤ 8191) :
    ∃ fuel, tserBody s =
      (tserLoop (fuel + 1) { s with tlen := BitVec.ofNat 13 bs.length, cout := s.cout ++ bs, stk := todoStk rest }).bind
        fun t => .ok (t.setResp 0) := by
  obtain ⟨fuel, hf, he⟩ := tserLoop_of_walk w Config.tserPasses { s with tlen := 0, stk := todoStk [s.root] } rfl rfl rfl
    (by simpa using hl) (by show bs.length ≤ 8192; omega)
  have hf : 8192 ≤ fuel + bs.length := hf
  refine ⟨fuel - 1, ?_⟩
  rw [show fuel - 1 + 1 = fuel by omega]
  unfold tserBody
  simp only []
  rw [if_pos (by exact hr), push_of_room _ (by simp), Body.bind_ok]
  refine congrArg (fun b => Body.bind b _) (he.trans ?_)
  simp [State.serialized]

end Sys2Proof.Machine
end

