-- ==== Sys2Proof/Laws/Step.lean ====
section
/-! SUPPORT. What an instruction and a step can do, said once for every state: the invariants follow from these. -/

namespace Sys2Proof.Machine

/-- What a token leaves (R118): its node placed after `k` bytes, or a fault latched with no tree left. -/
def TokenEffect (k : Nat) (s t : State) : Prop :=
  PassMoves k s t ∨ ∃ c info j u, j ≤ k ∧ PassStops j s c u ∧ t = (u.dropTree).latch c info

/-- What an instruction leaves when no fault is latched before it. -/
def Effect (s t : State) : Instr → Prop
  | .nop => t = { s with resp := 0 }
  | .rst => t = s.rst
  | .rdcsr _ => (∃ v, t = { s with resp := v }) ∨ ∃ info, t = s.latch .illegal info
  | .putb b => (s.fdone = false ∧ t = (pushBit b s).setResp 0) ∨ ∃ info, t = s.latch .seq info
  | .putc len code =>
    (s.fdone = false ∧ t = (pushBits (codeBits len code) s).setResp 0) ∨ ∃ c info, t = s.latch c info
  | .fin => t = (finish s).setResp 0
  | .nleaf idx sym => t = (s.nmSet idx (.leaf sym)).setResp 0
  | .nint idx l r => t = (s.nmSet idx (.internal l r)).setResp 0
  | .sroot idx => t = { s with root := idx, rootv := true, resp := 0 }
  | .nrd _ => ∃ v, t = { s with resp := v }
  | .tser => ∃ bs, (t = { s with tlen := t.tlen, cout := s.cout ++ bs, stk := [], resp := 0 }) ∨
      ∃ (c : Cause) (info : Resp) (u : State), u = { s with tlen := u.tlen, cout := s.cout ++ bs, stk := u.stk } ∧ t = u.latch c info
  | .tdes => ∃ k n, k ≤ 1026 ∧ n ≤ 512 ∧
      ((Memory.wf t.nm ∧
        t = { s with nm := t.nm, nalloc := BitVec.ofNat 10 n, rootv := t.rootv, root := 0, stk := [], treeOpen := false,
                     resp := 0, tcnt := BitVec.ofNat 13 k, ipos := s.ipos + BitVec.ofNat 64 k }) ∨
       (∃ info, t = s.latch .noHdr info) ∨
       ∃ (c : Cause) (info : Resp) (u : State), t = u.dropTree.latch c info ∧
        u = { s with nm := u.nm, nalloc := BitVec.ofNat 10 n, rootv := false, root := 0, stk := u.stk, treeOpen := u.treeOpen,
                     tcnt := BitVec.ofNat 13 k, ipos := s.ipos + BitVec.ofNat 64 k })
  | .hput => ∃ b0 b1, t = { s with cout := s.cout ++ [b0, b1], resp := 0 }
  | .hget => (∃ p n v, t = { s with pad := p, htlen := n, hv := true, ipos := s.ipos + 2, resp := v }) ∨
      ∃ info, t = s.latch .hdrTrunc info
  | .hset _ => ∃ p n, t = { s with pad := p, htlen := n, hv := true, resp := 0 }
  | .unpk => ∃ syms,
      (t = { s with sout := s.sout ++ syms, walk := t.walk, ipos := t.ipos, hold := t.hold, holdv := false, resp := 0 }) ∨
      ∃ (c : Cause) (info : Resp) (u : State), u = { s with sout := s.sout ++ syms, walk := u.walk, ipos := u.ipos, hold := u.hold, holdv := u.holdv } ∧
        t = u.latch c info
  | .mark => TokenEffect 1 s t
  | .esc _ => TokenEffect 2 s t
  | .lit _ => TokenEffect 1 s t

theorem illegalWord_next {w : Word} {s t : State} (h : illegalWord w s = .next t) :
    (s.fault = true ∧ t = { s with resp := 0 }) ∨ (s.fault = false ∧ t = s.latch .illegal (zext64 w)) := by
  rcases unlessFault_next h with ⟨hf, ht⟩ | ⟨hf, ht⟩
  · exact .inl ⟨hf, ht⟩
  · cases ht
    exact .inr ⟨hf, rfl⟩

/-- A token's body, settled. -/
theorem token_next {b : Body} {k : Nat} {s t : State}
    (hb : b.Ends (PassMoves k s) (fun c u => ∃ j, j ≤ k ∧ PassStops j s c u)) (h : settleTdes b = .next t) :
    TokenEffect k s t := by
  rcases settleTdes_ends hb h with ht | ⟨c, info, u, ⟨j, hj, hu⟩, ht⟩
  · exact .inl ht
  · refine .inr ⟨c, info, j, u, hj, hu, ?_⟩
    have hc : c ≠ .noHdr := by rcases hu.1 with h | h | h | h <;> simp [h]
    rw [ht, if_neg hc]

/-- What an instruction that answers a next state can have done: refused in the fault state (R156), or its effect. The
instructions the fault state still performs change the response, or are `RST`. -/
theorem exec_next {i : Instr} {s t : State} (h : exec i s = .next t) :
    (s.fault = true ∧ ((∃ v, t = { s with resp := v }) ∨ (i = .rst ∧ t = s.rst))) ∨ (s.fault = false ∧ Effect s t i) := by
  by_cases hf : s.fault = true
  · refine .inl ⟨hf, ?_⟩
    cases i
    case nop =>
      cases h
      exact .inl ⟨_, rfl⟩
    case rst =>
      cases h
      exact .inr ⟨rfl, rfl⟩
    case nrd =>
      cases h
      exact .inl ⟨_, rfl⟩
    case rdcsr csr =>
      simp only [exec, execRdcsr] at h
      split at h
      · cases h
        exact .inl ⟨_, rfl⟩
      · rcases illegalWord_next h with ⟨_, ht⟩ | ⟨hf', _⟩
        · exact .inl ⟨_, ht⟩
        · simp [hf] at hf'
    all_goals
      rcases unlessFault_next h with ⟨_, ht⟩ | ⟨hf', _⟩
      · exact .inl ⟨_, ht⟩
      · simp [hf] at hf'
  · have hf : s.fault = false := by simpa using hf
    refine .inr ⟨hf, ?_⟩
    cases i
    case nop =>
      cases h
      rfl
    case rst =>
      cases h
      rfl
    case nrd =>
      cases h
      exact ⟨_, rfl⟩
    case rdcsr csr =>
      simp only [exec, execRdcsr] at h
      split at h
      · cases h
        exact .inl ⟨_, rfl⟩
      · rcases illegalWord_next h with ⟨hf', _⟩ | ⟨_, ht⟩
        · simp [hf] at hf'
        · exact .inr ⟨_, ht⟩
    case putb b =>
      simp only [exec, execPutb, unlessFault_of_no_fault hf] at h
      split at h
      · cases h
        exact .inr ⟨_, rfl⟩
      · next hd =>
        cases h
        exact .inl ⟨by simpa using hd, rfl⟩
    case putc len code =>
      simp only [exec, execPutc, unlessFault_of_no_fault hf] at h
      split at h
      · cases h
        exact .inr ⟨_, _, rfl⟩
      · split at h
        · cases h
          exact .inr ⟨_, _, rfl⟩
        · next hd =>
          cases h
          exact .inl ⟨by simpa using hd, rfl⟩
    case fin =>
      rw [exec_fin hf] at h
      cases h
      rfl
    case nleaf idx sym =>
      rw [exec_nleaf _ _ hf] at h
      cases h
      rfl
    case nint idx l r =>
      rw [exec_nint _ _ _ hf] at h
      cases h
      rfl
    case sroot idx =>
      rw [exec_sroot _ hf] at h
      cases h
      rfl
    case tser =>
      rw [exec_tser hf] at h
      rcases settle_ends (Body.All.ends ((tserBody_all s).mono (fun _ h => h) (fun _ _ _ h => h.2))) h with
        ⟨bs, -, ht⟩ | ⟨c, info, u, ⟨bs, -, hu⟩, ht⟩
      · exact ⟨bs, .inl ht⟩
      · exact ⟨bs, .inr ⟨c, info, u, hu, ht⟩⟩
    case tdes =>
      rw [exec_tdes hf] at h
      rcases settleTdes_ends (tdesBody_moves s) h with ⟨k, n, hk, hn, hw, ht⟩ | ⟨c, info, u, ⟨rfl, rfl⟩ | ⟨hc, k, n, hk, hn, hu⟩, ht⟩
      · exact ⟨k, n, by omega, hn, .inl ⟨hw, ht⟩⟩
      · exact ⟨0, 0, by omega, by omega, .inr (.inl ⟨info, ht⟩)⟩
      · refine ⟨k, n, by omega, hn, .inr (.inr ⟨c, info, u, ?_, hu⟩)⟩
        have hne : c ≠ .noHdr := by rcases hc with h | h | h | h <;> simp [h]
        rw [ht, if_neg hne]
    case hput =>
      rw [exec_hput hf] at h
      cases h
      exact ⟨(hdrBytes s.cfg s.hdr).1, (hdrBytes s.cfg s.hdr).2, by simp [State.cOut, State.setResp]⟩
    case hget =>
      rw [exec_hget hf] at h
      unfold hgetBody at h
      split at h
      · cases h
        exact .inr ⟨_, rfl⟩
      · rcases s.inGet_cases with ⟨hg, -⟩ | ⟨b0, hg, -, -⟩
        · rw [hg] at h
          cases h
          exact .inr ⟨_, rfl⟩
        · rw [hg] at h
          rcases State.inGet_cases { s with ipos := s.ipos + 1 } with ⟨hg', -⟩ | ⟨b1, hg', -, -⟩
          · simp only [hg'] at h
            cases h
            exact .inr ⟨_, rfl⟩
          · simp only [hg'] at h
            cases h
            refine .inl ⟨hdrPad (hdrOfBytes s.cfg b0 b1), hdrTlen (hdrOfBytes s.cfg b0 b1), zext64 (hdrOfBytes s.cfg b0 b1), ?_⟩
            rw [show s.ipos + 2 = s.ipos + 1 + 1 by rw [BitVec.add_assoc]; rfl]
            rfl
    case hset imm16 =>
      rw [exec_hset _ hf] at h
      cases h
      exact ⟨_, _, rfl⟩
    case unpk =>
      rw [exec_unpk hf] at h
      rcases settle_ends (unpkBody_moves s) h with ⟨syms, ht⟩ | ⟨c, info, u, ⟨syms, hu⟩, ht⟩
      · exact ⟨syms, .inl ht⟩
      · exact ⟨syms, .inr ⟨c, info, u, hu, ht⟩⟩
    case mark =>
      rw [exec_mark hf] at h
      exact token_next (getPlace_moves s _) h
    case esc sym =>
      rw [exec_esc sym hf] at h
      exact token_next (getGetPlace_moves s fun _ => .leaf sym) h
    case lit sym =>
      rw [exec_lit sym hf] at h
      exact token_next (getPlace_moves s _) h

/-- A token's instruction is one of the three. -/
theorem decodeToken_ok {c : Config} {bs more : List Byte} {i : Instr} (h : decodeToken c bs = .ok (i, more)) :
    i = .mark ∨ (∃ sym, i = .esc sym) ∨ ∃ sym, i = .lit sym := by
  unfold decodeToken at h
  split at h
  · cases h
  · split at h
    · split at h
      · cases h
      · cases h
        exact .inr (.inl ⟨_, rfl⟩)
    · split at h
      · cases h
        exact .inl rfl
      · cases h
        exact .inr (.inr ⟨_, rfl⟩)

/-- What a step that answers a next state can have done (R10, R80, R169; log entries 1 and 5): nothing, with no word
presented; an instruction from a command word; the fault of an illegal word; or a token of a `TDES` in its loop. -/
theorem step_next {s t : State} (h : step s = .next t) :
    (s.treeOpen = false ∧ s.cmds = [] ∧ t = s) ∨
    (s.treeOpen = false ∧ ∃ w later i, s.cmds = w :: later ∧ decodeWord w = .ok i ∧ exec i (s.withCmds later) = .next t) ∨
    (s.treeOpen = false ∧ ∃ w later e, s.cmds = w :: later ∧ decodeWord w = .error e ∧
      ((s.fault = true ∧ t = { s with cmds := later, resp := 0 }) ∨
       (s.fault = false ∧ t = (s.withCmds later).latch .illegal (zext64 w)))) ∨
    (s.treeOpen = true ∧
      ((s.fault = true ∧ t = { s with resp := 0 }) ∨ (s.fault = false ∧ ∃ k, k ≤ 2 ∧ TokenEffect k s t))) := by
  unfold step fetch at h
  by_cases ho : s.treeOpen = true
  · rw [if_pos ho] at h
    refine .inr (.inr (.inr ⟨ho, ?_⟩))
    simp only at h
    split at h
    · next i more hd =>
      rcases exec_next h with ⟨hf, ⟨v, ht⟩ | ⟨hi, -⟩⟩ | ⟨hf, he⟩
      · rcases decodeToken_ok hd with rfl | ⟨sym, rfl⟩ | ⟨sym, rfl⟩ <;>
        · rcases unlessFault_next h with ⟨_, ht'⟩ | ⟨hf', _⟩
          · exact .inl ⟨hf, ht'⟩
          · simp [hf] at hf'
      · rcases decodeToken_ok hd with rfl | ⟨sym, rfl⟩ | ⟨sym, rfl⟩ <;> cases hi
      · refine .inr ⟨hf, ?_⟩
        rcases decodeToken_ok hd with rfl | ⟨sym, rfl⟩ | ⟨sym, rfl⟩
        · exact ⟨1, by omega, he⟩
        · exact ⟨2, le_refl 2, he⟩
        · exact ⟨1, by omega, he⟩
    · rcases unlessFault_next h with ⟨hf, ht⟩ | ⟨hf, ht⟩
      · exact .inl ⟨hf, ht⟩
      · refine .inr ⟨hf, ?_⟩
        rcases settleTdes_ends (tdesPass_moves s) ht with ⟨k, hk, hm⟩ | ⟨c, info, u, ⟨k, hk, hu⟩, hu'⟩
        · exact ⟨k, hk, .inl hm⟩
        · refine ⟨k, hk, .inr ⟨c, info, k, u, le_refl k, hu, ?_⟩⟩
          have hc : c ≠ .noHdr := by rcases hu.1 with h | h | h | h <;> simp [h]
          rw [hu', if_neg hc]
  · have ho : s.treeOpen = false := by simpa using ho
    simp only [ho] at h
    revert h
    cases hc : s.cmds with
    | nil =>
      intro h
      cases h
      exact .inl ⟨ho, rfl, rfl⟩
    | cons w later =>
      simp only [Bool.false_eq_true, if_false]
      cases hd : decodeWord w with
      | ok i => exact fun h => .inr (.inl ⟨ho, w, later, i, rfl, hd, h⟩)
      | error e => exact fun h => .inr (.inr (.inl ⟨ho, w, later, e, rfl, hd, illegalWord_next h⟩))

end Sys2Proof.Machine
end

