-- ==== Sys2Proof/Laws/UnpkWalk.lean ====
section
/-! SUPPORT. The unpacker's loop against the walk over the payload's significant bits (41_bit_unpacker.md R96): the byte it
holds back is what cuts the padding off. -/

namespace Sys2Proof.Machine

/-- Change the state a body has come to. -/
def Body.map (f : State → State) : Body → Body
  | .ok s => .ok (f s)
  | .raised c info s => .raised c info (f s)
  | .unbounded => .unbounded

/-- The unpacker's place in the input: what the walk neither reads nor writes when there is a tree. -/
def State.atInput (s : State) (p : BitVec 64) (h : Byte) (v : Bool) : State := { s with ipos := p, hold := h, holdv := v }

/-- A significant bit is decoded alike wherever the input stands (R97). -/
theorem walkBit_atInput (b : Bool) {s : State} (p : BitVec 64) (h : Byte) (v : Bool) (hr : s.rootv = true) :
    walkBit b (s.atInput p h v) = (walkBit b s).map (·.atInput p h v) := by
  have hg : ∀ i, (s.atInput p h v).nmGet i = s.nmGet i := fun _ => rfl
  have hl : ∀ i, (s.atInput p h v).nmLeft i = s.nmLeft i := fun _ => rfl
  have hri : ∀ i, (s.atInput p h v).nmRight i = s.nmRight i := fun _ => rfl
  have hroot : (s.atInput p h v).root = s.root := rfl
  have hwalk : (s.atInput p h v).walk = s.walk := rfl
  have hrv : (s.atInput p h v).rootv = true := hr
  simp only [walkBit, hr, hrv, if_true, hg, hroot, hl, hri, hwalk]
  cases s.nmGet s.root with
  | none => rfl
  | some nd =>
    cases nd with
    | leaf sym => rfl
    | internal l r =>
      simp only []
      cases s.nmGet (if b = true then s.nmRight s.walk else s.nmLeft s.walk) with
      | none => rfl
      | some nd => cases nd <;> rfl

/-- A significant bit where root and walk stand at internal nodes (R97): to the child; a leaf is emitted. -/
theorem walkBit_at_internal (b : Bool) {s : State} {rl rr l r : NodeIdx} (hv : s.rootv = true)
    (h0 : s.nmGet s.root = some (.internal rl rr)) (hw : s.nmGet s.walk = some (.internal l r)) :
    walkBit b s =
      match s.nmGet (if b then r else l) with
      | none => .raised .badNode (zext64 (if b then r else l)) s
      | some (.leaf sym) => .ok { s with walk := s.root, sout := s.sout ++ [sym] }
      | some (.internal _ _) => .ok { s with walk := if b then r else l } := by
  have hl : s.nmLeft s.walk = l := by simp [State.nmLeft, hw]
  have hr : s.nmRight s.walk = r := by simp [State.nmRight, hw]
  unfold walkBit
  rw [if_pos hv]
  simp only [h0, hl, hr]
  cases s.nmGet (if b then r else l) with
  | none => rfl
  | some nd => cases nd <;> rfl

/-- A significant bit at a root that is a leaf (R97). -/
theorem walkBit_at_leaf (b : Bool) {s : State} {sym : Byte} (hv : s.rootv = true) (h0 : s.nmGet s.root = some (.leaf sym)) :
    walkBit b s = .ok { s with sout := s.sout ++ [sym] } := by
  unfold walkBit
  rw [if_pos hv]
  simp only [h0]
  rfl

theorem walkBits_ok_rootv {bits : List Bool} {s u : State} (h : walkBits bits s = .ok u) : u.rootv = s.rootv := by
  have := walkBits_all bits s
  rw [h] at this
  obtain ⟨_, _, hu⟩ := this
  rw [hu]

theorem walkBits_atInput (bits : List Bool) {s : State} (p : BitVec 64) (h : Byte) (v : Bool) (hr : s.rootv = true) :
    walkBits bits (s.atInput p h v) = (walkBits bits s).map (·.atInput p h v) := by
  induction bits generalizing s with
  | nil => rfl
  | cons b bits ih =>
    rw [walkBits, walkBits, walkBit_atInput b p h v hr]
    have hall := walkBit_all b s
    revert hall
    cases walkBit b s with
    | ok u =>
      rintro ⟨_, _, hu⟩
      exact ih (by rw [hu]; exact hr)
    | raised c info u => exact fun _ => rfl
    | unbounded => exact fun _ => rfl

/-- Two runs of bits are one. -/
theorem walkBits_append (xs ys : List Bool) (s : State) :
    walkBits (xs ++ ys) s = (walkBits xs s).bind (walkBits ys) := by
  induction xs generalizing s with
  | nil => rfl
  | cons x xs ih =>
    rw [List.cons_append, walkBits, walkBits, Body.bind_assoc]
    congr 1
    funext u
    exact ih u

theorem highBits_eight (b : Byte) : highBits b 8 = (List.range 8).map fun k => b.getLsbD (7 - k) := rfl

theorem msbBits_cons (b : Byte) (bs : List Byte) : msbBits (b :: bs) = highBits b 8 ++ msbBits bs := rfl

/-- With a byte behind it, all eight bits of a byte are significant (R12). -/
theorem significant_cons_cons (b c : Byte) (bs : List Byte) {pad : Nat} (h : pad ≤ 7) :
    significant (b :: c :: bs) pad = highBits b 8 ++ significant (c :: bs) pad := by
  rw [significant, msbBits_cons, List.take_append, List.take_of_length_le]
  · rw [significant, highBits_length b (le_refl 8)]
    congr 2
    simp only [List.length_cons]
    omega
  · rw [highBits_length b (le_refl 8)]
    simp only [List.length_cons]
    omega

/-- Of the final byte the high `8 - pad` bits are significant (R12, R96). -/
theorem significant_single (b : Byte) (pad : Nat) : significant [b] pad = highBits b (8 - pad) := by
  rw [significant, msbBits_cons]
  simp [highBits, msbBits, List.take_take]

/-- The bytes whose bits the loop has not decoded yet: the held one and those that remain. -/
def State.undecoded (s : State) : List Byte := if s.holdv then s.hold :: s.rest else s.rest

/-- Where the walk over the significant bits completes, the loop completes with it, all the input taken (R96). -/
theorem unpkLoop_of_walk (bytes : List Byte) (fuel : Nat) (s u : State) (hr : s.rootv = true)
    (hs : s.cfg.input.length < 2 ^ 64) (hp : s.ipos.toNat ≤ s.cfg.input.length) (hb : s.rest = bytes) (hf : bytes.length < fuel)
    (he : s.undecoded = [] → s.pad = 0) (hw : walkBits (significant s.undecoded s.pad.toNat) s = .ok u) :
    ∃ h, unpkLoop fuel s = .ok (u.atInput (BitVec.ofNat 64 s.cfg.input.length) h false) := by
  have hpad : s.pad.toNat ≤ 7 := by
    have := s.pad.isLt
    omega
  induction bytes generalizing fuel s u with
  | nil =>
    obtain ⟨fuel, rfl⟩ : ∃ n, fuel = n + 1 := ⟨fuel - 1, by simp at hf; omega⟩
    have hend : s.ipos = BitVec.ofNat 64 s.cfg.input.length := by
      have : s.cfg.input.length ≤ s.ipos.toNat := by simpa [State.rest] using hb
      apply BitVec.eq_of_toNat_eq
      rw [BitVec.toNat_ofNat, Nat.mod_eq_of_lt hs]
      omega
    rw [unpkLoop, State.inGet_of_rest_nil hb]
    simp only [unpkEnd]
    by_cases hv : s.holdv = true
    · rw [State.undecoded, if_pos hv, hb, significant_single] at hw
      rw [if_pos hv, hw]
      refine ⟨u.hold, ?_⟩
      have hu := walkBits_all (highBits s.hold (8 - s.pad.toNat)) s
      rw [hw] at hu
      obtain ⟨_, _, hu⟩ := hu
      have : u.ipos = s.ipos := by rw [hu]
      simp [State.atInput, ← hend, ← this]
    · have hv' : s.holdv = false := by simpa using hv
      have hund : s.undecoded = [] := by simp [State.undecoded, hv', hb]
      rw [hund] at hw
      have hw : s = u := by simpa [significant, msbBits, walkBits] using hw
      subst hw
      rw [if_neg hv, he hund]
      refine ⟨s.hold, ?_⟩
      simp [State.atInput, ← hend, ← hv']
  | cons nb bytes ih =>
    obtain ⟨fuel, rfl⟩ : ∃ n, fuel = n + 1 := ⟨fuel - 1, by simp at hf; omega⟩
    have hlen : s.ipos.toNat < s.cfg.input.length := by
      have := congrArg List.length hb
      simp [State.rest] at this
      omega
    have h1 := State.ipos_succ hs hlen
    rw [unpkLoop, State.inGet_of_rest hb]
    dsimp only
    have hrest : ∀ (x : State), x.cfg.input = s.cfg.input → x.ipos = s.ipos + 1 → x.rest = bytes := by
      intro x hxi hxp
      rw [State.rest, hxi, hxp, h1, ← List.drop_drop, show s.cfg.input.drop s.ipos.toNat = nb :: bytes from hb]
      rfl
    by_cases hv : s.holdv = true
    · rw [State.undecoded, if_pos hv, hb, significant_cons_cons _ _ _ hpad, walkBits_append] at hw
      rw [if_pos hv]
      have hshift : walkBits (highBits s.hold 8) { s with ipos := s.ipos + 1 } =
          (walkBits (highBits s.hold 8) s).map (·.atInput (s.ipos + 1) s.hold s.holdv) :=
        walkBits_atInput (highBits s.hold 8) (s.ipos + 1) s.hold s.holdv hr
      rw [hshift]
      have hall := walkBits_all (highBits s.hold 8) s
      revert hall hw
      cases hx : walkBits (highBits s.hold 8) s with
      | raised c info v => exact fun hw => absurd hw (by simp)
      | unbounded => exact fun hw => absurd hw (by simp)
      | ok v =>
        rintro hw ⟨_, _, hvs⟩
        have hvr : v.rootv = true := by rw [hvs]; exact hr
        have hvi : v.cfg.input = s.cfg.input := by rw [hvs]
        have hvp : v.pad = s.pad := by rw [hvs]
        have hund : (v.atInput (s.ipos + 1) nb true).undecoded = nb :: bytes := by
          rw [State.undecoded, if_pos (by rfl), hrest (v.atInput (s.ipos + 1) nb true) hvi rfl]
          rfl
        obtain ⟨h, hh⟩ := ih (fuel := fuel) (s := v.atInput (s.ipos + 1) nb true) (hr := hvr)
          (hs := by rw [show (v.atInput (s.ipos + 1) nb true).cfg.input = s.cfg.input from hvi]; exact hs)
          (hp := by
            rw [show (v.atInput (s.ipos + 1) nb true).cfg.input = s.cfg.input from hvi]
            show (s.ipos + 1).toNat ≤ _
            omega)
          (hb := hrest _ hvi rfl) (hf := by simp at hf; omega) (he := by rw [hund]; simp)
          (hpad := by rw [show (v.atInput (s.ipos + 1) nb true).pad = s.pad from hvp]; exact hpad)
          (u := u.atInput (s.ipos + 1) nb true)
          (hw := by
            rw [hund, show (v.atInput (s.ipos + 1) nb true).pad = s.pad from hvp, walkBits_atInput _ _ _ _ hvr]
            rw [Body.bind_ok] at hw
            rw [hw]
            rfl)
        refine ⟨h, ?_⟩
        rw [show (v.atInput (s.ipos + 1) nb true).cfg.input = s.cfg.input from hvi] at hh
        exact hh
    · have hv' : s.holdv = false := by simpa using hv
      rw [State.undecoded, if_neg hv, hb] at hw
      rw [if_neg hv, Body.bind_ok]
      have hund : (s.atInput (s.ipos + 1) nb true).undecoded = nb :: bytes := by
        rw [State.undecoded, if_pos (by rfl), hrest (s.atInput (s.ipos + 1) nb true) rfl rfl]
        rfl
      obtain ⟨h, hh⟩ := ih (fuel := fuel) (s := s.atInput (s.ipos + 1) nb true) (hr := hr) (hs := hs)
        (hp := by show (s.ipos + 1).toNat ≤ s.cfg.input.length; omega)
        (hb := hrest _ rfl rfl) (hf := by simp at hf; omega) (he := by rw [hund]; simp) (hpad := hpad)
        (u := u.atInput (s.ipos + 1) nb true)
        (hw := by
          rw [hund, show (s.atInput (s.ipos + 1) nb true).pad = s.pad from rfl, walkBits_atInput _ _ _ _ hr, hw]
          rfl)
      exact ⟨h, hh⟩

/-- Where the walk over the significant bits raises at the bit `b` behind `bits`, the loop raises with it, one byte behind what
it has taken from the input (R96, R97). -/
theorem unpkLoop_of_raise (bytes : List Byte) (fuel : Nat) (s u : State) (hr : s.rootv = true)
    (hs : s.cfg.input.length < 2 ^ 64) (hp : s.ipos.toNat ≤ s.cfg.input.length) (hb : s.rest = bytes) (hf : bytes.length < fuel)
    (bits more : List Bool) (b : Bool) (c : Cause) (info : Resp)
    (hsig : significant s.undecoded s.pad.toNat = bits ++ b :: more) (hw : walkBits bits s = .ok u)
    (hraise : walkBit b u = .raised c info u) :
    ∃ h v, unpkLoop fuel s = .raised c info
      (u.atInput (s.ipos + BitVec.ofNat 64 (min (bits.length / 8 + if s.holdv then 1 else 2) bytes.length)) h v) := by
  have hpad : s.pad.toNat ≤ 7 := by
    have := s.pad.isLt
    omega
  have stop : ∀ xs, walkBits (bits ++ b :: xs) s = .raised c info u := by
    intro xs
    rw [walkBits_append, hw, Body.bind_ok, walkBits, hraise]
    rfl
  induction bytes generalizing fuel s u bits with
  | nil =>
    obtain ⟨fuel, rfl⟩ : ∃ n, fuel = n + 1 := ⟨fuel - 1, by simp at hf; omega⟩
    by_cases hv : s.holdv = true
    · rw [State.undecoded, if_pos hv, hb, significant_single] at hsig
      refine ⟨u.hold, u.holdv, ?_⟩
      rw [unpkLoop, State.inGet_of_rest_nil hb]
      simp only [unpkEnd]
      rw [if_pos hv, hsig, stop]
      have hu := walkBits_all bits s
      rw [hw] at hu
      obtain ⟨_, _, hu⟩ := hu
      have : u.ipos = s.ipos := by rw [hu]
      simp [State.atInput, ← this]
    · rw [State.undecoded, if_neg hv, hb] at hsig
      simp [significant, msbBits] at hsig
  | cons nb bytes ih =>
    obtain ⟨fuel, rfl⟩ : ∃ n, fuel = n + 1 := ⟨fuel - 1, by simp at hf; omega⟩
    have hlen : s.ipos.toNat < s.cfg.input.length := by
      have := congrArg List.length hb
      simp [State.rest] at this
      omega
    have h1 := State.ipos_succ hs hlen
    have hrest : ∀ (x : State), x.cfg.input = s.cfg.input → x.ipos = s.ipos + 1 → x.rest = bytes := by
      intro x hxi hxp
      rw [State.rest, hxi, hxp, h1, ← List.drop_drop, show s.cfg.input.drop s.ipos.toNat = nb :: bytes from hb]
      rfl
    rw [unpkLoop, State.inGet_of_rest hb]
    dsimp only
    by_cases hv : s.holdv = true
    · rw [State.undecoded, if_pos hv, hb, significant_cons_cons _ _ _ hpad] at hsig
      rw [if_pos hv]
      have hshift : walkBits (highBits s.hold 8) { s with ipos := s.ipos + 1 } =
          (walkBits (highBits s.hold 8) s).map (·.atInput (s.ipos + 1) s.hold s.holdv) :=
        walkBits_atInput (highBits s.hold 8) (s.ipos + 1) s.hold s.holdv hr
      have h8 := highBits_length s.hold (le_refl 8)
      rw [hshift]
      by_cases hbl : bits.length < 8
      · have hcut : highBits s.hold 8 = bits ++ b :: more.take (7 - bits.length) := by
          have := congrArg (List.take 8) hsig
          rw [List.take_left' h8, List.take_append, List.take_of_length_le (by omega),
            show 8 - bits.length = (7 - bits.length) + 1 by omega, List.take_succ_cons] at this
          exact this
        refine ⟨s.hold, s.holdv, ?_⟩
        rw [hcut, stop]
        rw [show min (bits.length / 8 + if s.holdv = true then 1 else 2) (nb :: bytes).length = 1 by
          rw [if_pos hv, List.length_cons]; omega]
        rfl
      · obtain ⟨bits', rfl⟩ : ∃ bits', bits = highBits s.hold 8 ++ bits' := by
          refine ⟨bits.drop 8, ?_⟩
          have := congrArg (List.take 8) hsig
          rw [List.take_left' h8, List.take_append_of_le_length (by omega)] at this
          rw [this, List.take_append_drop]
        rw [walkBits_append] at hw
        rw [List.append_assoc] at hsig
        have hsig := List.append_cancel_left hsig
        revert hw
        have hall := walkBits_all (highBits s.hold 8) s
        revert hall
        cases hx : walkBits (highBits s.hold 8) s with
        | raised c info v => exact fun _ hw => absurd hw (by simp)
        | unbounded => exact fun _ hw => absurd hw (by simp)
        | ok v =>
          rintro ⟨_, _, hvs⟩ hw
          rw [Body.bind_ok] at hw
          have hvr : v.rootv = true := by rw [hvs]; exact hr
          have hvi : v.cfg.input = s.cfg.input := by rw [hvs]
          have hvp : v.pad = s.pad := by rw [hvs]
          have hw' : walkBits bits' (v.atInput (s.ipos + 1) nb true) = .ok (u.atInput (s.ipos + 1) nb true) := by
            rw [walkBits_atInput _ _ _ _ hvr, hw]
            rfl
          have hur : u.rootv = true := by rw [walkBits_ok_rootv hw]; exact hvr
          have hraise' : walkBit b (u.atInput (s.ipos + 1) nb true) = .raised c info (u.atInput (s.ipos + 1) nb true) := by
            rw [walkBit_atInput _ _ _ _ hur, hraise]
            rfl
          have hund : (v.atInput (s.ipos + 1) nb true).undecoded = nb :: bytes := by
            rw [State.undecoded, if_pos (by rfl), hrest (v.atInput (s.ipos + 1) nb true) hvi rfl]
            rfl
          obtain ⟨h, v', hh⟩ := ih (fuel := fuel) (s := v.atInput (s.ipos + 1) nb true) (hr := hvr)
            (hs := by rw [show (v.atInput (s.ipos + 1) nb true).cfg.input = s.cfg.input from hvi]; exact hs)
            (hp := by
              rw [show (v.atInput (s.ipos + 1) nb true).cfg.input = s.cfg.input from hvi]
              show (s.ipos + 1).toNat ≤ _
              omega)
            (hb := hrest _ hvi rfl) (hf := by simp at hf; omega)
            (hpad := by rw [show (v.atInput (s.ipos + 1) nb true).pad = s.pad from hvp]; exact hpad)
            (u := u.atInput (s.ipos + 1) nb true) (bits := bits')
            (hsig := by rw [hund, show (v.atInput (s.ipos + 1) nb true).pad = s.pad from hvp]; exact hsig)
            (hw := hw') (hraise := hraise')
            (stop := fun xs => by rw [walkBits_append, hw', Body.bind_ok, walkBits, hraise']; rfl)
          refine ⟨h, v', Eq.trans hh ?_⟩
          have hpos : (s.ipos + 1 : BitVec 64) + BitVec.ofNat 64 (min (bits'.length / 8 + 1) bytes.length) =
              s.ipos + BitVec.ofNat 64
                (min ((highBits s.hold 8 ++ bits').length / 8 + if s.holdv = true then 1 else 2) (nb :: bytes).length) := by
            rw [BitVec.add_assoc, show (1 : BitVec 64) = BitVec.ofNat 64 1 from rfl, ← BitVec.ofNat_add, if_pos hv,
              List.length_append, h8, List.length_cons]
            congr 2
            omega
          rw [← hpos]
          rfl
    · rw [State.undecoded, if_neg hv, hb] at hsig
      rw [if_neg hv, Body.bind_ok]
      have hund : (s.atInput (s.ipos + 1) nb true).undecoded = nb :: bytes := by
        rw [State.undecoded, if_pos (by rfl), hrest (s.atInput (s.ipos + 1) nb true) rfl rfl]
        rfl
      have hw' : walkBits bits (s.atInput (s.ipos + 1) nb true) = .ok (u.atInput (s.ipos + 1) nb true) := by
        rw [walkBits_atInput _ _ _ _ hr, hw]
        rfl
      have hur : u.rootv = true := by rw [walkBits_ok_rootv hw]; exact hr
      have hraise' : walkBit b (u.atInput (s.ipos + 1) nb true) = .raised c info (u.atInput (s.ipos + 1) nb true) := by
        rw [walkBit_atInput _ _ _ _ hur, hraise]
        rfl
      obtain ⟨h, v', hh⟩ := ih (fuel := fuel) (s := s.atInput (s.ipos + 1) nb true) (hr := hr) (hs := hs)
        (hp := by show (s.ipos + 1).toNat ≤ s.cfg.input.length; omega)
        (hb := hrest _ rfl rfl) (hf := by simp at hf; omega) (hpad := hpad)
        (u := u.atInput (s.ipos + 1) nb true) (bits := bits)
        (hsig := by rw [hund]; exact hsig) (hw := hw') (hraise := hraise')
        (stop := fun xs => by rw [walkBits_append, hw', Body.bind_ok, walkBits, hraise']; rfl)
      refine ⟨h, v', Eq.trans hh ?_⟩
      have hpos : (s.ipos + 1 : BitVec 64) + BitVec.ofNat 64 (min (bits.length / 8 + 1) bytes.length) =
          s.ipos + BitVec.ofNat 64 (min (bits.length / 8 + if s.holdv = true then 1 else 2) (nb :: bytes).length) := by
        rw [BitVec.add_assoc, show (1 : BitVec 64) = BitVec.ofNat 64 1 from rfl, ← BitVec.ofNat_add, if_neg hv,
          List.length_cons]
        congr 2
        omega
      rw [← hpos]
      rfl

/-! ### The walk over a graph -/

/-- A walk is what the significant bits do where the root is an internal node (R97, R103). -/
theorem walkBits_of_graphWalk {m : List (Nat × Node)} {root i j : NodeIdx} {bits : List Bool} {syms : List Byte}
    (w : GraphWalk m root i bits syms j) : ∀ s : State, s.nm = m → s.root = root → s.walk = i → s.rootv = true →
      (∃ l r, s.nmGet s.root = some (.internal l r)) →
      walkBits bits s = .ok { s with sout := s.sout ++ syms, walk := j } := by
  induction w with
  | stop i =>
    intro s _ _ hw _ _
    simp [walkBits, ← hw]
  | @inner i j l r l' r' b bits syms hi hc _ ih =>
    intro s hm hroot hw hv hr
    subst hm hroot hw
    obtain ⟨rl, rr, hr'⟩ := hr
    rw [walkBits, walkBit_at_internal b hv hr' hi, show s.nmGet (if b then r else l) = _ from hc]
    exact ih { s with walk := if b then r else l } rfl rfl rfl hv ⟨rl, rr, hr'⟩
  | @leaf i j l r b sym bits syms hi hc _ ih =>
    intro s hm hroot hw hv hr
    subst hm hroot hw
    obtain ⟨rl, rr, hr'⟩ := hr
    rw [walkBits, walkBit_at_internal b hv hr' hi, show s.nmGet (if b then r else l) = _ from hc]
    simp only [Body.bind_ok]
    rw [ih { s with walk := s.root, sout := s.sout ++ [sym] } rfl rfl rfl hv ⟨rl, rr, hr'⟩]
    simp

/-- From an internal node the bits lead to their end, or to an internal node whose child by the next bit is invalid; a walk
emits at most one symbol a bit. -/
theorem graphWalk_or_stuck (m : List (Nat × Node)) (root : NodeIdx)
    (hr : ∃ l r, nmRead m root.toNat = some (.internal l r)) (bits : List Bool) (i : NodeIdx)
    (hi : ∃ l r, nmRead m i.toNat = some (.internal l r)) :
    (∃ syms j, syms.length ≤ bits.length ∧ GraphWalk m root i bits syms j) ∨
    (∃ pre b more syms w l r, bits = pre ++ b :: more ∧ syms.length ≤ pre.length ∧ GraphWalk m root i pre syms w ∧
      nmRead m w.toNat = some (.internal l r) ∧ nmRead m (if b then r else l).toNat = none) := by
  induction bits generalizing i with
  | nil => exact .inl ⟨[], i, le_refl 0, .stop i⟩
  | cons b bits ih =>
    obtain ⟨l, r, hi⟩ := hi
    cases hc : nmRead m (if b then r else l).toNat with
    | none => exact .inr ⟨[], b, bits, [], i, l, r, rfl, le_refl 0, .stop i, hi, hc⟩
    | some nd =>
      cases nd with
      | leaf sym =>
        rcases ih root hr with ⟨syms, j, hl, w⟩ | ⟨pre, b', more, syms, w, l', r', rfl, hl, hw, h1, h2⟩
        · exact .inl ⟨sym :: syms, j, by simpa using hl, .leaf hi hc w⟩
        · exact .inr ⟨b :: pre, b', more, sym :: syms, w, l', r', rfl, by simpa using hl, .leaf hi hc hw, h1, h2⟩
      | internal l₁ r₁ =>
        rcases ih _ ⟨l₁, r₁, hc⟩ with ⟨syms, j, hl, w⟩ | ⟨pre, b', more, syms, w, l', r', rfl, hl, hw, h1, h2⟩
        · exact .inl ⟨syms, j, by simp; omega, .inner hi hc w⟩
        · exact .inr ⟨b :: pre, b', more, syms, w, l', r', rfl, by simp; omega, .inner hi hc hw, h1, h2⟩

end Sys2Proof.Machine
end

