-- ==== Sys2Proof/Tests/Slice0.lean ====
section
/-! SUPPORT. The model's own tests. Expected values come from spec/95_test_vectors.md (a vector's number is named) or are
worked by hand from the rule named. Then one witness for each statement that has hypotheses. -/

namespace Sys2Proof.Tests

open Sys2Proof Sys2Proof.Machine

/-! ### Helpers -/

/-- The next state, if there is one. -/
def next (o : Host.Outcome State Fault Refusal) : Option State :=
  match o with
  | .next t => some t
  | _ => none

/-- One step with the command word `w` presented. -/
def cmd (s : State) (w : Nat) : Option State := next (step (s.withFetchWord 32 w))

/-- The state after reset with the given bytes as `IN`. -/
def withIn (inp : List Byte) : State := State.launch { Config.default with input := inp }

/-- The state after reset with the given bytes as `IN` and a header. -/
def withHeader (pad : BitVec 3) (htlen : BitVec 13) (inp : List Byte) : State :=
  { withIn inp with pad := pad, htlen := htlen, hv := true }

/-- Node memory with the tree T of 95_test_vectors.md section 4: B = 00, C = 01, A = 1. -/
def treeT : List (Nat × Node) :=
  [(0, .internal 1 4), (1, .internal 2 3), (2, .leaf 0x42), (3, .leaf 0x43), (4, .leaf 0x41)]

/-- The same tree, with its indices. -/
def shapeT : NTree := .node 0 (.node 1 (.leaf 2 0x42) (.leaf 3 0x43)) (.leaf 4 0x41)

/-- A state that holds tree T. -/
def withTree (s : State) : State := { s with nm := treeT, root := 0, rootv := true }

/-- A state in which a fault is latched. -/
def faulted : State := { State.reset with fault := true, fcause := 2, finfo := 7 }

/-! ### Well-formedness: an ill-formed term for each check -/

theorem test_wf_putc_len : (Instr.putc 17 0).wellFormed Config.default = false := by decide
theorem test_wf_rdcsr_number : (Instr.rdcsr 0x10).wellFormed Config.default = false := by decide
theorem test_wf_lit_mark : (Instr.lit 0x2A).wellFormed Config.default = false := by decide
theorem test_wf_lit_esc : (Instr.lit 0x5C).wellFormed Config.default = false := by decide

/-! ### Decoding: the words of section 2 -/

theorem test_decode_nop : decodeTableWord 32 0x00000000 = some .nop := by decide
theorem test_decode_rst : decodeTableWord 32 0x08000000 = some .rst := by decide
theorem test_decode_rdcsr : decodeTableWord 32 0x1000000F = some (.rdcsr 0x0F) := by decide
theorem test_decode_putb : decodeTableWord 32 0x20000001 = some (.putb true) := by decide
theorem test_decode_putc : decodeTableWord 32 0x2810ABCD = some (.putc 16 0xABCD) := by decide
theorem test_decode_fin : decodeTableWord 32 0x30000000 = some .fin := by decide
theorem test_decode_nleaf : decodeTableWord 32 0x47FC00FF = some (.nleaf 511 0xFF) := by decide
theorem test_decode_nint : decodeTableWord 32 0x4FFBFFFF = some (.nint 510 511 511) := by decide
theorem test_decode_nint_fields : decodeTableWord 32 0x48000204 = some (.nint 0 1 4) := by decide
theorem test_decode_sroot : decodeTableWord 32 0x57FC0000 = some (.sroot 511) := by decide
theorem test_decode_nrd : decodeTableWord 32 0x58100000 = some (.nrd 4) := by decide
theorem test_decode_tser : decodeTableWord 32 0x60000000 = some .tser := by decide
theorem test_decode_tdes : decodeTableWord 32 0x68000000 = some .tdes := by decide
theorem test_decode_hput : decodeTableWord 32 0x80000000 = some .hput := by decide
theorem test_decode_hget : decodeTableWord 32 0x88000000 = some .hget := by decide
theorem test_decode_hset : decodeTableWord 32 0x90002005 = some (.hset 0x2005) := by decide
theorem test_decode_unpk : decodeTableWord 32 0xA0000000 = some .unpk := by decide
theorem test_decode_mark : decodeTableWord 8 0x2A = some .mark := by decide
theorem test_decode_esc : decodeTableWord 16 0x5C2A = some (.esc 0x2A) := by decide
theorem test_decode_lit : decodeTableWord 8 0x41 = some (.lit 0x41) := by decide

/-- The illegal words of section 2. -/
theorem test_illegal_words :
    [0x00000001, 0x18000000, 0x38000000, 0x70000000, 0x78000000, 0x98000000, 0xA8000000, 0xF8000000, 0x10000010, 0x10000100,
      0x20000002, 0x28110000, 0x28200000, 0x40000100, 0x50000001, 0x58000001, 0x90010000, 0xA0000001].map
      (decodeTableWord 32) = List.replicate 18 none := by decide

/-- The encoder gives the words of section 2. -/
theorem test_encode_words :
    [Instr.rdcsr 0x0F, .putb true, .putc 3 5, .nleaf 511 0xFF, .nint 0 1 4, .sroot 511, .nrd 4, .hset 0xFFFF].map
      (encode Config.default) =
    [0x1000000F#32, 0x20000001, 0x28030005, 0x47FC00FF, 0x48000204, 0x57FC0000, 0x58100000, 0x9000FFFF].map .word := by decide

/-! ### One step of each instruction -/

/-- R133. -/
theorem test_nop : (cmd { State.reset with resp := 9 } 0x00000000).map (·.resp) = some 0 := by decide

/-- V90: `RST` keeps `COUT`, clears `TOTAL`. -/
theorem test_rst :
    (cmd { State.reset with cout := [0xAA], total := 8, fault := true, fcause := 1 } 0x08000000).map
      (fun t => (t.cout, t.total, t.fault, t.fcause)) = some ([0xAA], 0, false, 0) := by decide

/-- V88: `ILEN`. -/
theorem test_rdcsr_ilen : (cmd (withIn [0x61, 0x62, 0x63]) 0x1000000F).map (·.resp) = some 3 := by decide

/-- P2: `STATUS` with a header and a root. -/
theorem test_rdcsr_status :
    (cmd { State.reset with hv := true, rootv := true } 0x10000000).map (·.resp) = some 0xC := by decide

/-- V19: the eighth bit flushes, and `TOTAL` wraps. -/
theorem test_putb_wraps :
    (cmd { State.reset with total := 0xFFFFFFFFFFFFFFFF, nbuf := 7, acc := 0x7F } 0x20000001).map
      (fun t => (t.cout, t.total, t.nbuf, t.acc)) = some ([0xFF], 0, 0, 0) := by decide

/-- V12: `PUTB` after `FIN`. -/
theorem test_putb_after_fin :
    (cmd { State.reset with fdone := true } 0x20000001).map (fun t => (t.fault, t.fcause, t.finfo, t.total)) =
      some (true, 2, 0x20000001, 0) := by decide

/-- V6, its second word. -/
theorem test_putc :
    (cmd { State.reset with acc := 0x16, nbuf := 5, total := 5 } 0x2807001D).map
      (fun t => (t.cout, t.acc, t.nbuf, t.total)) = some ([0xB1], 0x0D, 4, 12) := by decide

/-- V14: legality before the phase. -/
theorem test_putc_illegal :
    (cmd { State.reset with fdone := true } 0x28110000).map (fun t => (t.fcause, t.finfo)) = some (1, 0x28110000) := by decide

/-- V4: `FIN` pads with zeros. -/
theorem test_fin :
    (cmd { State.reset with acc := 5, nbuf := 3, total := 3 } 0x30000000).map
      (fun t => (t.cout, t.acc, t.nbuf, t.total, t.fdone)) = some ([0xA0], 0, 0, 3, true) := by decide

/-- V10: `FIN` with nothing buffered. -/
theorem test_fin_empty : (cmd State.reset 0x30000000).map (fun t => (t.cout, t.fdone)) = some ([], true) := by decide

/-- V41: a leaf replaces an internal node. -/
theorem test_nleaf :
    (cmd { State.reset with nm := [(3, .internal 1 2)] } 0x400C007A).map (·.nm) = some [(3, .leaf 0x7A)] := by decide

/-- V42: the last entries. -/
theorem test_nint :
    (cmd { State.reset with nm := [(511, .leaf 0xFF)] } 0x4FFBFFFF).map (·.nm) =
      some [(510, .internal 511 511), (511, .leaf 0xFF)] := by decide

/-- V54: `SROOT` of an invalid entry is accepted. -/
theorem test_sroot :
    (cmd State.reset 0x50140000).map (fun t => (t.root, t.rootv, t.fault)) = some (5, true, false) := by decide

/-- V40: the words of an internal node, a leaf, and an invalid entry. -/
theorem test_nrd :
    [0x58000000, 0x58100000, 0x581C0000].map (fun w => (cmd (withTree State.reset) w).map (·.resp)) =
      [some 0xC0204, some 0x80041, some 0] := by decide

/-- V43. -/
theorem test_tser :
    (next (exec .tser (withTree State.reset))).map (fun t => (t.cout, t.tlen, t.fault)) =
      some ([0x2A, 0x2A, 0x42, 0x43, 0x41], 5, false) := by decide

/-- V48: a missing child; the bytes before it stay. -/
theorem test_tser_bad_node :
    (next (exec .tser { State.reset with nm := [(0, .internal 1 2), (1, .leaf 0x41)], rootv := true })).map
      (fun t => (t.cout, t.tlen, t.fcause, t.finfo)) = some ([0x2A, 0x41], 2, 10, 2) := by decide

/-- V60. -/
theorem test_tdes :
    (cmd (withHeader 0 5 [0x2A, 0x2A, 0x42, 0x43, 0x41, 0xCA]) 0x68000000).map
      (fun t => (t.nm, t.rootv, t.nalloc, t.tcnt)) = some (treeT, true, 5, 5) := by decide

/-- V68: the end of the input after the escape byte. -/
theorem test_tdes_truncated :
    (cmd (withHeader 0 1 [0x5C]) 0x68000000).map (fun t => (t.fcause, t.finfo, t.tcnt, t.nalloc, t.ipos)) =
      some (5, 1, 1, 0, 1) := by decide

/-- V81: the header of 7 bits and 1 tree byte. -/
theorem test_hput :
    (cmd { State.reset with total := 7, tlen := 1 } 0x80000000).map (·.cout) = some [0x20, 0x01] := by decide

/-- V82, and with `HDR_BIG_ENDIAN = 0` the two bytes change places. -/
theorem test_hget :
    (cmd (withIn [0x20, 0x05, 0x2A]) 0x88000000).map (fun t => (t.resp, t.pad, t.htlen, t.ipos, t.hv)) =
        some (0x2005, 1, 5, 2, true) ∧
    (cmd (State.launch { Config.default with hdrBigEndian := false, input := [0x05, 0x20] }) 0x88000000).map (·.resp) =
        some 0x2005 := by decide

/-- V84: one byte is not consumed. -/
theorem test_hget_truncated :
    (cmd (withIn [0x20]) 0x88000000).map (fun t => (t.fcause, t.finfo, t.ipos, t.resp)) = some (4, 0, 0, 0) := by decide

/-- V86. -/
theorem test_hset : (cmd State.reset 0x90008001).map (fun t => (t.pad, t.htlen, t.hv, t.ipos)) = some (4, 1, true, 0) := by
  decide

/-- V20. -/
theorem test_unpk :
    (cmd (withTree (withHeader 1 0 [0xCA])) 0xA0000000).map (fun t => (t.sout, t.ipos, t.fault)) =
      some ([0x41, 0x41, 0x42, 0x41, 0x43], 1, false) := by decide

/-- V21: an unfinished code. -/
theorem test_unpk_unfinished :
    (cmd (withTree (withHeader 0 0 [0xCA])) 0xA0000000).map (fun t => (t.sout, t.fcause, t.finfo)) =
      some ([0x41, 0x41, 0x42, 0x41, 0x43], 13, 1) := by decide

/-- R118: the first token of V60 is an internal node that waits for its left child. -/
theorem test_mark :
    (next (step (State.reset.withFetchWord 8 0x2A))).map (fun t => (t.nm, t.nalloc, t.ipos, t.stk)) =
      some ([(0, .internal 0 0)], 1, 1, [{ node := 0, waitLeft := true }]) := by decide

/-- V67 with `CHECK_TLEN = 1` and `HTLEN = 2`: an escape before an ordinary byte. -/
theorem test_esc :
    (next (step ({ State.reset with htlen := 2 }.withFetchWord 16 0x5C41))).map
      (fun t => (t.nm, t.nalloc, t.ipos, t.rootv)) = some ([(0, .leaf 0x41)], 1, 2, true) := by decide

/-- V65: a complete tree of another length. -/
theorem test_lit :
    (next (step ({ State.reset with htlen := 5 }.withFetchWord 8 0x41))).map
      (fun t => (t.nm, t.nalloc, t.fcause, t.finfo)) = some ([], 1, 6, 1) := by decide

/-- R156: a refused word changes nothing. -/
theorem test_refused :
    (cmd { faulted with resp := 9 } 0x20000001).map (fun t => (t.total, t.fcause, t.finfo, t.resp)) = some (0, 2, 7, 0) := by
  decide

/-- R169: with no word presented nothing changes. -/
theorem test_idle : next (step State.reset) = some State.reset := by decide

/-- Each row of the opcode table runs as the first instruction after reset. -/
theorem test_rows_run_first :
    ([0x00000000, 0x08000000, 0x10000000, 0x20000000, 0x28000000, 0x30000000, 0x40000000, 0x48000000, 0x50000000, 0x58000000,
      0x60000000, 0x68000000, 0x80000000, 0x88000000, 0x90000000, 0xA0000000].all fun w => (cmd State.reset w).isSome) = true ∧
    (next (step (State.reset.withFetchWord 8 0x2A))).isSome = true ∧
    (next (step (State.reset.withFetchWord 16 0x5C00))).isSome = true ∧
    (next (step (State.reset.withFetchWord 8 0x00))).isSome = true := by decide

/-! ### Witnesses: a state and operands that meet the hypotheses of each statement together -/

theorem witness_DecodeOfEncodeIsTheInstruction :
    Config.default.ok ∧ ([Instr.putc 16 0xFFFF, .rdcsr 0x0F, .lit 0x41, .nint 510 511 511, .esc 0xFF].all
      fun i => i.wellFormed Config.default) = true := by decide

theorem witness_EncodeOfDecodeIsTheWord :
    (decodeWord 0x2810ABCD#32).toOption = some (.putc 16 0xABCD) ∧ (decodeWord 0x1000000F#32).toOption = some (.rdcsr 15) := by
  decide

theorem witness_WordDecodesIffLegal :
    LegalWord 0x2810FFFF#32 ∧ ¬ LegalWord 0x28110000#32 ∧ LegalWord 0x1000000F#32 ∧ ¬ LegalWord 0x10000010#32 := by decide

theorem witness_TokenFormIsDecidedByItsFirstByte :
    Config.default.ok ∧ (0x41#8 : Byte) ≠ Config.default.esc ∧ (0x41#8 : Byte) ≠ Config.default.mark := by decide

theorem witness_StepRunsTheDecodedInstruction :
    ({ State.reset with cmds := [0x08000000#32, 0#32] }.treeOpen = false ∧
      (decodeWord 0x08000000#32).toOption = some .rst) ∧
    ({ withIn [0x2A, 0x41] with treeOpen := true }.treeOpen = true ∧
      (decodeToken Config.default ((withIn [0x2A, 0x41]).cfg.input.drop 0)).toOption = some (.mark, [0x41])) ∧
    (State.reset.treeOpen = false ∧ State.reset.cmds = []) := by decide

theorem witness_IllegalWordIsLatchedOrRefused :
    ∃ s u : State, ∃ w later, (s.treeOpen = false ∧ s.cmds = w :: later ∧ ¬ LegalWord w ∧ s.fault = false) ∧
      (u.treeOpen = false ∧ u.cmds = w :: later ∧ ¬ LegalWord w ∧ u.fault = true) :=
  ⟨{ State.reset with cmds := [0x18000000#32] }, { faulted with cmds := [0x18000000#32] }, 0x18000000#32, [], by decide⟩

theorem witness_EveryStepAnswersANextState : InputOk State.reset ∧ InputOk { withIn [1, 2] with ipos := 2 } := by decide

theorem witness_AfterResetEveryCsrReadsZeroButIlen :
    (∃ t, exec .rst faulted = .next t) ∧ (0x0F#8 : BitVec 8).toNat ≤ 0x0F := ⟨⟨_, rfl⟩, by decide⟩

theorem witness_PutbShiftsTheBitIn :
    (State.reset.fault = false ∧ State.reset.fdone = false ∧ State.reset.nbuf ≠ 7) ∧
    ∃ s : State, s.fault = false ∧ s.fdone = false ∧ s.nbuf = 7 := ⟨by decide, { State.reset with nbuf := 7 }, by decide⟩

theorem witness_PutcIsARunOfPutb :
    State.reset.fault = false ∧ State.reset.fdone = false ∧ (16#5 : BitVec 5).toNat ≤ 16 ∧ (0#5 : BitVec 5).toNat ≤ 16 := by
  decide

theorem witness_PutcCountsItsBits :
    ∃ s : State, s.fault = false ∧ s.fdone = false ∧ s.nbuf = 7 ∧ (16#5 : BitVec 5).toNat ≤ 16 :=
  ⟨{ State.reset with nbuf := 7 }, by decide⟩

theorem witness_PutAfterFinishRaisesSeq : ∃ s : State, s.fault = false ∧ s.fdone = true :=
  ⟨{ State.reset with fdone := true }, by decide⟩

theorem witness_FinFlushesTheBufferedBits :
    (∃ s : State, s.fault = false ∧ s.nbuf ≠ 0) ∧ State.reset.fault = false ∧ State.reset.nbuf = 0 :=
  ⟨⟨{ State.reset with nbuf := 7 }, by decide⟩, by decide⟩

theorem witness_FinAppendsPadoutZeroBits :
    (∃ s : State, s.fault = false ∧ s.fdone = false ∧ PackerInv s ∧ s.padout ≠ 0) ∧
    (∃ s : State, s.fault = false ∧ s.fdone = false ∧ PackerInv s ∧ s.padout = 0) :=
  ⟨⟨{ State.reset with acc := 1, nbuf := 1, total := 9 }, by decide⟩, ⟨{ State.reset with total := 8 }, by decide⟩⟩

theorem witness_PackerPacksItsBits :
    ∃ s : State, s.fault = false ∧ s.fdone = false ∧ s.nbuf = 0 ∧ s.acc = 0 ∧ s.total ≠ 0 :=
  ⟨{ State.reset with total := 8, cout := [0xB2] }, by decide⟩

theorem witness_NodeWritesAreReadBack : State.reset.fault = false := by decide

theorem witness_SrootNamesTheRoot : State.reset.fault = false := by decide

theorem witness_NrdAnswersTheEntry :
    State.reset.nmGet 0 = none ∧ (withTree State.reset).nmGet 4 = some (.leaf 0x41) ∧
    (withTree State.reset).nmGet 0 = some (.internal 1 4) := by decide

theorem wellFormed_treeT (s : State) : WellFormedTree (withTree s) shapeT :=
  ⟨rfl, rfl, ⟨rfl, ⟨rfl, rfl, rfl⟩, rfl⟩, by decide, by decide⟩

theorem witness_TserEmitsTheRecursiveSerialization :
    ((withTree State.reset).fault = false ∧ WellFormedTree (withTree State.reset) shapeT) ∧
    ∃ s : State, s.fault = false ∧ WellFormedTree s (.leaf 7 0x5C) :=
  ⟨⟨rfl, wellFormed_treeT _⟩,
    { State.reset with nm := [(7, .leaf 0x5C)], root := 7, rootv := true }, rfl, rfl, rfl, rfl, by decide, by decide⟩

theorem witness_TserWithNothingAtTheRootEmitsNothing :
    (State.reset.fault = false ∧ State.reset.rootv = false) ∧
    ∃ s : State, s.fault = false ∧ s.rootv = true ∧ s.nmGet s.root = none :=
  ⟨by decide, { State.reset with root := 5, rootv := true }, by decide⟩

/-- Node memory in which entry 0 is an internal node that is its own two children. -/
def selfLoop : State := { State.reset with nm := [(0, .internal 0 0)], rootv := true }

theorem selfLoop_walk (n : Nat) : ∀ k, k + n ≤ 255 →
    SerWalk selfLoop.cfg selfLoop.nm (List.replicate (k + 1) 0) (List.replicate n 0x2A) (List.replicate (k + n + 1) 0) := by
  induction n with
  | zero => exact fun k _ => .stop _
  | succ n ih =>
    intro k h
    have := ih (k + 1) (by omega)
    rw [show k + 1 + n + 1 = k + (n + 1) + 1 by omega] at this
    exact .node (i := 0) rfl (by simp; omega) this

/-- Node memory in which entry 0 is an internal node, its left child a leaf and its right child itself. -/
def rightLoop : State := { State.reset with nm := [(0, .internal 1 0), (1, .leaf 0x41)], rootv := true }

theorem rightLoop_walk (n : Nat) : ∃ bs, bs.length = 2 * n + 1 ∧ SerWalk rightLoop.cfg rightLoop.nm [0] bs [1, 0] := by
  induction n with
  | zero => exact ⟨[0x2A], rfl, .node (i := 0) (l := 1) (r := 0) rfl (by decide) (.stop _)⟩
  | succ n ih =>
    obtain ⟨bs, hl, h⟩ := ih
    refine ⟨0x2A :: 0x41 :: bs, ?_, .node (i := 0) (l := 1) (r := 0) rfl (by decide) (.leaf (i := 1) (sym := 0x41) rfl h)⟩
    simp only [List.length_cons]
    omega

/-- Each clause at its boundary: the end of a tree; an invalid child (V48); the 8192nd byte; a full stack with 255 bytes out. -/
theorem witness_TserEndsOnAnyGraph :
    (∃ s : State, ∃ bs, s.fault = false ∧ s.rootv = true ∧ SerWalk s.cfg s.nm [s.root] bs [] ∧ bs.length ≤ 8191) ∧
    (∃ s : State, ∃ bs n below, s.fault = false ∧ s.rootv = true ∧ SerWalk s.cfg s.nm [s.root] bs (n :: below) ∧
      bs.length ≤ 8191 ∧ s.nmGet n = none) ∧
    (∃ s : State, ∃ bs n below nd, s.fault = false ∧ s.rootv = true ∧ SerWalk s.cfg s.nm [s.root] bs (n :: below) ∧
      bs.length = 8191 ∧ s.nmGet n = some nd ∧ 8191 < bs.length + (nodeBytes s.cfg nd).length) ∧
    (∃ s : State, ∃ bs n below l r, s.fault = false ∧ s.rootv = true ∧ SerWalk s.cfg s.nm [s.root] bs (n :: below) ∧
      bs.length < 8191 ∧ s.nmGet n = some (.internal l r) ∧ below.length = 255) := by
  refine ⟨⟨withTree State.reset, _, rfl, rfl, .node (l := 1) (r := 4) rfl (by decide) (.node (l := 2) (r := 3) rfl (by decide)
      (.leaf (sym := 0x42) rfl (.leaf (sym := 0x43) rfl (.leaf (sym := 0x41) rfl (.stop _))))), by decide⟩,
    ⟨{ State.reset with nm := [(0, .internal 1 2), (1, .leaf 0x41)], rootv := true }, _, 2, [], rfl, rfl,
      .node (l := 1) (r := 2) rfl (by decide) (.leaf (sym := 0x41) rfl (.stop _)), by decide, rfl⟩,
    ?_, ⟨selfLoop, List.replicate 255 0x2A, 0, List.replicate 255 0, 0, 0, rfl, rfl, selfLoop_walk 255 0 (by omega), ?_, rfl,
      List.length_replicate⟩⟩
  · obtain ⟨bs, hl, h⟩ := rightLoop_walk 4095
    exact ⟨rightLoop, bs, 1, [0], .leaf 0x41, rfl, rfl, h, hl, rfl, by rw [hl]; decide⟩
  · rw [List.length_replicate]
    omega

theorem parses_treeT (inp : List Byte) :
    Parses { Config.default with input := inp } shapeT.shape [0x2A, 0x2A, 0x42, 0x43, 0x41] :=
  have lit (sym : Byte) (h : sym ≠ 0x2A ∧ sym ≠ 0x5C) : Parses { Config.default with input := inp } (.leaf sym) [sym] :=
    .lit sym h.1 h.2
  .node (bl := [0x2A, 0x42, 0x43]) (br := [0x41])
    (.node (bl := [0x42]) (br := [0x43]) (lit _ (by decide)) (lit _ (by decide))) (lit _ (by decide))

/-- V60, and V65 with `CHECK_TLEN = 0`. -/
theorem witness_TdesBuildsTheTreeInPreOrder :
    (∃ s : State, s.fault = false ∧ s.hv = true ∧ InputOk s ∧ s.cfg.ok ∧
      s.cfg.input.drop s.ipos.toNat = [0x2A, 0x2A, 0x42, 0x43, 0x41] ++ [0xCA] ∧
      Parses s.cfg shapeT.shape [0x2A, 0x2A, 0x42, 0x43, 0x41] ∧ shapeT.shape.size ≤ 512 ∧
      s.htlen.toNat = [0x2A, 0x2A, 0x42, 0x43, 0x41].length) ∧
    (∃ s : State, s.fault = false ∧ s.hv = true ∧ InputOk s ∧ s.cfg.ok ∧
      s.cfg.input.drop s.ipos.toNat = [0x41] ++ [1, 2] ∧ Parses s.cfg (.leaf 0x41) [0x41] ∧ (Tree.leaf 0x41).size ≤ 512 ∧
      s.cfg.checkTlen = false ∧ s.htlen ≠ 0) :=
  ⟨⟨withHeader 0 5 [0x2A, 0x2A, 0x42, 0x43, 0x41, 0xCA], rfl, rfl, by decide, by decide, rfl, parses_treeT _, by decide,
      by decide⟩,
    { withHeader 0 5 [] with cfg := { Config.default with checkTlen := false, input := [0x41, 1, 2] } }, rfl, rfl, by decide,
      by decide, rfl, .lit _ (by decide) (by decide), by decide, rfl, by decide⟩

theorem witness_TdesOfLengthZeroIsTheEmptyTree : ∃ s : State, s.fault = false ∧ s.hv = true ∧ s.htlen = 0 ∧ s.nm ≠ [] :=
  ⟨withTree (withHeader 0 0 [0x41]), by decide⟩

theorem witness_NoHeaderIsRaisedFirst : ∃ s : State, s.fault = false ∧ s.hv = false ∧ s.rootv = true :=
  ⟨withTree State.reset, by decide⟩

/-- V64 at its boundary: one byte less than the header says. -/
theorem witness_TdesChecksWhatIsAvailableFirst :
    ∃ s : State, s.fault = false ∧ s.hv = true ∧ InputOk s ∧ s.cfg.checkTlen = true ∧
      s.cfg.input.length - s.ipos.toNat < s.htlen.toNat ∧ s.cfg.input.length - s.ipos.toNat + 1 = s.htlen.toNat :=
  ⟨withHeader 0 3 [0x2A, 0x41], by decide⟩

theorem witness_TdesEndsAndFaultsLeaveNoTree : ∃ s : State, s.fault = false ∧ s.hv = true ∧ InputOk s ∧ s.htlen ≠ 0 :=
  ⟨withHeader 0 1 [0x5C], by decide⟩

theorem witness_TdesIsARunOfItsTokens :
    ∃ s s₀ : State, s.fault = false ∧ InputOk s ∧ tdesStart s = .ok s₀ ∧ s₀.treeOpen = true :=
  ⟨withHeader 0 5 [0x2A, 0x2A, 0x42, 0x43, 0x41], _, rfl, by decide, rfl, rfl⟩

/-- A `TDES` between two tokens: entry 0 is open and waits for the child the flag says. -/
def inLoop (w : Bool) (inp : List Byte) : State :=
  { withHeader 0 3 inp with
    nm := [(0, .internal 0 0)], nalloc := 1, tcnt := 1, stk := [{ node := 0, waitLeft := w }], treeOpen := true }

theorem witness_LeafTokenHangsUnderTheOpenNode :
    (∃ s : State, s.fault = false ∧ InputOk s ∧ 1 ≤ s.cfg.input.length - s.ipos.toNat ∧ s.nalloc.toNat < 512 ∧
      s.stk = [{ node := 0, waitLeft := true }] ∧ s.nmGet 0 = some (.internal 0 0) ∧
      (0 : NodeIdx).toNat ≠ s.nalloc.toNat) ∧
    (∃ s : State, s.fault = false ∧ InputOk s ∧ 2 ≤ s.cfg.input.length - s.ipos.toNat ∧ s.nalloc.toNat < 512 ∧
      s.stk = [{ node := 1, waitLeft := false }, { node := 0, waitLeft := true }] ∧ s.nmGet 1 = some (.internal 2 0) ∧
      (1 : NodeIdx).toNat ≠ s.nalloc.toNat) :=
  ⟨⟨inLoop true [0x41], by decide⟩,
    { inLoop true [0x5C, 0x2A] with
      nm := [(0, .internal 0 0), (1, .internal 2 0), (2, .leaf 0x41)], nalloc := 3
      stk := [{ node := 1, waitLeft := false }, { node := 0, waitLeft := true }] }, by decide⟩

/-- No node open and `CHECK_TLEN = 0`; no node open and the count equal to `HTLEN`; the root waiting for its right child and
the count equal; the same with the count one less. -/
theorem witness_LeafTokenCompletesTheTree :
    ∃ s u v w : State,
      (s.fault = false ∧ InputOk s ∧ 1 ≤ s.cfg.input.length - s.ipos.toNat ∧ s.nalloc.toNat < 512 ∧ s.stk = [] ∧
        s.cfg.checkTlen = false) ∧
      (u.fault = false ∧ InputOk u ∧ 2 ≤ u.cfg.input.length - u.ipos.toNat ∧ u.nalloc.toNat < 512 ∧ u.stk = [] ∧
        u.tcnt + BitVec.ofNat 13 2 = u.htlen) ∧
      (v.fault = false ∧ InputOk v ∧ 2 ≤ v.cfg.input.length - v.ipos.toNat ∧ v.nalloc.toNat < 512 ∧
        v.stk = [{ node := 0, waitLeft := false }] ∧ v.nmGet 0 = some (.internal 0 0) ∧ (0 : NodeIdx).toNat ≠ v.nalloc.toNat ∧
        v.tcnt + BitVec.ofNat 13 2 = v.htlen) ∧
      (w.fault = false ∧ InputOk w ∧ 1 ≤ w.cfg.input.length - w.ipos.toNat ∧ w.nalloc.toNat < 512 ∧
        w.stk = [{ node := 0, waitLeft := false }] ∧ w.nmGet 0 = some (.internal 0 0) ∧ (0 : NodeIdx).toNat ≠ w.nalloc.toNat ∧
        w.cfg.checkTlen = true ∧ w.tcnt + BitVec.ofNat 13 1 ≠ w.htlen) :=
  ⟨{ withHeader 0 5 [] with cfg := { Config.default with checkTlen := false, input := [0x41] } },
    withHeader 0 2 [0x5C, 0x5C], inLoop false [0x5C, 0x41], inLoop false [0x41], by decide⟩

theorem witness_MarkTokenOpensANode :
    (∃ s : State, s.fault = false ∧ InputOk s ∧ s.ipos.toNat < s.cfg.input.length ∧ s.nalloc.toNat < 512 ∧ s.stk = []) ∧
    (∃ s : State, s.fault = false ∧ InputOk s ∧ s.ipos.toNat < s.cfg.input.length ∧ s.nalloc.toNat < 512 ∧
      s.stk = [{ node := 0, waitLeft := false }] ∧ s.nmGet 0 = some (.internal 0 0) ∧
      (0 : NodeIdx).toNat ≠ s.nalloc.toNat) :=
  ⟨⟨withHeader 0 3 [0x2A], by decide⟩, inLoop false [0x2A], by decide⟩

theorem witness_TokensBeyondCapacityFault :
    ∃ s u v w x : State,
      (s.fault = false ∧ InputOk s ∧ s.ipos.toNat < s.cfg.input.length ∧ s.nalloc.toNat = 512) ∧
      (u.fault = false ∧ InputOk u ∧ u.ipos.toNat + 1 < u.cfg.input.length ∧ u.nalloc.toNat = 512) ∧
      (v.fault = false ∧ InputOk v ∧ v.ipos.toNat < v.cfg.input.length ∧ v.nalloc.toNat < 512 ∧ v.stk.length = 256 ∧
        ∀ e ∈ v.stk.head?, e.waitLeft = true) ∧
      (w.fault = false ∧ InputOk w ∧ w.ipos.toNat = w.cfg.input.length ∧ w.treeOpen = true) ∧
      (x.fault = false ∧ InputOk x ∧ x.ipos.toNat + 1 = x.cfg.input.length ∧ x.treeOpen = true ∧
        x.cfg.input[x.ipos.toNat]? = some x.cfg.esc) :=
  ⟨{ inLoop true [0x41] with nalloc := 512 }, { inLoop true [0x5C, 0x41] with nalloc := 512 },
    { inLoop true [0x2A] with nalloc := 256, stk := List.replicate 256 { node := 255, waitLeft := true } },
    inLoop true [], inLoop true [0x5C], by decide, by decide,
    ⟨rfl, by decide, by decide, by decide, List.length_replicate, by simp⟩, by decide, by decide⟩

/-- The container of E1, without its payload. -/
theorem witness_SerializedTreeIsReadBack :
    ∃ s₁ s₂ : State, s₁.fault = false ∧ WellFormedTree s₁ shapeT ∧ s₁.cfg.ok ∧ s₂.cfg.mark = s₁.cfg.mark ∧
      s₂.cfg.esc = s₁.cfg.esc ∧ s₂.fault = false ∧ InputOk s₂ ∧
      ((0x2005#16 : BitVec 16).extractLsb' 0 13).toNat = (shapeT.shape.ser s₁.cfg).length ∧
      s₂.cfg.input.drop s₂.ipos.toNat =
        (hdrBytes s₂.cfg 0x2005).1 :: (hdrBytes s₂.cfg 0x2005).2 :: (shapeT.shape.ser s₁.cfg ++ [0xCA]) :=
  ⟨withTree State.reset, withIn [0x20, 0x05, 0x2A, 0x2A, 0x42, 0x43, 0x41, 0xCA], rfl, wellFormed_treeT _, by decide, rfl,
    rfl, rfl, by decide, by decide, by decide⟩

theorem witness_HputAppendsTheHeader : State.reset.fault = false := by decide

theorem witness_HgetTakesTheHeader :
    ∃ s : State, s.fault = false ∧ InputOk s ∧ s.cfg.input.drop s.ipos.toNat = [0xFF, 0xFF] :=
  ⟨{ withIn [0x20, 0xFF, 0xFF] with ipos := 1 }, by decide⟩

theorem witness_HgetOfTooFewBytesIsTruncated :
    ∃ s u : State, (s.fault = false ∧ s.cfg.input.length - s.ipos.toNat = 1) ∧
      (u.fault = false ∧ u.cfg.input.length - u.ipos.toNat = 0) := ⟨withIn [0x20], withIn [], by decide⟩

theorem witness_HsetTakesTheHeaderFromTheWord : State.reset.fault = false := by decide

theorem witness_HgetInvertsHput :
    ∃ s u : State, ∃ hdr : List Byte, s.fault = false ∧ u.fault = false ∧ InputOk u ∧ u.cfg.hdrBigEndian = s.cfg.hdrBigEndian ∧
      (next (exec .hput s)).map (·.cout) = some (s.cout ++ hdr) ∧ u.cfg.input.drop u.ipos.toNat = hdr ++ [0x2A] :=
  ⟨{ State.reset with total := 7, tlen := 5 }, withIn [0x20, 0x05, 0x2A], [0x20, 0x05], by decide⟩

/-- V20 (codes A A B A C), and an empty payload. -/
theorem witness_UnpkDecodesTheCodes :
    (∃ s : State, s.fault = false ∧ s.hv = true ∧ InputOk s ∧ WellFormedTree s shapeT ∧
      (s.cfg.input.drop s.ipos.toNat = [] → s.pad = 0) ∧
      List.Forall₂ (fun p sym => Code shapeT.shape p sym) [[true], [true], [false, false], [true], [false, true]]
        [0x41, 0x41, 0x42, 0x41, 0x43] ∧
      significant (s.cfg.input.drop s.ipos.toNat) s.pad.toNat =
        [[true], [true], [false, false], [true], [false, true]].flatten) ∧
    (∃ s : State, s.fault = false ∧ s.hv = true ∧ InputOk s ∧ WellFormedTree s shapeT ∧ s.pad = 0 ∧
      significant (s.cfg.input.drop s.ipos.toNat) s.pad.toNat = []) :=
  ⟨⟨withTree (withHeader 1 0 [0xCA]), rfl, rfl, by decide, wellFormed_treeT _, by decide,
      .cons (.right (.here _)) (.cons (.right (.here _)) (.cons (.left (.left (.here _))) (.cons (.right (.here _))
        (.cons (.left (.right (.here _))) .nil)))), by decide⟩,
    withTree (withHeader 0 0 []), rfl, rfl, by decide, wellFormed_treeT _, rfl, by decide⟩

/-- V29. -/
theorem witness_UnpkOfASingleLeafRepeatsIt :
    ∃ s : State, s.fault = false ∧ s.hv = true ∧ InputOk s ∧ s.rootv = true ∧ s.nmGet s.root = some (.leaf 0x41) ∧
      s.ipos.toNat < s.cfg.input.length :=
  ⟨{ withHeader 4 0 [0x00] with nm := [(0, .leaf 0x41)], rootv := true }, by decide⟩

/-- V34, V25. -/
theorem witness_UnpkOfAnEmptyPayload :
    ∃ s u : State, (s.fault = false ∧ s.hv = true ∧ s.ipos.toNat = s.cfg.input.length ∧ s.pad = 0) ∧
      (u.fault = false ∧ u.hv = true ∧ u.ipos.toNat = u.cfg.input.length ∧ u.pad ≠ 0) :=
  ⟨withHeader 0 0 [], withHeader 3 0 [], by decide⟩

/-- V27, V28. -/
theorem witness_UnpkWithoutATreeRaisesNoTree :
    ∃ s u : State,
      (s.fault = false ∧ s.hv = true ∧ InputOk s ∧ s.rootv = false ∧ s.ipos.toNat + 1 = s.cfg.input.length) ∧
      (u.fault = false ∧ u.hv = true ∧ InputOk u ∧ u.rootv = false ∧ u.ipos.toNat + 2 < u.cfg.input.length) :=
  ⟨withHeader 0 0 [0xCA], withHeader 0 0 [0xCA, 0, 0], by decide⟩

/-- V21: the eighth bit leads to node 1 and no further. -/
theorem witness_UnpkOfAnUnfinishedCodeRaisesTruncCode :
    ∃ s : State, s.fault = false ∧ s.hv = true ∧ InputOk s ∧ WellFormedTree s shapeT ∧
      List.Forall₂ (fun p sym => Code shapeT.shape p sym) [[true], [true], [false, false], [true], [false, true]]
        [0x41, 0x41, 0x42, 0x41, 0x43] ∧
      [false] ≠ [] ∧ shapeT.Leads [false] 1 ∧
      significant (s.cfg.input.drop s.ipos.toNat) s.pad.toNat =
        [[true], [true], [false, false], [true], [false, true]].flatten ++ [false] :=
  ⟨withTree (withHeader 0 0 [0xCA]), rfl, rfl, by decide, wellFormed_treeT _,
    .cons (.right (.here _)) (.cons (.right (.here _)) (.cons (.left (.left (.here _))) (.cons (.right (.here _))
      (.cons (.left (.right (.here _))) .nil)))), by decide, .left (.here _ _ _), by decide⟩

/-- A graph that is no tree: the left edge of entry 0 leads back to it, the right edge to a leaf or to an entry that is
invalid. -/
def leftLoop (right : NodeIdx) (pad : BitVec 3) (inp : List Byte) : State :=
  { withHeader pad 0 inp with nm := [(0, .internal 0 right), (1, .leaf 0x41), (2, .internal 2 2)], rootv := true }

/-- Each clause: an invalid root; all bits walked, at the root and beside it; an invalid child at bit 15. -/
theorem witness_UnpkEndsOnAnyGraph :
    (∃ s : State, s.fault = false ∧ s.hv = true ∧ InputOk s ∧ s.rootv = true ∧ s.nmGet s.root = none ∧
      s.ipos.toNat < s.cfg.input.length) ∧
    (∃ s : State, ∃ bits syms, s.fault = false ∧ s.hv = true ∧ InputOk s ∧ s.rootv = true ∧
      significant (s.cfg.input.drop s.ipos.toNat) s.pad.toNat = bits ++ [] ∧ GraphWalk s.nm s.root s.root bits syms s.root ∧
      (s.cfg.input.drop s.ipos.toNat = [] → s.pad = 0)) ∧
    (∃ s : State, ∃ bits syms w, s.fault = false ∧ s.hv = true ∧ InputOk s ∧ s.rootv = true ∧
      significant (s.cfg.input.drop s.ipos.toNat) s.pad.toNat = bits ++ [] ∧ GraphWalk s.nm s.root s.root bits syms w ∧
      w ≠ s.root) ∧
    (∃ s : State, ∃ bits syms w l r, s.fault = false ∧ s.hv = true ∧ InputOk s ∧ s.rootv = true ∧
      significant (s.cfg.input.drop s.ipos.toNat) s.pad.toNat = bits ++ [true] ∧ GraphWalk s.nm s.root s.root bits syms w ∧
      s.nmGet w = some (.internal l r) ∧ s.nmGet r = none ∧ bits.length = 15) := by
  refine ⟨⟨{ withHeader 0 0 [0xCA] with root := 5, rootv := true }, by decide⟩,
    ⟨leftLoop 1 5 [0x20], [false, false, true], [0x41], rfl, rfl, by decide, rfl, by decide,
      .inner (l := 0) (r := 1) (l' := 0) (r' := 1) rfl rfl (.inner (l := 0) (r := 1) (l' := 0) (r' := 1) rfl rfl
        (.leaf (l := 0) (r := 1) rfl rfl (.stop _))), by decide⟩,
    ⟨leftLoop 2 7 [0x80], [true], [], 2, rfl, rfl, by decide, rfl, by decide,
      .inner (l := 0) (r := 2) (l' := 2) (r' := 2) rfl rfl (.stop _), by decide⟩,
    ⟨leftLoop 3 0 [0, 1], List.replicate 15 false, [], 0, 0, 3, rfl, rfl, by decide, rfl, by decide, ?_, rfl, rfl, rfl⟩⟩
  have walk : ∀ n, GraphWalk (leftLoop 3 0 [0, 1]).nm 0 0 (List.replicate n false) [] 0 := by
    intro n
    induction n with
    | zero => exact .stop _
    | succ n ih => exact .inner (l := 0) (r := 3) (l' := 0) (r' := 3) rfl rfl ih
  exact walk 15

/-- V20 and V22: `CA` and `CB` with one bit of padding. -/
theorem witness_UnpkDoesNotLookAtThePadding :
    ∃ s : State, s.ipos.toNat ≤ ([] : List Byte).length ∧ ([] : List Byte).length + 1 < 2 ^ 64 ∧
      (∀ k, k < 8 → s.pad.toNat ≤ k → (0xCA#8).getLsbD k = (0xCB#8).getLsbD k) ∧ (0xCA#8 : Byte) ≠ 0xCB#8 :=
  ⟨withTree (withHeader 1 0 []), by decide⟩

theorem witness_FaultStateRefusesTheRest :
    faulted.fault = true ∧ performedInFault .unpk = false ∧ performedInFault (.rdcsr 0x10) = false ∧
      Instr.rdcsr 0x0F ≠ .rst := by decide

theorem witness_OnlyResetLeavesTheFaultState :
    (∃ s t : State, s.fault = true ∧ step s = .next t ∧ t.fault = false) ∧
    (∃ s t : State, s.fault = true ∧ step s = .next t ∧ t.fault = true) :=
  ⟨⟨{ faulted with cmds := [0x08000000#32] }, _, rfl, rfl, rfl⟩, ⟨{ faulted with cmds := [0x20000001#32] }, _, rfl, rfl, rfl⟩⟩

/-- A state whose next step is a `PUTB`, with the premises of `StepKeepsThePackerInvariant`, `StepKeepsNodeMemoryCanonical`,
`StepKeepsUnwrittenRegistersZero`, `StepKeepsTheCountsInRange`, `StepKeepsTheHiddenStateQuiet`, `StepKeepsTheInputInRange`
and `StepOnlyAppendsToTheStreams` together. -/
theorem witness_StepKeeps :
    ∃ s t : State, step s = .next t ∧ PackerInv s ∧ Memory.wf s.nm ∧ LatchInv s ∧ UnwrittenInv s ∧ CountsInv s ∧ Quiet s ∧
      InputOk s :=
  ⟨{ withTree (withHeader 1 5 [0xCA]) with cmds := [0x20000001#32] }, _, rfl, by decide⟩

/-- The byte count of `StepKeepsThePackerInvariant`: the eighth bit, `FIN` with one bit buffered, and another instruction. -/
theorem witness_StepKeepsThePackerInvariant :
    ∃ s u : State, (PackerInv s ∧ PackerInv u) ∧
      (∃ t, exec (.putb true) s = .next t ∧ s.total.toNat ≤ t.total.toNat ∧ packedBytes t = 1 ∧ packedBytes s = 0) ∧
      (∃ t, exec .fin u = .next t ∧ u.total.toNat ≤ t.total.toNat ∧ packedBytes t = 2 ∧ packedBytes u = 1) ∧
      (∃ t, exec .hput s = .next t ∧ s.total.toNat ≤ t.total.toNat ∧ t.cout ≠ s.cout) ∧
      ∃ t, exec .rst u = .next t :=
  ⟨{ State.reset with acc := 0x7F, nbuf := 7, total := 7 }, { State.reset with acc := 1, nbuf := 1, total := 9 }, by decide,
    ⟨_, rfl, by decide⟩, ⟨_, rfl, by decide⟩, ⟨_, rfl, by decide⟩, _, rfl⟩

theorem witness_InvariantsHoldAtReset : Config.default.input.length < 2 ^ 64 := by decide

/-- For each clause an instruction that writes the register. -/
theorem witness_RegistersChangeOnlyByTheirWriters :
    let wrote {α : Type} [DecidableEq α] (f : State → α) (i : Instr) (s : State) : Bool :=
      (next (exec i s)).any fun t => decide (f t ≠ f s)
    wrote (·.total) (.putb true) State.reset = true ∧
    wrote (fun s => (s.acc, s.nbuf)) (.putc 3 5) State.reset = true ∧
    wrote (·.fdone) .fin State.reset = true ∧
    wrote (·.tlen) .tser (withTree State.reset) = true ∧
    wrote (fun s => (s.pad, s.htlen, s.hv)) (.hset 0x2005) State.reset = true ∧
    wrote (fun s => (s.tcnt, s.nalloc)) .tdes (withHeader 0 1 [0x41]) = true ∧
    wrote (fun s => (s.root, s.rootv)) (.sroot 5) State.reset = true ∧
    wrote (·.hold) .unpk (withTree (withHeader 1 0 [0xCA])) = true ∧
    wrote (·.holdv) .tser { State.reset with holdv := true, rootv := true } = true ∧
    wrote (·.walk) .unpk (withTree (withHeader 0 0 [0xCA])) = true ∧
    wrote (·.stk) .mark (withIn [0x2A]) = true ∧
    wrote (·.ipos) .hget (withIn [0x20, 0x05]) = true ∧
    wrote (·.nm) (.nleaf 4 0x41) State.reset = true ∧
    wrote (·.cout) .hput State.reset = true ∧
    wrote (·.sout) .unpk (withTree (withHeader 1 0 [0xCA])) = true ∧
    wrote (fun s => (s.fault, s.fcause, s.finfo)) .unpk State.reset = true := by decide

/-- The tree of V60 where the header says one byte more, which is available. -/
theorem witness_TdesOfAnotherLengthIsTlenMismatch :
    (∃ s : State, s.fault = false ∧ s.hv = true ∧ InputOk s ∧ s.cfg.ok ∧ s.cfg.checkTlen = true ∧
      s.cfg.input.drop s.ipos.toNat = [0x2A, 0x2A, 0x42, 0x43, 0x41] ++ [0xCA] ∧
      Parses s.cfg shapeT.shape [0x2A, 0x2A, 0x42, 0x43, 0x41] ∧ shapeT.shape.size ≤ 512 ∧ s.htlen ≠ 0 ∧
      s.htlen.toNat ≤ s.cfg.input.length - s.ipos.toNat ∧ s.htlen.toNat ≠ [0x2A, 0x2A, 0x42, 0x43, 0x41].length) :=
  ⟨withHeader 0 6 [0x2A, 0x2A, 0x42, 0x43, 0x41, 0xCA], rfl, rfl, by decide, by decide, rfl, rfl, parses_treeT _, by decide,
    by decide, by decide, by decide⟩

end Sys2Proof.Tests
end

/-! ### What a step takes (00_scope.md R10, 70_reset_and_hazards.md R169) -/

namespace Sys2Proof.Machine

/-- Between commands, a step takes the host's next word and performs what it decodes to (R10, R76). -/
theorem step_of_command {s : State} {w : Word} {later : List Word} {i : Instr} (ho : s.treeOpen = false)
    (hc : s.cmds = w :: later) (hd : decodeWord w = .ok i) : step s = exec i (s.withCmds later) := by
  have hfetch : fetch s = .command w later := by simp [fetch, ho, hc]
  simp [step, hfetch, hd]

/-- Inside the loop of `TDES`, a step performs the token at `IPOS` (R67, R118). -/
theorem step_of_token {s : State} {i : Instr} {more : List Byte} (ho : s.treeOpen = true)
    (hd : decodeToken s.cfg s.rest = .ok (i, more)) : step s = exec i s := by
  have hfetch : fetch s = .token s.rest := by simp [fetch, ho]
  simp [step, hfetch, hd]

/-- With no word presented, the block waits (R169). -/
theorem step_of_no_command {s : State} (ho : s.treeOpen = false) (hc : s.cmds = []) : step s = .next s := by
  have hfetch : fetch s = .idle := by simp [fetch, ho, hc]
  simp [step, hfetch]

/-- Settles O6, by what the step fetches: a word, a token or nothing. -/
theorem stepRunsTheDecodedInstruction : Obligations.StepRunsTheDecodedInstruction := by
  intro s
  exact ⟨fun _ _ _ ho hc hd => step_of_command ho hc hd, fun _ _ ho hd => step_of_token ho hd, step_of_no_command⟩

/-! ### The codes of a run of symbols (41_bit_unpacker.md R104) -/

/-- From an internal node into the subtree under one of its edges, the code of a symbol leads to its leaf, and from there
the walk goes on at the root (R72, R97). -/
theorem graphWalk_of_code_below {m : List (Nat × Node)} {root j : NodeIdx} {bits : List Bool} {syms : List Byte}
    {sym : Byte} (hrest : GraphWalk m root root bits syms j) (t : NTree) {w l r : NodeIdx} {b : Bool} {p : List Bool}
    (hw : nmRead m w.toNat = some (.internal l r)) (ht : (if b then r else l) = t.idx) (hs : t.stored m)
    (hcode : Code t.shape p sym) : GraphWalk m root w (b :: (p ++ bits)) (sym :: syms) j := by
  induction t generalizing w l r b p with
  | leaf i sym' =>
    cases hcode
    exact .leaf hw (by rw [ht]; exact hs) hrest
  | node i tl tr ihl ihr =>
    obtain ⟨hi, hsl, hsr⟩ := hs
    have hc : nmRead m (if b then r else l).toNat = some (.internal tl.idx tr.idx) := by rw [ht]; exact hi
    cases hcode with
    | left hp => exact .inner hw hc (ihl (b := false) hc rfl hsl hp)
    | right hp => exact .inner hw hc (ihr (b := true) hc rfl hsr hp)

/-- The code of a symbol leads from the root, an internal node, to its leaf and back to the root (R72, R97). -/
theorem graphWalk_of_code {m : List (Nat × Node)} {i j : NodeIdx} {l r : NTree} {p bits : List Bool} {sym : Byte}
    {syms : List Byte} (hs : (NTree.node i l r).stored m) (hcode : Code (NTree.node i l r).shape p sym)
    (hrest : GraphWalk m i i bits syms j) : GraphWalk m i i (p ++ bits) (sym :: syms) j := by
  obtain ⟨hi, hsl, hsr⟩ := hs
  cases hcode with
  | left hp => exact graphWalk_of_code_below hrest l hi (b := false) rfl hsl hp
  | right hp => exact graphWalk_of_code_below hrest r hi (b := true) rfl hsr hp

/-- The codes of symbols one after the other lead from the root back to the root and emit the symbols (R104); more bits
may follow. -/
theorem graphWalk_of_codes {m : List (Nat × Node)} {i j : NodeIdx} {l r : NTree} {codes : List (List Bool)}
    {bits : List Bool} {syms more : List Byte} (hs : (NTree.node i l r).stored m)
    (hcodes : List.Forall₂ (fun p sym => Code (NTree.node i l r).shape p sym) codes syms)
    (hrest : GraphWalk m i i bits more j) : GraphWalk m i i (codes.flatten ++ bits) (syms ++ more) j := by
  induction hcodes with
  | nil => exact hrest
  | cons hp _ ih =>
    rw [List.flatten_cons, List.append_assoc]
    exact graphWalk_of_code hs hp ih

/-- The unpacker's state before its first byte: the walk at the root, no byte held (R96). -/
def State.startWalk (s : State) : State := { s with walk := s.root, holdv := false }

/-- With a tree, where the walk over the payload's significant bits completes, `UNPK` comes to its test for an
unfinished code with all the input taken (R96, R101). -/
theorem unpkBody_of_walkBits {s u : State} (hv : s.hv = true) (hr : s.rootv = true) (hin : InputOk s)
    (he : s.rest = [] → s.pad = 0) (hw : walkBits (significant s.rest s.pad.toNat) s.startWalk = .ok u) :
    ∃ hold, unpkBody s =
      if u.walk = s.root then .ok ((u.atInput (BitVec.ofNat 64 s.cfg.input.length) hold false).setResp 0)
      else .raised .truncCode (zext64 u.walk) (u.atInput (BitVec.ofNat 64 s.cfg.input.length) hold false) := by
  have hfuel : s.rest.length < s.remaining + 1 := by simp [State.rest, State.remaining]
  obtain ⟨hold, hloop⟩ := unpkLoop_of_walk s.rest (s.remaining + 1) s.startWalk u hr hin.1 hin.2 rfl hfuel he hw
  obtain ⟨_, _, hu⟩ : (Body.ok u).All _ _ := hw ▸ walkBits_all (significant s.rest s.pad.toNat) s.startWalk
  have hurv : u.rootv = true := by rw [hu]; exact hr
  have hroot : u.root = s.root := by rw [hu]; rfl
  refine ⟨hold, ?_⟩
  rw [unpkBody, if_pos hv, show unpkLoop (s.remaining + 1) { s with walk := s.root, holdv := false } = _ from hloop,
    Body.bind_ok]
  by_cases hend : u.walk = s.root
  · rw [if_neg (fun h => h.2 (hend.trans hroot.symm)), if_pos hend]
    rfl
  · rw [if_pos ⟨hurv, fun h => hend (h.trans hroot)⟩, if_neg hend]
    rfl

/-- Settles O42: the codes are a walk from the root back to the root, the walk is what the significant bits do, and the loop
does what the significant bits do. -/
theorem unpkDecodesTheCodes : Obligations.UnpkDecodesTheCodes := by
  intro s i l r codes syms hf hv hin ⟨hr, hroot, hs, _, _⟩ he hcodes hsig
  have hi : s.root = i := hroot.symm
  have hwalk : GraphWalk s.nm s.root s.root codes.flatten syms s.root := by
    rw [hi]
    simpa using graphWalk_of_codes hs hcodes (.stop i)
  have hbits : walkBits codes.flatten s.startWalk =
      .ok { s.startWalk with sout := s.sout ++ syms, walk := s.root } :=
    walkBits_of_graphWalk hwalk s.startWalk rfl rfl rfl hr
      ⟨l.idx, r.idx, by rw [show s.startWalk.root = i from hi]; exact hs.1⟩
  obtain ⟨hold, hbody⟩ := unpkBody_of_walkBits hv hr hin he (hsig ▸ hbits)
  refine ⟨hold, ?_⟩
  rw [exec_unpk hf, hbody, if_pos rfl]
  rfl

end Sys2Proof.Machine

/-! ### Which registers an instruction writes (10_state.md R14 to R34) -/

namespace Sys2Proof.Machine

/-- The three tokens of the serialized tree (R67). -/
abbrev IsToken (i : Instr) : Prop := i = .mark ∨ (∃ x, i = .esc x) ∨ ∃ x, i = .lit x

/-- The three commands of the packer (R88, R89, R91). -/
abbrev Packs (i : Instr) : Prop := (∃ b, i = .putb b) ∨ (∃ len code, i = .putc len code) ∨ i = .fin

/-- Every register that differs from `s` to `t` is one that `i`, which is not `RST`, writes (R14 to R34), or one that
latching a fault writes (R155). Only a token leaves `TDES` in its loop. -/
structure Frame (i : Instr) (s t : State) : Prop where
  total : t.total ≠ s.total → (∃ b, i = .putb b) ∨ ∃ len code, i = .putc len code
  buffer : t.acc ≠ s.acc ∨ t.nbuf ≠ s.nbuf → Packs i
  fdone : t.fdone ≠ s.fdone → i = .fin
  tlen : t.tlen ≠ s.tlen → i = .tser
  header : t.pad ≠ s.pad ∨ t.htlen ≠ s.htlen ∨ t.hv ≠ s.hv → i = .hget ∨ ∃ imm, i = .hset imm
  counts : t.tcnt ≠ s.tcnt ∨ t.nalloc ≠ s.nalloc → i = .tdes ∨ IsToken i
  root : t.root ≠ s.root ∨ t.rootv ≠ s.rootv → (∃ idx, i = .sroot idx) ∨ i = .tdes ∨ IsToken i
  hold : t.hold ≠ s.hold → i = .unpk
  holdv : t.holdv ≠ s.holdv → t.holdv = false ∧ (i = .unpk ∨ (s.fault = false ∧ t.fault = true))
  walk : t.walk ≠ s.walk → i = .unpk
  stk : t.stk ≠ s.stk → i = .tser ∨ i = .tdes ∨ i = .mark ∨ (∃ x, i = .esc x) ∨ (∃ x, i = .lit x) ∨
    (s.fault = false ∧ t.fault = true ∧ t.stk = [])
  treeOpen : t.treeOpen = false ∨ t.treeOpen = s.treeOpen ∨ IsToken i
  ipos : t.ipos ≠ s.ipos → i = .hget ∨ i = .tdes ∨ i = .unpk ∨ IsToken i
  nm : t.nm ≠ s.nm → (∃ idx x, i = .nleaf idx x) ∨ (∃ idx l r, i = .nint idx l r) ∨ i = .tdes ∨ IsToken i
  cout : t.cout ≠ s.cout → i = .hput ∨ i = .tser ∨ Packs i
  sout : t.sout ≠ s.sout → i = .unpk
  latch : (t.fault = s.fault ∧ t.fcause = s.fcause ∧ t.finfo = s.finfo) ∨
    (s.fault = false ∧ t.fault = true ∧ ∃ c, t.fcause = causeCode c)
  cfg : t.cfg = s.cfg
  cmds : t.cmds = s.cmds

/-- An instruction may change the response alone, whatever it is. -/
theorem Frame.of_resp (i : Instr) (s : State) (v : Resp) : Frame i s { s with resp := v } := by
  constructor <;> simp

/-- Latching a fault adds to the registers written no others than R155 names. -/
theorem Frame.latched {i : Instr} {s u : State} (hu : Frame i s u) (hf : s.fault = false) (c : Cause) (info : Resp) :
    Frame i s (u.latch c info) :=
  { hu with
    holdv := fun _ => ⟨rfl, .inr ⟨hf, rfl⟩⟩
    stk := fun _ => .inr (.inr (.inr (.inr (.inr ⟨hf, rfl, rfl⟩))))
    treeOpen := .inl rfl
    latch := .inr ⟨hf, rfl, c, rfl⟩ }

theorem Frame.of_latch (i : Instr) {s : State} (hf : s.fault = false) (c : Cause) (info : Resp) :
    Frame i s (s.latch c info) :=
  (Frame.of_resp i s s.resp).latched hf c info

/-- What `TDES` or a token does to the tree it builds, to its counts and to `IPOS` (R118). -/
theorem Frame.of_tree {i : Instr} (hi : i = .tdes ∨ IsToken i) {s t : State} (hopen : t.treeOpen = false ∨ IsToken i)
    (ht : t = { s with nm := t.nm, nalloc := t.nalloc, rootv := t.rootv, root := t.root, stk := t.stk,
                       treeOpen := t.treeOpen, resp := t.resp, tcnt := t.tcnt, ipos := t.ipos }) : Frame i s t := by
  rw [ht]
  clear ht
  rcases hi with rfl | rfl | ⟨x, rfl⟩ | ⟨x, rfl⟩ <;> constructor <;> simp_all [IsToken]

theorem Frame.of_tokenEffect {i : Instr} (hi : IsToken i) {k : Nat} {s t : State} (hf : s.fault = false)
    (h : TokenEffect k s t) : Frame i s t := by
  rcases h with ⟨-, -, -, ht⟩ | ⟨c, info, j, u, -, ⟨-, -, hu⟩, ht⟩
  · exact .of_tree (.inr hi) (.inr hi) (by rw [ht])
  · rw [ht]
    exact (Frame.of_tree (.inr hi) (.inr hi) (by rw [hu]; rfl)).latched hf c info

/-- A run of bits writes the packer's registers and `COUT` (R89); `PUTB` is a run of one bit. -/
theorem Frame.of_pushBits {i : Instr} (hi : (∃ b, i = .putb b) ∨ ∃ len code, i = .putc len code) (s : State)
    (bits : List Bool) : Frame i s ((pushBits bits s).setResp 0) := by
  obtain ⟨acc, bs, -, heq⟩ := pushBits_frame bits s
  rw [heq]
  rcases hi with ⟨b, rfl⟩ | ⟨len, code, rfl⟩ <;> constructor <;> simp [Packs]

theorem Frame.of_finish (s : State) : Frame .fin s ((finish s).setResp 0) := by
  rw [finish_eq]
  split <;> constructor <;> simp [Packs]

/-- `UNPK` writes its own registers, `IPOS` and `SOUT` (R96). -/
theorem Frame.of_unpk {s t : State} (syms : List Byte) (hh : t.holdv = false) (ht : t = { s with
    sout := s.sout ++ syms, walk := t.walk, ipos := t.ipos, hold := t.hold, holdv := t.holdv, resp := t.resp }) :
    Frame .unpk s t := by
  rw [ht]
  constructor <;> simp [hh]

/-- `TSER` writes `TLEN`, its stack and `COUT` (R112). -/
theorem Frame.of_tser {s t : State} (bs : List Byte) (ht : t = { s with
    tlen := t.tlen, cout := s.cout ++ bs, stk := t.stk, resp := t.resp }) : Frame .tser s t := by
  rw [ht]
  constructor <;> simp

/-- Every instruction but `RST` writes the registers its rule names. -/
theorem Effect.frame {i : Instr} {s t : State} (h : Effect s t i) (hf : s.fault = false) (hi : i ≠ .rst) :
    Frame i s t := by
  cases i
  case rst => exact absurd rfl hi
  case nop => exact h ▸ .of_resp ..
  case nrd =>
    obtain ⟨v, rfl⟩ := h
    exact .of_resp ..
  case rdcsr =>
    obtain ⟨v, rfl⟩ | ⟨info, rfl⟩ := h
    · exact .of_resp ..
    · exact .of_latch _ hf ..
  case putb b =>
    obtain ⟨-, rfl⟩ | ⟨info, rfl⟩ := h
    · exact .of_pushBits (.inl ⟨b, rfl⟩) s [b]
    · exact .of_latch _ hf ..
  case putc len code =>
    obtain ⟨-, rfl⟩ | ⟨c, info, rfl⟩ := h
    · exact .of_pushBits (.inr ⟨len, code, rfl⟩) ..
    · exact .of_latch _ hf ..
  case fin => exact h ▸ .of_finish s
  case tser =>
    obtain ⟨bs, ht | ⟨c, info, u, hu, rfl⟩⟩ := h
    · exact .of_tser bs (by rw [ht])
    · exact (Frame.of_tser bs (by rw [hu])).latched hf ..
  case tdes =>
    obtain ⟨k, n, -, -, ⟨-, ht⟩ | ⟨info, rfl⟩ | ⟨c, info, u, ht, hu⟩⟩ := h
    · exact .of_tree (.inl rfl) (.inl (by rw [ht])) (by rw [ht])
    · exact .of_latch _ hf ..
    · rw [show t = (State.dropTree { u with treeOpen := false }).latch c info from ht]
      exact (Frame.of_tree (.inl rfl) (.inl rfl) (by rw [hu]; rfl)).latched hf c info
  case unpk =>
    obtain ⟨syms, ht | ⟨c, info, u, hu, ht⟩⟩ := h
    · exact .of_unpk syms (by rw [ht]) (by rw [ht])
    · rw [show t = State.latch { u with holdv := false } c info from ht]
      exact (Frame.of_unpk syms rfl (by rw [hu])).latched hf c info
  case hget =>
    obtain ⟨p, n, v, rfl⟩ | ⟨info, rfl⟩ := h
    · constructor <;> simp
    · exact .of_latch _ hf ..
  case hset =>
    obtain ⟨p, n, rfl⟩ := h
    constructor <;> simp
  case hput =>
    obtain ⟨b0, b1, rfl⟩ := h
    constructor <;> simp
  case mark | esc | lit => exact .of_tokenEffect (by simp [IsToken]) hf h
  case nleaf | nint | sroot =>
    rw [show t = _ from h]
    constructor <;> simp

end Sys2Proof.Machine

namespace Sys2Proof.Machine

theorem exec_frame {i : Instr} {s t : State} (h : exec i s = .next t) (hi : i ≠ .rst) : Frame i s t := by
  rcases exec_next h with ⟨-, ⟨v, rfl⟩ | ⟨hrst, -⟩⟩ | ⟨hf, he⟩
  · exact .of_resp i s v
  · exact absurd hrst hi
  · exact he.frame hf hi

/-- Settles O59: the clauses are those of `Frame`. -/
theorem registersChangeOnlyByTheirWriters : Obligations.RegistersChangeOnlyByTheirWriters := by
  intro s t i h hi
  have fr := exec_frame h hi
  refine ⟨fr.total, fr.buffer, fr.fdone, fr.tlen, fr.header, fr.counts, fr.root, fr.hold, fr.holdv, fr.walk, fr.stk,
    fr.ipos, fr.nm, fr.cout, fr.sout, ?_, fr.cfg, fr.cmds⟩
  rintro hne
  rcases fr.latch with ⟨hf, hc, hi⟩ | ⟨hf, ht, -⟩
  · simp [hf, hc, hi] at hne
  · exact ⟨hf, ht⟩

theorem reserved_ok {w : Word} {lo n : Nat} {k : Except Reject Instr} {i : Instr} (h : reserved w lo n k = .ok i) :
    k = .ok i := by
  unfold reserved at h
  split at h
  · exact h
  · cases h

/-- No command word decodes to a token (R79). -/
theorem decodeWord_not_token {w : Word} {i : Instr} (h : decodeWord w = .ok i) : ¬ IsToken i := by
  unfold decodeWord at h
  split at h
  case h_3 | h_5 =>
    have h := reserved_ok h
    split at h <;> cases h
    simp [IsToken]
  case h_8 =>
    cases h
    simp [IsToken]
  case h_17 => cases h
  all_goals
    cases reserved_ok h
    simp [IsToken]

/-! ### What every step keeps -/

/-- A property of the state that does not look at the response and the host's further words holds after every step, if `RST`,
every other command's effect between commands, and every token's inside the loop of `TDES`, keep it. -/
theorem step_keeps {P : State → Prop} {s t : State} (hquiet : ∀ s ws v, P s → P { s with cmds := ws, resp := v })
    (hrst : ∀ s, P s → P s.rst)
    (hcommand : ∀ i s t, P s → s.treeOpen = false → ¬ IsToken i → Effect s t i → Frame i s t → P t)
    (htoken : ∀ k s t, P s → s.treeOpen = true → k ≤ 2 → TokenEffect k s t → Frame .mark s t → P t)
    (hs : P s) (h : step s = .next t) : P t := by
  rcases step_next h with ⟨-, -, rfl⟩ | ⟨ho, w, later, i, -, hd, he⟩ | ⟨ho, w, later, e, -, -, ⟨-, rfl⟩ | ⟨hf, rfl⟩⟩ |
    ⟨ho, ⟨-, rfl⟩ | ⟨hf, k, hk, ht⟩⟩
  · exact hs
  · have hl : P (s.withCmds later) := hquiet s later s.resp hs
    by_cases hi : i = .rst
    · subst hi
      cases he
      exact hrst _ hl
    · have fr := exec_frame he hi
      rcases exec_next he with ⟨-, ⟨v, rfl⟩ | ⟨hrst', -⟩⟩ | ⟨-, heff⟩
      · exact hquiet s later v hs
      · exact absurd hrst' hi
      · exact hcommand i _ _ hl ho (decodeWord_not_token hd) heff fr
  · exact hquiet s later 0 hs
  · exact hcommand (.rdcsr 0) (s.withCmds later) _ (hquiet s later s.resp hs) ho (by simp [IsToken]) (.inr ⟨_, rfl⟩)
      (.of_latch (s := s.withCmds later) _ hf ..)
  · exact hquiet s s.cmds 0 hs
  · exact htoken k s t hs ho hk ht (.of_tokenEffect (.inl rfl) hf ht)

/-! ### The packer invariant (10_state.md R18) -/

/-- A bit shifted into an accumulator of `n` bits gives one of `n + 1`. -/
theorem shiftIn_lt {acc : BitVec 8} {n : Nat} (b : Bool) (h : acc.toNat < 2 ^ n) :
    (shiftIn acc b).toNat < 2 ^ (n + 1) := by
  rw [shiftIn_toNat]
  have hb := Bool.toNat_le b
  refine lt_of_le_of_lt (Nat.mod_le _ _) ?_
  rw [Nat.pow_succ]
  omega

theorem pushBit_keeps_packerInv {s : State} (b : Bool) (h : PackerInv s) (hd : s.fdone = false) :
    PackerInv (pushBit b s) := by
  obtain ⟨hacc, hnbuf, -⟩ := h
  have hn := hnbuf hd
  have htotal : (s.total + 1).toNat % 8 = (s.total.toNat + 1) % 8 := by
    rw [BitVec.toNat_add, show (1 : BitVec 64).toNat = 1 from rfl]
    omega
  by_cases h7 : s.nbuf = 7
  · rw [pushBit_flush b h7]
    refine ⟨by simp, fun _ => ?_, by simp [hd]⟩
    replace hn : 7 = s.total.toNat % 8 := by simpa [h7] using hn
    show 0 = (s.total + 1).toNat % 8
    rw [htotal]
    omega
  · rw [pushBit_hold b h7]
    refine ⟨?_, fun _ => ?_, by simp [hd]⟩
    · rw [nbuf_succ h7]
      exact shiftIn_lt b hacc
    · rw [nbuf_succ h7, htotal]
      have hlt := s.nbuf.isLt
      have hne : s.nbuf.toNat ≠ 7 := fun h => h7 (BitVec.eq_of_toNat_eq h)
      omega

theorem pushBit_fdone (b : Bool) (s : State) : (pushBit b s).fdone = s.fdone := by
  rw [pushBit_eq]
  split <;> rfl

theorem pushBits_keeps_packerInv (bits : List Bool) {s : State} (h : PackerInv s) (hd : s.fdone = false) :
    PackerInv (pushBits bits s) := by
  induction bits generalizing s with
  | nil => exact h
  | cons b bits ih => exact ih (pushBit_keeps_packerInv b h hd) ((pushBit_fdone b s).trans hd)

theorem finish_keeps_packerInv {s : State} (h : PackerInv s) : PackerInv (finish s) := by
  obtain ⟨hacc, -, -⟩ := h
  rw [finish_eq]
  split
  · next h0 =>
    have hacc0 : s.acc = 0 := BitVec.eq_of_toNat_eq (by simpa [h0] using hacc)
    exact ⟨hacc, nofun, fun _ => ⟨h0, hacc0⟩⟩
  · exact ⟨by simp, nofun, fun _ => ⟨rfl, rfl⟩⟩

/-- The packer invariant and its count of bytes look at four registers only. -/
theorem Frame.packer_eq {i : Instr} {s t : State} (fr : Frame i s t) (hi : ¬ Packs i) :
    t.acc = s.acc ∧ t.nbuf = s.nbuf ∧ t.total = s.total ∧ t.fdone = s.fdone := by
  simp only [Packs, not_or] at hi
  have hbuf := mt fr.buffer (by simp [Packs, hi])
  have htotal := mt fr.total (by simp [hi])
  have hfdone := mt fr.fdone (by simp [hi])
  simp only [not_or, ne_eq, not_not] at hbuf htotal hfdone
  obtain ⟨hacc, hnbuf⟩ := hbuf
  exact ⟨hacc, hnbuf, htotal, hfdone⟩

theorem Frame.keeps_packerInv {i : Instr} {s t : State} (fr : Frame i s t) (hi : ¬ Packs i) (h : PackerInv s) :
    PackerInv t := by
  obtain ⟨hacc, hnbuf, htotal, hfdone⟩ := fr.packer_eq hi
  simpa only [PackerInv, hacc, hnbuf, htotal, hfdone] using h

theorem Frame.packedBytes_eq {i : Instr} {s t : State} (fr : Frame i s t) (hi : ¬ Packs i) :
    packedBytes t = packedBytes s := by
  obtain ⟨-, -, htotal, hfdone⟩ := fr.packer_eq hi
  simp only [packedBytes, htotal, hfdone]

theorem effect_keeps_packerInv {i : Instr} {s t : State} (h : PackerInv s) (he : Effect s t i) (fr : Frame i s t) :
    PackerInv t := by
  by_cases hi : Packs i
  · rcases hi with ⟨b, rfl⟩ | ⟨len, code, rfl⟩ | rfl
    · obtain ⟨hd, rfl⟩ | ⟨info, rfl⟩ := he
      · exact pushBit_keeps_packerInv b h hd
      · exact h
    · obtain ⟨hd, rfl⟩ | ⟨c, info, rfl⟩ := he
      · exact pushBits_keeps_packerInv _ h hd
      · exact h
    · exact he ▸ finish_keeps_packerInv h
  · exact fr.keeps_packerInv hi h

theorem step_keeps_packerInv {s t : State} (h : PackerInv s) (hstep : step s = .next t) : PackerInv t :=
  step_keeps (P := PackerInv) (fun _ _ _ h => h) (fun _ _ => ⟨by simp, by simp, by simp⟩)
    (fun _ _ _ h _ _ he fr => effect_keeps_packerInv h he fr)
    (fun _ _ _ h _ _ _ fr => fr.keeps_packerInv (by simp [Packs]) h) h hstep

/-- From `s` to `t` the packer has appended as many bytes to `COUT` as its count of bytes has grown by. -/
def KeepsPace (s t : State) : Prop := ∃ bs, t.cout = s.cout ++ bs ∧ packedBytes t = packedBytes s + bs.length

theorem KeepsPace.refl {s t : State} (hc : t.cout = s.cout) (hp : packedBytes t = packedBytes s) : KeepsPace s t :=
  ⟨[], by simpa using hc, by simpa using hp⟩

theorem pushBits_keepsPace {bits : List Bool} {s : State} (h : PackerInv s) (hd : s.fdone = false)
    (hlen : bits.length < 2 ^ 64) (hwrap : s.total.toNat ≤ (pushBits bits s).total.toNat) :
    KeepsPace s (pushBits bits s) := by
  obtain ⟨acc, bs, hbs, heq⟩ := pushBits_frame bits s
  obtain ⟨-, hopen, -⟩ := h
  have hn := hopen hd
  rw [heq] at hwrap ⊢
  simp only [BitVec.toNat_add, BitVec.toNat_ofNat] at hwrap
  refine ⟨bs, rfl, ?_⟩
  simp only [packedBytes, hd, Bool.false_eq_true, if_false, BitVec.toNat_add, BitVec.toNat_ofNat]
  omega

theorem finish_keepsPace {s : State} (h : PackerInv s) : KeepsPace s (finish s) := by
  obtain ⟨-, hopen, hdone⟩ := h
  rw [finish_eq]
  cases hd : s.fdone with
  | true =>
    rw [if_pos (hdone hd).1]
    exact .refl rfl (by simp [packedBytes, hd])
  | false =>
    have hn := hopen hd
    split
    · next h0 =>
      replace hn : 0 = s.total.toNat % 8 := by simpa [h0] using hn
      refine .refl rfl ?_
      simp [packedBytes, hd]
      omega
    · next h0 =>
      have hpos : s.nbuf.toNat ≠ 0 := fun h => h0 (BitVec.eq_of_toNat_eq h)
      refine ⟨[_], rfl, ?_⟩
      simp [packedBytes, hd]
      omega

/-- `PUTB`, `PUTC` and `FIN` keep the count of bytes, as long as `TOTAL` does not wrap. -/
theorem exec_packs_keepsPace {i : Instr} {s t : State} (h : PackerInv s) (hi : Packs i) (he : exec i s = .next t)
    (hwrap : s.total.toNat ≤ t.total.toNat) : KeepsPace s t := by
  rcases exec_next he with ⟨-, ⟨v, rfl⟩ | ⟨rfl, -⟩⟩ | ⟨-, heff⟩
  · exact .refl rfl rfl
  · simp [Packs] at hi
  · rcases hi with ⟨b, rfl⟩ | ⟨len, code, rfl⟩ | rfl
    · obtain ⟨hd, rfl⟩ | ⟨info, rfl⟩ := heff
      · exact pushBits_keepsPace (bits := [b]) h hd (by simp) hwrap
      · exact .refl rfl rfl
    · obtain ⟨hd, rfl⟩ | ⟨c, info, rfl⟩ := heff
      · have hlen : (codeBits len code).length < 2 ^ 64 := by
          rw [codeBits, bitsDown_length]
          omega
        exact pushBits_keepsPace h hd hlen hwrap
      · exact .refl rfl rfl
    · exact heff ▸ finish_keepsPace h

/-- Settles O51: `step_keeps` for the invariant; for the count of bytes, the run of bits and `FIN` by arithmetic on `TOTAL`,
and every other instruction by its frame. -/
theorem stepKeepsThePackerInvariant : Obligations.StepKeepsThePackerInvariant := by
  intro s t h
  refine ⟨step_keeps_packerInv h, fun i he hwrap => ⟨fun hi => exec_packs_keepsPace h hi he hwrap, ?_⟩, ?_⟩
  · intro hputb hputc hfin hrst
    exact (exec_frame he hrst).packedBytes_eq (by simp [Packs, hputb, hputc, hfin])
  · intro he
    cases he
    simp [packedBytes]

end Sys2Proof.Machine

/-! ### The other invariants every step keeps (10_state.md R13, R20 to R34) -/

namespace Sys2Proof.Machine

theorem Frame.treeOpen_of_command {i : Instr} {s t : State} (fr : Frame i s t) (ho : s.treeOpen = false)
    (hi : ¬ IsToken i) : t.treeOpen = false := by
  rcases fr.treeOpen with h | h | h
  · exact h
  · exact h.trans ho
  · exact absurd h hi

theorem effect_keeps_memory {i : Instr} {s t : State} (h : Memory.wf s.nm) (hi : ¬ IsToken i) (he : Effect s t i)
    (fr : Frame i s t) : Memory.wf t.nm := by
  by_cases hne : t.nm = s.nm
  · rwa [hne]
  · rcases fr.nm hne with ⟨idx, x, rfl⟩ | ⟨idx, l, r, rfl⟩ | rfl | hi'
    · exact he ▸ State.nmSet_wf idx _ h
    · exact he ▸ State.nmSet_wf idx _ h
    · obtain ⟨k, n, -, -, ⟨hw, -⟩ | ⟨info, rfl⟩ | ⟨c, info, u, rfl, -⟩⟩ := he
      · exact hw
      · exact h
      · exact memory_wf_nil
    · exact absurd hi' hi

theorem token_keeps_memory {k : Nat} {s t : State} (h : Memory.wf s.nm) (ht : TokenEffect k s t) : Memory.wf t.nm := by
  rcases ht with ⟨-, -, hw, -⟩ | ⟨c, info, j, u, -, -, rfl⟩
  · exact hw h
  · exact memory_wf_nil

/-- Settles O52: the commands that write node memory and the tokens keep the canonical form. -/
theorem stepKeepsNodeMemoryCanonical : Obligations.StepKeepsNodeMemoryCanonical :=
  fun _ _ => step_keeps (P := fun s => Memory.wf s.nm) (fun _ _ _ h => h) (fun _ _ => memory_wf_nil)
    (fun _ _ _ h _ hi he fr => effect_keeps_memory h hi he fr) (fun _ _ _ h _ _ ht _ => token_keeps_memory h ht)

theorem Frame.keeps_latchInv {i : Instr} {s t : State} (fr : Frame i s t) (h : LatchInv s) : LatchInv t := by
  rcases fr.latch with ⟨hf, hc, hinfo⟩ | ⟨-, ht, c, hc⟩
  · simpa only [LatchInv, hf, hc, hinfo] using h
  · refine ⟨fun hf => ?_, fun _ => hc ▸ causeCode_range c⟩
    simp [ht] at hf

theorem step_keeps_latchInv {s t : State} (h : LatchInv s) (hstep : step s = .next t) : LatchInv t :=
  step_keeps (P := LatchInv) (fun _ _ _ h => h) (fun _ _ => ⟨fun _ => ⟨rfl, rfl⟩, nofun⟩)
    (fun _ _ _ h _ _ _ fr => fr.keeps_latchInv h) (fun _ _ _ h _ _ _ fr => fr.keeps_latchInv h) h hstep

/-- `HGET` and `HSET` leave a valid header, or the fault of `HGET` leaves the header fields as they were. -/
theorem effect_keeps_header {i : Instr} {s t : State} (h : s.hv = false → s.pad = 0 ∧ s.htlen = 0) (he : Effect s t i)
    (fr : Frame i s t) : t.hv = false → t.pad = 0 ∧ t.htlen = 0 := by
  by_cases hne : t.pad ≠ s.pad ∨ t.htlen ≠ s.htlen ∨ t.hv ≠ s.hv
  · rcases fr.header hne with rfl | ⟨imm, rfl⟩
    · obtain ⟨p, n, v, rfl⟩ | ⟨info, rfl⟩ := he
      · nofun
      · exact h
    · obtain ⟨p, n, rfl⟩ := he
      nofun
  · simp only [not_or, ne_eq, not_not] at hne
    obtain ⟨hp, hn, hv⟩ := hne
    rwa [hp, hn, hv]

/-- `SROOT` names a root, and `TDES` leaves `ROOT` 0 or, without a header, as it was. -/
theorem effect_keeps_root {i : Instr} {s t : State} (h : s.rootv = false → s.root = 0) (hi : ¬ IsToken i)
    (he : Effect s t i) (fr : Frame i s t) : t.rootv = false → t.root = 0 := by
  by_cases hne : t.root ≠ s.root ∨ t.rootv ≠ s.rootv
  · rcases fr.root hne with ⟨idx, rfl⟩ | rfl | hi'
    · rw [show t = { s with root := idx, rootv := true, resp := 0 } from he]
      nofun
    · obtain ⟨k, n, -, -, ⟨-, ht⟩ | ⟨info, rfl⟩ | ⟨c, info, u, rfl, hu⟩⟩ := he
      · exact fun _ => by rw [ht]
      · exact h
      · exact fun _ => by rw [hu]; rfl
    · exact absurd hi' hi
  · simp only [not_or, ne_eq, not_not] at hne
    obtain ⟨hr, hv⟩ := hne
    rwa [hr, hv]

theorem effect_keeps_unwrittenInv {i : Instr} {s t : State} (h : UnwrittenInv s) (ho : s.treeOpen = false)
    (hi : ¬ IsToken i) (he : Effect s t i) (fr : Frame i s t) : UnwrittenInv t := by
  obtain ⟨hheader, hroot⟩ := h
  refine ⟨effect_keeps_header hheader he fr, ?_⟩
  rintro (hv | hopen)
  · exact effect_keeps_root (fun hv => hroot (.inl hv)) hi he fr hv
  · simp [fr.treeOpen_of_command ho hi] at hopen

/-- Inside the loop of `TDES`, `ROOT` is 0 and stays so until a tree is complete, whose root is entry 0 (R118). -/
theorem token_keeps_unwrittenInv {k : Nat} {s t : State} (h : UnwrittenInv s) (ho : s.treeOpen = true)
    (ht : TokenEffect k s t) : UnwrittenInv t := by
  obtain ⟨hheader, hroot⟩ := h
  have hroot : s.root = 0 := hroot (.inr ho)
  rcases ht with ⟨-, hpass, -, ht⟩ | ⟨c, info, j, u, -, ⟨-, -, hu⟩, rfl⟩
  · refine ⟨by rw [ht]; exact hheader, fun _ => ?_⟩
    rcases hpass with ⟨-, -, hr, -⟩ | ⟨-, -, hr, -⟩
    · exact hr.trans hroot
    · exact hr
  · rw [hu]
    exact ⟨hheader, fun _ => hroot⟩

theorem step_keeps_unwrittenInv {s t : State} (h : UnwrittenInv s) (hstep : step s = .next t) : UnwrittenInv t :=
  step_keeps (P := UnwrittenInv) (fun _ _ _ h => h) (fun _ _ => ⟨fun _ => ⟨rfl, rfl⟩, fun _ => rfl⟩)
    (fun _ _ _ h ho hi he fr => effect_keeps_unwrittenInv h ho hi he fr)
    (fun _ _ _ h ho _ ht _ => token_keeps_unwrittenInv h ho ht) h hstep

/-- Settles O53, one invariant at a time. -/
theorem stepKeepsUnwrittenRegistersZero : Obligations.StepKeepsUnwrittenRegistersZero :=
  fun _ _ hstep => ⟨fun h => step_keeps_latchInv h hstep, fun h => step_keeps_unwrittenInv h hstep⟩

/-- `TDES` sets both counts, in range, or without a header leaves them. -/
theorem effect_keeps_countsInv {i : Instr} {s t : State} (h : CountsInv s) (ho : s.treeOpen = false)
    (hi : ¬ IsToken i) (he : Effect s t i) (fr : Frame i s t) : CountsInv t := by
  obtain ⟨hn, hc, -⟩ := h
  have hopen := fr.treeOpen_of_command ho hi
  suffices t.nalloc.toNat ≤ 512 ∧ t.tcnt.toNat ≤ 1026 from ⟨this.1, this.2, by simp [hopen]⟩
  by_cases hne : t.tcnt ≠ s.tcnt ∨ t.nalloc ≠ s.nalloc
  · rcases fr.counts hne with rfl | hi'
    · obtain ⟨k, n, hk, hn', ⟨-, ht⟩ | ⟨info, rfl⟩ | ⟨c, info, u, rfl, hu⟩⟩ := he
      · rw [ht]
        simp only [BitVec.toNat_ofNat]
        omega
      · exact ⟨hn, hc⟩
      · rw [hu]
        simp only [State.latch_nalloc, State.latch_tcnt, State.dropTree_nalloc, State.dropTree_tcnt, BitVec.toNat_ofNat]
        omega
    · exact absurd hi' hi
  · simp only [not_or, ne_eq, not_not] at hne
    obtain ⟨htc, hna⟩ := hne
    rw [htc, hna]
    exact ⟨hn, hc⟩

/-- A token takes at most two bytes and, unless it raises, one entry. -/
theorem token_keeps_countsInv {k : Nat} {s t : State} (h : CountsInv s) (ho : s.treeOpen = true) (hk : k ≤ 2)
    (ht : TokenEffect k s t) : CountsInv t := by
  obtain ⟨hn, hc, hopen⟩ := h
  have hopen := hopen ho
  have htcnt : ∀ j ≤ 2, (s.tcnt + BitVec.ofNat 13 j).toNat = s.tcnt.toNat + j := fun j hj => by
    rw [BitVec.toNat_add, BitVec.toNat_ofNat]
    omega
  rcases ht with ⟨hne, -, -, ht⟩ | ⟨c, info, j, u, hj, ⟨-, hna, hu⟩, rfl⟩
  · have htc : t.tcnt.toNat = s.tcnt.toNat + k := by rw [ht, htcnt k hk]
    have hna : t.nalloc.toNat = s.nalloc.toNat + 1 := by rw [ht, nalloc_succ (by omega)]
    exact ⟨by omega, by omega, fun _ => by omega⟩
  · have htc : u.tcnt.toNat = s.tcnt.toNat + j := by rw [hu, htcnt j (by omega)]
    refine ⟨?_, ?_, nofun⟩
    · rcases hna with hna | ⟨hne, hna⟩
      · simpa [hna] using hn
      · simp only [State.latch_nalloc, State.dropTree_nalloc, hna]
        rw [nalloc_succ (by omega)]
        omega
    · simp only [State.latch_tcnt, State.dropTree_tcnt]
      omega

/-- Settles O54: inside the loop of `TDES` the bytes are at most twice the entries, so the last token cannot pass the bound. -/
theorem stepKeepsTheCountsInRange : Obligations.StepKeepsTheCountsInRange :=
  fun _ _ => step_keeps (P := CountsInv) (fun _ _ _ h => h) (fun _ _ => ⟨by simp, by simp, nofun⟩)
    (fun _ _ _ h ho hi he fr => effect_keeps_countsInv h ho hi he fr)
    (fun _ _ _ h ho hk ht _ => token_keeps_countsInv h ho hk ht)

/-- Only `TSER` and `TDES` among the commands use the stack, and both leave it empty. -/
theorem effect_keeps_quiet {i : Instr} {s t : State} (h : Quiet s) (hi : ¬ IsToken i) (he : Effect s t i)
    (fr : Frame i s t) : Quiet t := by
  obtain ⟨hh, hstk, ho⟩ := h
  refine ⟨?_, ?_, fr.treeOpen_of_command ho hi⟩
  · by_cases hne : t.holdv = s.holdv
    · exact hne.trans hh
    · exact (fr.holdv hne).1
  · by_cases hne : t.stk = s.stk
    · exact hne.trans hstk
    · rcases fr.stk hne with rfl | rfl | hi' | hi' | hi' | ⟨-, -, h⟩
      · obtain ⟨bs, ht | ⟨c, info, u, -, rfl⟩⟩ := he
        · rw [ht]
        · rfl
      · obtain ⟨k, n, -, -, ⟨-, ht⟩ | ⟨info, rfl⟩ | ⟨c, info, u, rfl, -⟩⟩ := he
        · rw [ht]
        · rfl
        · rfl
      · exact absurd (.inl hi') hi
      · exact absurd (.inr (.inl hi')) hi
      · exact absurd (.inr (.inr hi')) hi
      · exact h

/-- Settles O55: a state that is quiet is between commands, so no token is taken from it. -/
theorem stepKeepsTheHiddenStateQuiet : Obligations.StepKeepsTheHiddenStateQuiet :=
  fun _ _ => step_keeps (P := Quiet) (fun _ _ _ h => h) (fun _ _ => ⟨rfl, rfl, rfl⟩)
    (fun _ _ _ h _ hi he fr => effect_keeps_quiet h hi he fr)
    (fun _ _ _ ⟨_, _, hclosed⟩ ho _ _ _ => absurd (hclosed.symm.trans ho) (by decide))

end Sys2Proof.Machine

/-! ### The input stays in range (10_state.md R13, R31) -/

namespace Sys2Proof.Machine

/-- From `s` to `t` the launch's record is unchanged and `IPOS` has stayed inside the input. -/
def InputKept (s t : State) : Prop := t.cfg = s.cfg ∧ t.ipos.toNat ≤ s.cfg.input.length

theorem InputKept.inputOk {s t : State} (h : InputKept s t) (hs : InputOk s) : InputOk t := by
  obtain ⟨hcfg, hpos⟩ := h
  rw [InputOk, hcfg]
  exact ⟨hs.1, hpos⟩

theorem InputKept.of_ipos_eq {s t : State} (hs : InputOk s) (hcfg : t.cfg = s.cfg) (hi : t.ipos = s.ipos) :
    InputKept s t :=
  ⟨hcfg, hi ▸ hs.2⟩

theorem InputKept.of_taken {s t : State} (hs : InputOk s) {k : Nat} (hk : s.ipos.toNat + k ≤ s.cfg.input.length)
    (hcfg : t.cfg = s.cfg) (hi : t.ipos = s.ipos + BitVec.ofNat 64 k) : InputKept s t := by
  have hlt := hs.1
  refine ⟨hcfg, ?_⟩
  rw [hi, BitVec.toNat_add, BitVec.toNat_ofNat]
  omega

/-- Latching a fault leaves the input, so a command keeps it if its body does. -/
theorem settle_inputKept {b : Body} {s t : State} (hb : b.Ends (InputKept s) (fun _ u => InputKept s u))
    (h : settle b = .next t) : InputKept s t := by
  rcases settle_ends hb h with ht | ⟨c, info, u, hu, rfl⟩
  · exact ht
  · exact hu

theorem settleTdes_inputKept {b : Body} {s t : State} (hb : b.Ends (InputKept s) (fun _ u => InputKept s u))
    (h : settleTdes b = .next t) : InputKept s t := by
  rcases settleTdes_ends hb h with ht | ⟨c, info, u, hu, rfl⟩
  · exact ht
  · split <;> exact hu

theorem PassEnds.inputKept {k : Nat} {s t : State} (hs : InputOk s) (h : PassEnds k s t) : InputKept s t := by
  obtain ⟨hk, -, -, -, ht⟩ := h
  exact .of_taken hs hk (by rw [ht]) (by rw [ht])

theorem PassRaises.inputKept {k : Nat} {s t : State} {c : Cause} (hs : InputOk s) (h : PassRaises k s c t) :
    InputKept s t := by
  obtain ⟨-, hk, -, ht⟩ := h
  exact .of_taken hs (hk hs.2) (by rw [ht]) (by rw [ht])

theorem getPlace_inputKept {s : State} (hs : InputOk s) (nd : Node) :
    (getByte s fun _ u => place nd u).Ends (InputKept s) (fun _ u => InputKept s u) :=
  (getPlace_all s nd).ends.mono (fun _ h => h.inputKept hs) (fun _ _ ⟨_, _, h⟩ => h.inputKept hs)

theorem getGetPlace_inputKept {s : State} (hs : InputOk s) (nd : Node) :
    (getByte s fun _ u => getByte u fun _ u => place nd u).Ends (InputKept s) (fun _ u => InputKept s u) :=
  (getGetPlace_all hs.1 fun _ => nd).ends.mono (fun _ h => h.inputKept hs) (fun _ _ ⟨_, _, h⟩ => h.inputKept hs)

theorem tdesPass_inputKept {s : State} (hs : InputOk s) :
    (tdesPass s).Ends (InputKept s) (fun _ u => InputKept s u) :=
  (tdesPass_all hs.1).ends.mono (fun _ ⟨_, _, _, h⟩ => h.inputKept hs) (fun _ _ ⟨_, _, h⟩ => h.inputKept hs)

theorem tdesBody_inputKept {s : State} (hs : InputOk s) :
    ((tdesStart s).bind (tdesLoop Config.tdesPasses)).Ends (InputKept s) (fun _ u => InputKept s u) := by
  by_cases hv : s.hv = true
  · refine (tdesBody_all hv hs.1 hs.2).ends.mono ?_ ?_
    · rintro t ⟨k, n, -, -, hk, -, -, ht⟩
      exact .of_taken hs hk (by rw [ht]) (by rw [ht])
    · rintro c t ⟨-, k, n, -, -, hk, ht⟩
      exact .of_taken hs hk (by rw [ht]) (by rw [ht])
  · rw [tdesStart, if_neg hv]
    exact .of_ipos_eq hs rfl rfl

theorem unpkBody_inputKept {s : State} (hs : InputOk s) :
    (unpkBody s).Ends (InputKept s) (fun _ u => InputKept s u) := by
  by_cases hv : s.hv = true
  · refine (unpkBody_all hv hs.1 hs.2).ends.mono ?_ ?_
    · rintro t ⟨hpos, -, syms, -, ht⟩
      exact ⟨by rw [ht], hpos.le⟩
    · rintro c t ⟨-, -, hpos, syms, -, ht⟩
      exact ⟨by rw [ht], hpos⟩
  · rw [unpkBody, if_neg hv]
    exact .of_ipos_eq hs rfl rfl

theorem hgetBody_inputKept {s : State} (hs : InputOk s) :
    (hgetBody s).Ends (InputKept s) (fun _ u => InputKept s u) := by
  rcases hgetBody_cases hs.1 with ⟨-, h⟩ | ⟨b0, b1, hk, -, h⟩
  · rw [h]
    exact .of_ipos_eq hs rfl rfl
  · rw [h]
    exact .of_taken (k := 2) hs hk rfl rfl

/-- No instruction moves `IPOS` beyond the input: those that move it take bytes that are there. -/
theorem exec_inputKept {i : Instr} {s t : State} (hs : InputOk s) (h : exec i s = .next t) : InputKept s t := by
  by_cases hi : i = .rst
  · subst hi
    cases h
    exact ⟨rfl, by simp⟩
  have fr := exec_frame h hi
  by_cases hne : t.ipos = s.ipos
  · exact .of_ipos_eq hs fr.cfg hne
  rcases exec_next h with ⟨-, ⟨v, rfl⟩ | ⟨hrst, -⟩⟩ | ⟨hf, -⟩
  · exact absurd rfl hne
  · exact absurd hrst hi
  · rcases fr.ipos hne with rfl | rfl | rfl | rfl | ⟨x, rfl⟩ | ⟨x, rfl⟩
    · exact settle_inputKept (hgetBody_inputKept hs) (exec_hget hf ▸ h)
    · exact settleTdes_inputKept (tdesBody_inputKept hs) (exec_tdes hf ▸ h)
    · exact settle_inputKept (unpkBody_inputKept hs) (exec_unpk hf ▸ h)
    · exact settleTdes_inputKept (getPlace_inputKept hs _) (exec_mark hf ▸ h)
    · exact settleTdes_inputKept (getGetPlace_inputKept hs _) (exec_esc x hf ▸ h)
    · exact settleTdes_inputKept (getPlace_inputKept hs _) (exec_lit x hf ▸ h)

theorem illegalWord_inputKept {w : Word} {s t : State} (hs : InputOk s) (h : illegalWord w s = .next t) :
    InputKept s t := by
  rcases illegalWord_next h with ⟨-, rfl⟩ | ⟨-, rfl⟩
  · exact .of_ipos_eq hs rfl rfl
  · exact .of_ipos_eq hs rfl rfl

theorem truncatedToken_inputKept {s t : State} (hs : InputOk s) (h : truncatedToken s = .next t) : InputKept s t := by
  rcases unlessFault_next h with ⟨-, rfl⟩ | ⟨-, h⟩
  · exact .of_ipos_eq hs rfl rfl
  · exact settleTdes_inputKept (tdesPass_inputKept hs) h

theorem step_inputKept {s t : State} (hs : InputOk s) (h : step s = .next t) : InputKept s t := by
  unfold step at h
  split at h
  · cases h
    exact .of_ipos_eq hs rfl rfl
  · next w later _ =>
    split at h
    · exact exec_inputKept (s := s.withCmds later) hs h
    · exact illegalWord_inputKept (s := s.withCmds later) hs h
  · split at h
    · exact exec_inputKept hs h
    · exact truncatedToken_inputKept hs h

/-- Settles O56: what a step takes, a word, an illegal word or a token, keeps the input. -/
theorem stepKeepsTheInputInRange : Obligations.StepKeepsTheInputInRange := by
  intro s t hs h
  obtain ⟨hcfg, hpos⟩ := step_inputKept hs h
  exact ⟨InputKept.inputOk ⟨hcfg, hpos⟩ hs, congrArg Config.input hcfg, hcfg⟩

end Sys2Proof.Machine

/-! ### Reading the CSRs (10_state.md R35 to R38; 44_system.md R135) -/

namespace Sys2Proof.Machine

theorem exec_rdcsr {csr : BitVec 8} {s : State} {v : Resp} (h : s.readCsr csr = some v) :
    exec (.rdcsr csr) s = .next { s with resp := v } := by
  simp [exec, execRdcsr, h, State.setResp]

/-- The sixteen assigned numbers each name a register (R38). -/
theorem readCsr_assigned (s : State) {csr : BitVec 8} (h : csr.toNat ≤ 0x0F) : ∃ v, s.readCsr csr = some v := by
  obtain ⟨n, hn, rfl⟩ : ∃ n, n ≤ 0x0F ∧ csr = BitVec.ofNat 8 n := ⟨csr.toNat, h, by simp⟩
  clear h
  interval_cases n <;> exact ⟨_, rfl⟩

theorem readCsr_unassigned (s : State) {csr : BitVec 8} (h : 0x0F < csr.toNat) : s.readCsr csr = none := by
  unfold State.readCsr
  split
  case h_17 => rfl
  all_goals omega

theorem exec_rdcsr_unassigned {csr : BitVec 8} (s : State) (h : 0x0F < csr.toNat) :
    exec (.rdcsr csr) s = illegalWord (encRdcsr csr) s := by
  simp [exec, execRdcsr, readCsr_unassigned s h]

theorem zext64_toNat {n : Nat} (v : BitVec n) (h : n ≤ 64) : (zext64 v).toNat = v.toNat :=
  BitVec.toNat_setWidth_of_le h

theorem hdr_toNat (s : State) : s.hdr.toNat = (8 - s.total.toNat % 8) % 8 * 2 ^ 13 + s.tlen.toNat := by
  rw [State.hdr, hdrPack_toNat, padout_toNat]

/-- Settles O12: each register by the CSR window, `STATUS` bit by bit, `PADOUT` and `HDR` as numbers. -/
theorem rdcsrReadsTheRegister : Obligations.RdcsrReadsTheRegister := by
  intro s
  refine ⟨⟨s.status, exec_rdcsr rfl, ?_⟩, exec_rdcsr rfl, exec_rdcsr rfl, exec_rdcsr rfl, exec_rdcsr rfl, exec_rdcsr rfl,
    ⟨zext64 s.padout, exec_rdcsr rfl, ?_⟩, exec_rdcsr rfl, ⟨zext64 s.hdr, exec_rdcsr rfl, ?_⟩, exec_rdcsr rfl,
    exec_rdcsr rfl, exec_rdcsr rfl, exec_rdcsr rfl, exec_rdcsr rfl, exec_rdcsr rfl, exec_rdcsr rfl⟩
  · simp only [status_getLsbD]
    refine ⟨by simp, by simp, by simp, by simp, fun k hk => ?_⟩
    simp [show k ≠ 0 by omega, show k ≠ 1 by omega, show k ≠ 2 by omega, show k ≠ 3 by omega]
  · rw [zext64_toNat _ (by decide), padout_toNat]
  · rw [zext64_toNat _ (by decide), hdr_toNat]

theorem fresh_padout (c : Config) (ws : List Word) (x y : List Byte) : (State.fresh c ws x y).padout = 0 := by
  apply BitVec.eq_of_toNat_eq
  simp [padout_toNat, State.fresh]

theorem fresh_hdr (c : Config) (ws : List Word) (x y : List Byte) : (State.fresh c ws x y).hdr = 0 := by
  apply BitVec.eq_of_toNat_eq
  simp [hdr_toNat, State.fresh]

/-- In a reset state every assigned CSR reads 0 but `ILEN` (R167). -/
theorem fresh_readCsr (c : Config) (ws : List Word) (x y : List Byte) {csr : BitVec 8} (h : csr.toNat ≤ 0x0F) :
    (State.fresh c ws x y).readCsr csr = some (if csr = 0x0F then BitVec.ofNat 64 c.input.length else 0) := by
  obtain ⟨n, hn, rfl⟩ : ∃ n, n ≤ 0x0F ∧ csr = BitVec.ofNat 8 n := ⟨csr.toNat, h, by simp⟩
  clear h
  interval_cases n <;> simp [State.readCsr, fresh_status, fresh_padout, fresh_hdr] <;> rfl

/-- Settles O11: both resets leave a state of `State.fresh`. -/
theorem afterResetEveryCsrReadsZeroButIlen : Obligations.AfterResetEveryCsrReadsZeroButIlen := by
  intro s t ht csr hcsr
  have hread : t.readCsr csr = some (if csr = 0x0F then BitVec.ofNat 64 t.cfg.input.length else 0) := by
    rcases ht with ht | ⟨c, rfl⟩
    · cases ht
      exact fresh_readCsr _ _ _ _ hcsr
    · exact fresh_readCsr _ _ _ _ hcsr
  exact exec_rdcsr hread

/-! ### The packer's commands (40_bit_packer.md R88 to R92) -/

/-- Settles O15: `PUTC` is a run of `len` bits. -/
theorem putcCountsItsBits : Obligations.PutcCountsItsBits := by
  intro s len code hf hd hl
  obtain ⟨acc, bs, hbs, heq⟩ := pushBits_frame (codeBits len code) s
  rw [codeBits, bitsDown_length] at hbs
  refine ⟨acc, bs, hbs, ?_⟩
  rw [exec_putc code hf hd hl, heq, codeBits, bitsDown_length]
  rfl

theorem exec_putb_of_fdone {s : State} (b : Bool) (hf : s.fault = false) (hd : s.fdone = true) :
    exec (.putb b) s = .next (s.latch .seq (zext64 (encPutb b))) := by
  simp [exec, execPutb, hf, hd]

theorem exec_putc_of_fdone {s : State} (len : BitVec 5) (code : BitVec 16) (hf : s.fault = false) (hd : s.fdone = true) :
    exec (.putc len code) s =
      .next (s.latch (if len.toNat ≤ 16 then .seq else .illegal) (zext64 (encPutc len code))) := by
  by_cases hl : len.toNat ≤ 16
  · simp [exec, execPutc, hf, hd, hl, Nat.not_lt.mpr hl]
  · simp [exec, execPutc, hf, hl, Nat.lt_of_not_le hl]

/-- Settles O16: the tests of both commands come before anything is written. -/
theorem putAfterFinishRaisesSeq : Obligations.PutAfterFinishRaisesSeq := by
  intro s b len code hf hd
  refine ⟨exec_putb_of_fdone b hf hd, ?_⟩
  rw [exec_putc_of_fdone len code hf hd, State.latch, apply_ite causeCode]
  rfl

/-- With bits buffered, `PADOUT` is the room left in the accumulator's byte (R36). -/
theorem padout_of_packerInv {s : State} (h : PackerInv s) (hd : s.fdone = false) :
    s.padout.toNat = (8 - s.nbuf.toNat) % 8 := by
  obtain ⟨-, hopen, -⟩ := h
  rw [padout_toNat, hopen hd]

/-- Settles O18: the byte `FIN` appends is the accumulator moved up by `PADOUT`, which is the room left in it. -/
theorem finAppendsPadoutZeroBits : Obligations.FinAppendsPadoutZeroBits := by
  intro s hf hd hinv
  have hpad := padout_of_packerInv hinv hd
  have htotal := padout_toNat s
  have hlt := s.nbuf.isLt
  refine ⟨by omega, by omega, _, exec_fin hf, ?_⟩
  rw [finish_eq]
  by_cases h0 : s.nbuf = 0
  · have hzero : s.padout = 0 := BitVec.eq_of_toNat_eq (by simp [hpad, h0])
    rw [if_pos h0]
    exact ⟨rfl, fun _ => rfl, fun h => absurd hzero h⟩
  · have hpos : s.nbuf.toNat ≠ 0 := fun h => h0 (BitVec.eq_of_toNat_eq h)
    have hroom : s.padout.toNat = 8 - s.nbuf.toNat := by omega
    have hne : s.padout ≠ 0 := fun h => by
      rw [h, show (0 : PadCount).toNat = 0 from rfl] at hroom
      omega
    rw [if_neg h0]
    refine ⟨rfl, fun h => absurd h hne, fun _ => ⟨_, rfl, fun k hk => ?_, fun k hk => ?_⟩⟩
    · rw [hroom] at hk
      simp [hk]
    · have hk8 : 8 - s.nbuf.toNat + k < 8 := by omega
      rw [BitVec.getLsbD_shiftLeft, hroom]
      simp only [hk8, decide_true, Bool.true_and, Nat.add_sub_cancel_left, Nat.not_lt.mpr (Nat.le_add_right _ k),
        decide_false, Bool.not_false]

/-! ### Reset (10_state.md R40, 44_system.md R134) -/

/-- Settles O10, by the reset table. -/
theorem rstResetsAllButTheStreams : Obligations.RstResetsAllButTheStreams :=
  fun s => ⟨s.rst, rfl, rfl, rfl, rfl, rfl, rfl, rfl, rfl, rfl, rfl, rfl, rfl, rfl, fun _ => rfl, rfl, rfl, rfl, rfl, rfl,
    rfl, rfl, rfl, rfl, rfl, rfl, rfl, rfl, rfl⟩

/-- Settles O58, by the reset table. -/
theorem invariantsHoldAtReset : Obligations.InvariantsHoldAtReset := by
  intro c hc s
  have packer : PackerInv s := ⟨Nat.one_pos, fun _ => rfl, nofun⟩
  have pace : packedBytes s = s.cout.length := Nat.zero_div 8
  have latch : LatchInv s := ⟨fun _ => ⟨rfl, rfl⟩, nofun⟩
  have counts : CountsInv s := ⟨Nat.zero_le _, Nat.zero_le _, nofun⟩
  have unwritten : UnwrittenInv s := ⟨fun _ => ⟨rfl, rfl⟩, fun _ => rfl⟩
  have quiet : Quiet s := ⟨rfl, rfl, rfl⟩
  exact ⟨packer, pace, memory_wf_nil, latch, counts, unwritten, quiet, hc, Nat.zero_le _⟩

/-! ### The header (43_header.md R127) and its absence (R22, R96, R118) -/

/-- Settles O28: the test for a header is the first of both commands. -/
theorem noHeaderIsRaisedFirst : Obligations.NoHeaderIsRaisedFirst := by
  intro s hf hv
  have htdes : tdesStart s = .raised .noHdr (zext64 encTdes) s := by simp [tdesStart, hv]
  have hunpk : unpkBody s = .raised .noHdr (zext64 encUnpk) s := by simp [unpkBody, hv]
  refine ⟨?_, ?_⟩
  · rw [exec_tdes hf, htdes]
    rfl
  · rw [exec_unpk hf, hunpk]
    rfl

/-- Settles O37: the two bytes of `HDR`, whichever comes first. -/
theorem hputAppendsTheHeader : Obligations.HputAppendsTheHeader := by
  intro s hf
  have hbytes := hdrBytes_toNat s.cfg s.hdr
  rw [hdr_toNat] at hbytes
  rw [exec_hput hf]
  cases hb : s.cfg.hdrBigEndian with
  | true => exact ⟨_, _, by simpa [hb] using hbytes, by simp [State.cOut, State.setResp]⟩
  | false => exact ⟨_, _, by simpa [hb] using hbytes, by simp [State.cOut, State.setResp]⟩

/-! ### The fault state (60_exceptions.md R156) -/

/-- Settles O49: all but the four instructions begin with the test for refusal, and so does `RDCSR` of an unassigned number. -/
theorem faultStateRefusesTheRest : Obligations.FaultStateRefusesTheRest := by
  intro s hf
  refine ⟨fun i hi => ?_, rfl, ⟨_, rfl, rfl, rfl, rfl, rfl⟩, fun csr hcsr => ?_, fun idx => ⟨_, rfl, rfl⟩⟩
  · cases i
    case nop | rst | nrd => cases hi
    case rdcsr csr =>
      rw [exec_rdcsr_unassigned s (by simpa [performedInFault] using hi)]
      exact unlessFault_of_fault hf _
    all_goals exact unlessFault_of_fault hf _
  · obtain ⟨v, hv⟩ := readCsr_assigned s hcsr
    exact ⟨v, hv, exec_rdcsr hv⟩

end Sys2Proof.Machine

/-! ### The output streams only grow (20_memory.md R46) -/

namespace Sys2Proof.Machine

theorem pushBits_cout_prefix (bits : List Bool) (s : State) : s.cout <+: (pushBits bits s).cout := by
  obtain ⟨acc, bs, -, heq⟩ := pushBits_frame bits s
  rw [heq]
  exact List.prefix_append _ bs

theorem finish_cout_prefix (s : State) : s.cout <+: (finish s).cout := by
  rw [finish_eq]
  split
  · exact List.prefix_rfl
  · exact List.prefix_append _ _

/-- `HPUT`, `TSER` and the packer's commands append to `COUT`; no other instruction writes it (R33). -/
theorem effect_cout_prefix {i : Instr} {s t : State} (he : Effect s t i) (fr : Frame i s t) : s.cout <+: t.cout := by
  by_cases hne : t.cout = s.cout
  · rw [hne]
  rcases fr.cout hne with rfl | rfl | ⟨b, rfl⟩ | ⟨len, code, rfl⟩ | rfl
  · obtain ⟨b0, b1, rfl⟩ := he
    exact List.prefix_append _ _
  · obtain ⟨bs, ht | ⟨c, info, u, hu, rfl⟩⟩ := he
    · rw [ht]
      exact List.prefix_append _ bs
    · rw [State.latch_cout, hu]
      exact List.prefix_append _ bs
  · obtain ⟨-, rfl⟩ | ⟨info, rfl⟩ := he
    · exact pushBits_cout_prefix [b] s
    · exact List.prefix_rfl
  · obtain ⟨-, rfl⟩ | ⟨c, info, rfl⟩ := he
    · exact pushBits_cout_prefix (codeBits len code) s
    · exact List.prefix_rfl
  · exact he ▸ finish_cout_prefix s

/-- `UNPK` appends to `SOUT`; no other instruction writes it (R33). -/
theorem effect_sout_prefix {i : Instr} {s t : State} (he : Effect s t i) (fr : Frame i s t) : s.sout <+: t.sout := by
  by_cases hne : t.sout = s.sout
  · rw [hne]
  obtain rfl := fr.sout hne
  obtain ⟨syms, ht | ⟨c, info, u, hu, rfl⟩⟩ := he
  · rw [ht]
    exact List.prefix_append _ syms
  · rw [State.latch_sout, hu]
    exact List.prefix_append _ syms

/-- From `s` to `t` both output streams are as they were or longer. -/
def StreamsGrow (s t : State) : Prop := s.cout <+: t.cout ∧ s.sout <+: t.sout

theorem StreamsGrow.refl (s : State) : StreamsGrow s s := ⟨List.prefix_rfl, List.prefix_rfl⟩

theorem StreamsGrow.trans {s t u : State} (h : StreamsGrow s t) (h' : StreamsGrow t u) : StreamsGrow s u :=
  ⟨h.1.trans h'.1, h.2.trans h'.2⟩

theorem Effect.streamsGrow {i : Instr} {s t : State} (he : Effect s t i) (fr : Frame i s t) : StreamsGrow s t :=
  ⟨effect_cout_prefix he fr, effect_sout_prefix he fr⟩

/-- The tokens write neither output stream (R118). -/
theorem Frame.streamsGrow_of_token {s t : State} (fr : Frame .mark s t) : StreamsGrow s t := by
  have hcout := mt fr.cout (by simp [Packs])
  have hsout := mt fr.sout (by simp)
  rw [not_not] at hcout hsout
  rw [StreamsGrow, hcout, hsout]
  exact StreamsGrow.refl s

/-- Settles O57: `RST` keeps the streams, the commands that write them append, and the tokens do not write them. -/
theorem stepOnlyAppendsToTheStreams : Obligations.StepOnlyAppendsToTheStreams :=
  fun s _ => step_keeps (P := StreamsGrow s) (fun _ _ _ h => h) (fun _ h => h)
    (fun _ _ _ h _ _ he fr => h.trans (he.streamsGrow fr)) (fun _ _ _ h _ _ _ fr => h.trans fr.streamsGrow_of_token)
    (.refl s)

end Sys2Proof.Machine

/-! ### Writing node memory (42_tree_codec.md R107, R108) and reading the header (43_header.md R129) -/

namespace Sys2Proof.Machine

/-- Settles O20: both commands are `State.nmSet`, whose reads back are known. -/
theorem nodeWritesAreReadBack : Obligations.NodeWritesAreReadBack := by
  intro s idx left right sym hf
  refine ⟨⟨_, exec_nleaf idx sym hf, ?_, fun j hj => ?_, rfl⟩, ⟨_, exec_nint idx left right hf, ?_, fun j hj => ?_, rfl⟩⟩
  · exact State.nmGet_nmSet_self s idx _
  · exact State.nmGet_nmSet_other _ hj
  · exact State.nmGet_nmSet_self s idx _
  · exact State.nmGet_nmSet_other _ hj

/-- Settles O38: with two bytes left `HGET` does not raise, and the bytes it takes are those two. -/
theorem hgetTakesTheHeader : Obligations.HgetTakesTheHeader := by
  intro s b0 b1 more hf hin hrest
  refine ⟨hdrOfBytes s.cfg b0 b1, hdrOfBytes_toNat s.cfg b0 b1, ?_⟩
  have hlen : s.cfg.input.length - s.ipos.toNat = more.length + 2 := by
    simpa using congrArg List.length hrest
  rw [exec_hget hf]
  rcases hgetBody_cases hin.1 with ⟨hshort, -⟩ | ⟨c0, c1, -, htake, hbody⟩
  · rw [State.remaining] at hshort
    omega
  · rw [hrest] at htake
    cases htake
    rw [hbody]
    rfl

end Sys2Proof.Machine

/-! ### The packer as a function (40_bit_packer.md R93) -/

namespace Sys2Proof.Machine

theorem execAll_append {is js : List Instr} {s t : State} (h : execAll is s = .next t) :
    execAll (is ++ js) s = execAll js t := by
  induction is generalizing s with
  | nil =>
    cases h
    rfl
  | cons i is ih =>
    rw [List.cons_append, execAll]
    rw [execAll] at h
    cases hi : exec i s with
    | next u =>
      rw [hi] at h
      exact ih h
    | fault r =>
      rw [hi] at h
      cases h
    | refused r =>
      rw [hi] at h
      cases h

theorem pushBits_concat (bits : List Bool) (b : Bool) (s : State) :
    pushBits (bits ++ [b]) s = pushBit b (pushBits bits s) := by
  induction bits generalizing s with
  | nil => rfl
  | cons c bits ih => exact ih (pushBit c s)

theorem pushBit_setResp (b : Bool) (s : State) (v : Resp) :
    pushBit b (s.setResp v) = (pushBit b s).setResp v := by
  by_cases h7 : s.nbuf = 7
  · rw [pushBit_flush b h7, pushBit_flush b (by exact h7)]
    rfl
  · rw [pushBit_hold b h7, pushBit_hold b (by exact h7)]
    rfl

theorem finish_setResp (s : State) (v : Resp) : (finish (s.setResp v)).setResp 0 = (finish s).setResp 0 := by
  rw [finish_eq, finish_eq, State.setResp_nbuf]
  split <;> rfl

/-- A run of `PUTB` is the run of its bits but for the response (R88, R90). -/
theorem execAll_putb (bits : List Bool) {s : State} (hf : s.fault = false) (hd : s.fdone = false) :
    ∃ v, execAll (bits.map Instr.putb) s = .next ((pushBits bits s).setResp v) := by
  induction bits using List.reverseRecOn with
  | nil => exact ⟨s.resp, rfl⟩
  | append_singleton bits b ih =>
    obtain ⟨v, hrun⟩ := ih
    obtain ⟨acc, bs, -, heq⟩ := pushBits_frame bits s
    refine ⟨0, ?_⟩
    rw [List.map_append, execAll_append hrun, pushBits_concat, List.map_singleton, execAll,
      exec_putb b (by rw [heq]; exact hf) (by rw [heq]; exact hd), pushBit_setResp]
    rfl

/-- Bits weighed with the first one highest, as a number (R47). -/
theorem sum_msbFirst_eq_ofBits (d : Nat → Bool) (n : Nat) :
    ((List.range n).map fun j => if d j then 2 ^ (n - 1 - j) else 0).sum = Nat.ofBits fun i : Fin n => d (n - 1 - i) := by
  induction n with
  | zero => rfl
  | succ n ih =>
    have hdouble : ((List.range n).map fun j => if d j then 2 ^ (n - j) else 0) =
        (List.range n).map fun j => 2 * if d j then 2 ^ (n - 1 - j) else 0 :=
      List.map_congr_left fun j hj => by
        rw [mul_ite, ← pow_succ', show n - 1 - j + 1 = n - j by rw [List.mem_range] at hj; omega]
    have htail : ((fun i : Fin (n + 1) => d (n - i)) ∘ Fin.succ) = fun i : Fin n => d (n - 1 - i) := by
      funext i
      simp [Nat.sub_sub, Nat.add_comm]
    rw [List.range_succ, List.map_append, List.sum_append, Nat.ofBits_succ, Nat.add_sub_cancel, hdouble,
      List.sum_map_mul_left, ih, htail]
    cases hn : d n <;> simp [hn]

/-- The bits of a packed byte (R93): the first of its eight is bit 7. -/
theorem packedByte_getLsbD (bits : List Bool) (k : Nat) {i : Nat} (hi : i < 8) :
    (packedByte bits k).getLsbD i = bits.getD (8 * k + (7 - i)) false := by
  rw [packedByte, sum_msbFirst_eq_ofBits (fun j => bits.getD (8 * k + j) false) 8, BitVec.getLsbD_ofNat,
    Nat.testBit_ofBits_lt _ _ hi, decide_eq_true hi, Bool.true_and]

/-- A byte looks only at its own eight bits (R93). -/
theorem packedByte_append {bits : List Bool} {k : Nat} (more : List Bool) (h : 8 * k + 8 ≤ bits.length) :
    packedByte (bits ++ more) k = packedByte bits k := by
  apply BitVec.eq_of_getLsbD_eq
  intro i hi
  rw [packedByte_getLsbD _ _ hi, packedByte_getLsbD _ _ hi, List.getD_append _ _ _ _ (by omega)]

/-- The complete bytes of a run of bits (R89). -/
def fullBytes (bits : List Bool) : List Byte := (List.range (bits.length / 8)).map (packedByte bits)

/-- What the accumulator holds after a run of bits (R87): those after the last complete byte, the last of them in bit 0. -/
def heldBits (bits : List Bool) : Byte := packedByte bits (bits.length / 8) >>> (8 - bits.length % 8)

theorem heldBits_getLsbD (bits : List Bool) (i : Nat) :
    (heldBits bits).getLsbD i = (decide (i < bits.length % 8) && bits.getD (bits.length - 1 - i) false) := by
  rw [heldBits, BitVec.getLsbD_ushiftRight]
  by_cases hr : i < bits.length % 8
  · rw [packedByte_getLsbD _ _ (by omega), decide_eq_true hr, Bool.true_and]
    congr 1
    omega
  · rw [decide_eq_false hr, Bool.false_and, BitVec.getLsbD_of_ge _ _ (by omega)]

theorem heldBits_of_aligned {bits : List Bool} (h : bits.length % 8 = 0) : heldBits bits = 0 := by
  apply BitVec.eq_of_getLsbD_eq
  intro i _
  simp [heldBits_getLsbD, h]

/-- Moved up to the top of its byte, what the accumulator holds is the last byte of the packed stream (R91, R93). -/
theorem heldBits_shiftLeft (bits : List Bool) :
    heldBits bits <<< (8 - bits.length % 8) = packedByte bits (bits.length / 8) := by
  apply BitVec.eq_of_getLsbD_eq
  intro i hi
  rw [BitVec.getLsbD_shiftLeft, heldBits_getLsbD, packedByte_getLsbD _ _ hi, decide_eq_true hi, Bool.true_and]
  by_cases hlow : i < 8 - bits.length % 8
  · have hend : bits.getD (8 * (bits.length / 8) + (7 - i)) false = false := List.getD_eq_default _ _ (by omega)
    rw [decide_eq_true hlow, hend]
    rfl
  · rw [decide_eq_false hlow, decide_eq_true (by omega)]
    simp only [Bool.not_false, Bool.true_and]
    congr 1
    omega

theorem shiftIn_getLsbD_zero (acc : BitVec 8) (b : Bool) : (shiftIn acc b).getLsbD 0 = b := by
  simp [shiftIn]

theorem shiftIn_getLsbD_succ (acc : BitVec 8) (b : Bool) {i : Nat} (hi : i + 1 < 8) :
    (shiftIn acc b).getLsbD (i + 1) = acc.getLsbD i := by
  simp [shiftIn, hi, BitVec.getLsbD_eq_getElem (show i < 8 by omega)]

/-- One more bit shifted in (R88). -/
theorem shiftIn_heldBits_getLsbD (bits : List Bool) (b : Bool) {i : Nat} (hi : i < 8) :
    (shiftIn (heldBits bits) b).getLsbD i =
      (decide (i ≤ bits.length % 8) && (bits ++ [b]).getD (bits.length - i) false) := by
  cases i with
  | zero =>
    rw [shiftIn_getLsbD_zero]
    simp
  | succ i =>
    rw [shiftIn_getLsbD_succ _ b hi, heldBits_getLsbD, Nat.sub_right_comm, Nat.sub_sub]
    by_cases hr : i < bits.length % 8
    · rw [List.getD_append _ _ _ _ (by omega)]
      rfl
    · simp [hr]

/-- A bit that does not complete a byte is held with the others (R88). -/
theorem shiftIn_heldBits_of_room {bits : List Bool} (b : Bool) (h : bits.length % 8 ≠ 7) :
    shiftIn (heldBits bits) b = heldBits (bits ++ [b]) := by
  apply BitVec.eq_of_getLsbD_eq
  intro i hi
  rw [shiftIn_heldBits_getLsbD bits b hi, heldBits_getLsbD, List.length_append, List.length_singleton,
    Nat.add_sub_cancel]
  congr 2
  rw [eq_iff_iff]
  omega

/-- The eighth bit completes the byte (R88). -/
theorem shiftIn_heldBits_of_full {bits : List Bool} (b : Bool) (h : bits.length % 8 = 7) :
    shiftIn (heldBits bits) b = packedByte (bits ++ [b]) (bits.length / 8) := by
  apply BitVec.eq_of_getLsbD_eq
  intro i hi
  rw [shiftIn_heldBits_getLsbD bits b hi, packedByte_getLsbD _ _ hi, decide_eq_true (by omega), Bool.true_and]
  congr 1
  omega

/-- The complete bytes stay when one more bit comes. -/
theorem map_packedByte_concat (bits : List Bool) (b : Bool) :
    (List.range (bits.length / 8)).map (packedByte (bits ++ [b])) = fullBytes bits :=
  List.map_congr_left fun k hk => packedByte_append [b] (by
    rw [List.mem_range] at hk
    omega)

theorem fullBytes_concat_of_room {bits : List Bool} (b : Bool) (h : bits.length % 8 ≠ 7) :
    fullBytes (bits ++ [b]) = fullBytes bits := by
  rw [← map_packedByte_concat bits b, fullBytes, List.length_append, List.length_singleton,
    show (bits.length + 1) / 8 = bits.length / 8 by omega]

theorem fullBytes_concat_of_full {bits : List Bool} (b : Bool) (h : bits.length % 8 = 7) :
    fullBytes (bits ++ [b]) = fullBytes bits ++ [packedByte (bits ++ [b]) (bits.length / 8)] := by
  rw [← map_packedByte_concat bits b, fullBytes, List.length_append, List.length_singleton,
    show (bits.length + 1) / 8 = bits.length / 8 + 1 by omega, List.range_succ, List.map_append, List.map_singleton]

/-- What `FIN` adds to the complete bytes (R93): nothing, or the byte of the bits still held. -/
theorem packBits_eq (bits : List Bool) :
    packBits bits = if bits.length % 8 = 0 then fullBytes bits
      else fullBytes bits ++ [packedByte bits (bits.length / 8)] := by
  split
  · rw [packBits, fullBytes, show (bits.length + 7) / 8 = bits.length / 8 by omega]
  · rw [packBits, fullBytes, show (bits.length + 7) / 8 = bits.length / 8 + 1 by omega, List.range_succ, List.map_append,
      List.map_singleton]

/-- From an empty packer, a run of bits appends its complete bytes and holds the rest (R87, R89). -/
theorem pushBits_of_empty (bits : List Bool) {s : State} (hn : s.nbuf = 0) (ha : s.acc = 0) :
    pushBits bits s = { s with
      acc := heldBits bits, nbuf := BitVec.ofNat 3 (bits.length % 8), total := s.total + BitVec.ofNat 64 bits.length,
      cout := s.cout ++ fullBytes bits } := by
  induction bits using List.reverseRecOn with
  | nil =>
    cases s
    cases hn
    cases ha
    simp [pushBits, heldBits_of_aligned, fullBytes]
  | append_singleton bits b ih =>
    rw [pushBits_concat, ih]
    by_cases h7 : bits.length % 8 = 7
    · rw [pushBit_flush b (by simp [h7])]
      have : (bits.length + 1) % 8 = 0 := by omega
      simp [shiftIn_heldBits_of_full b h7, fullBytes_concat_of_full b h7,
        heldBits_of_aligned (bits := bits ++ [b]) (by simpa), this, BitVec.ofNat_add, BitVec.add_assoc]
    · rw [pushBit_hold b (by bv_omega)]
      have : (bits.length + 1) % 8 = bits.length % 8 + 1 := by omega
      simp [shiftIn_heldBits_of_room b h7, fullBytes_concat_of_room b h7, this, BitVec.ofNat_add, BitVec.add_assoc]

/-- From an empty packer, a run of bits and `FIN` append the packed bytes and leave the packer empty (R93). -/
theorem finish_pushBits_of_empty (bits : List Bool) {s : State} (hn : s.nbuf = 0) (ha : s.acc = 0) :
    finish (pushBits bits s) = { s with
      acc := 0, nbuf := 0, fdone := true, total := s.total + BitVec.ofNat 64 bits.length,
      cout := s.cout ++ packBits bits } := by
  rw [pushBits_of_empty bits hn ha, finish_eq, packBits_eq]
  by_cases h0 : bits.length % 8 = 0
  · rw [if_pos (by rw [h0]; rfl), if_pos h0, heldBits_of_aligned h0, h0]
    rfl
  · have hheld : (BitVec.ofNat 3 (bits.length % 8)).toNat = bits.length % 8 := by
      rw [BitVec.toNat_ofNat]
      omega
    rw [if_neg (by bv_omega), if_neg h0, hheld, heldBits_shiftLeft, List.append_assoc]

/-- Settles O19: the run of `PUTB` is the run of its bits, and `FIN` appends what is still held. -/
theorem packerPacksItsBits : Obligations.PackerPacksItsBits := by
  intro s bits hf hd hn ha
  obtain ⟨v, hrun⟩ := execAll_putb bits hf hd
  have hfault : ((pushBits bits s).setResp v).fault = false := by
    rw [pushBits_of_empty bits hn ha]
    exact hf
  rw [execAll_append hrun, execAll, exec_fin hfault, finish_setResp, finish_pushBits_of_empty bits hn ha, ← hn, ← ha]
  rfl

end Sys2Proof.Machine

/-! ### Command words as numbers, field by field (30_encoding.md R76 to R79) -/

namespace Sys2Proof.Machine

/-- A field of a word as a number (R77). -/
theorem wordField_toNat (w : Word) (lo n : Nat) : (w.extractLsb' lo n).toNat = w.toNat / 2 ^ lo % 2 ^ n := by
  rw [BitVec.extractLsb'_toNat, Nat.shiftRight_eq_div_pow]

/-- An operand put at bit `lo` of a word, as a number. -/
theorem operand_toNat {n lo : Nat} (v : BitVec n) (h : n + lo ≤ 32) :
    (v.setWidth 32 <<< lo).toNat = v.toNat * 2 ^ lo := by
  have hlt : v.toNat * 2 ^ lo < 2 ^ 32 :=
    calc v.toNat * 2 ^ lo < 2 ^ n * 2 ^ lo := Nat.mul_lt_mul_of_pos_right v.isLt (Nat.two_pow_pos lo)
      _ = 2 ^ (n + lo) := (Nat.pow_add ..).symm
      _ ≤ 2 ^ 32 := Nat.pow_le_pow_right (by decide) h
  rw [BitVec.toNat_shiftLeft, BitVec.toNat_setWidth_of_le (by omega), Nat.shiftLeft_eq, Nat.mod_eq_of_lt hlt]

/-- A field put below bits that are all 0 there, as a number. -/
theorem or_setWidth_toNat {n : Nat} {a : Word} (b : BitVec n) (hn : n ≤ 32) (ha : 2 ^ n ∣ a.toNat) :
    (a ||| b.setWidth 32).toNat = a.toNat + b.toNat := by
  obtain ⟨k, hk⟩ := ha
  rw [BitVec.toNat_or, BitVec.toNat_setWidth_of_le hn, hk, Nat.two_pow_add_eq_or_of_lt b.isLt]

/-- An operand at bit `lo` put below bits that are all 0 there, as a number. -/
theorem or_operand_toNat {n lo : Nat} {a : Word} (v : BitVec n) (hn : n + lo ≤ 32) (ha : 2 ^ (n + lo) ∣ a.toNat) :
    (a ||| v.setWidth 32 <<< lo).toNat = a.toNat + v.toNat * 2 ^ lo := by
  obtain ⟨k, hk⟩ := ha
  have hlt : v.toNat * 2 ^ lo < 2 ^ (n + lo) := by
    rw [Nat.pow_add]
    exact Nat.mul_lt_mul_of_pos_right v.isLt (Nat.two_pow_pos lo)
  rw [BitVec.toNat_or, operand_toNat v hn, hk, Nat.two_pow_add_eq_or_of_lt hlt]

theorem encRdcsr_toNat (csr : BitVec 8) : (encRdcsr csr).toNat = 0x10000000 + csr.toNat :=
  or_setWidth_toNat csr (by decide) (by decide)

theorem encPutb_toNat (bit : Bool) : (encPutb bit).toNat = 0x20000000 + bit.toNat := by
  cases bit <;> rfl

theorem encHset_toNat (imm16 : BitVec 16) : (encHset imm16).toNat = 0x90000000 + imm16.toNat :=
  or_setWidth_toNat imm16 (by decide) (by decide)

theorem encSroot_toNat (idx : NodeIdx) : (encSroot idx).toNat = 0x50000000 + idx.toNat * 2 ^ 18 :=
  or_operand_toNat idx (by decide) (by decide)

theorem encNrd_toNat (idx : NodeIdx) : (encNrd idx).toNat = 0x58000000 + idx.toNat * 2 ^ 18 :=
  or_operand_toNat idx (by decide) (by decide)

theorem encPutc_toNat (len : BitVec 5) (code : BitVec 16) :
    (encPutc len code).toNat = 0x28000000 + len.toNat * 2 ^ 16 + code.toNat := by
  have hlen : (0x28000000#32 ||| len.setWidth 32 <<< 16).toNat = 0x28000000 + len.toNat * 2 ^ 16 :=
    or_operand_toNat len (by decide) (by decide)
  rw [encPutc, or_setWidth_toNat code (by decide) (by omega), hlen]

theorem encNleaf_toNat (idx : NodeIdx) (sym : Byte) :
    (encNleaf idx sym).toNat = 0x40000000 + idx.toNat * 2 ^ 18 + sym.toNat := by
  have hidx : (0x40000000#32 ||| idx.setWidth 32 <<< 18).toNat = 0x40000000 + idx.toNat * 2 ^ 18 :=
    or_operand_toNat idx (by decide) (by decide)
  rw [encNleaf, or_setWidth_toNat sym (by decide) (by omega), hidx]

theorem encNint_toNat (idx left right : NodeIdx) :
    (encNint idx left right).toNat = 0x48000000 + idx.toNat * 2 ^ 18 + left.toNat * 2 ^ 9 + right.toNat := by
  have hidx : (0x48000000#32 ||| idx.setWidth 32 <<< 18).toNat = 0x48000000 + idx.toNat * 2 ^ 18 :=
    or_operand_toNat idx (by decide) (by decide)
  have hleft : (0x48000000#32 ||| idx.setWidth 32 <<< 18 ||| left.setWidth 32 <<< 9).toNat =
      0x48000000 + idx.toNat * 2 ^ 18 + left.toNat * 2 ^ 9 := by
    rw [or_operand_toNat left (by decide) (by omega), hidx]
  rw [encNint, or_setWidth_toNat right (by decide) (by omega), hleft]

/-! Each format by its fields (R77): a word is the encoding of a command exactly when its opcode, its reserved bits and its
operand fields say so. -/

theorem eq_bareWord_iff {w : Word} (op : BitVec 5) :
    w = op.setWidth 32 <<< 27 ↔ (fOpcode w).toNat = op.toNat ∧ w.extractLsb' 0 27 = 0 := by
  simp only [← BitVec.toNat_inj, fOpcode, wordField_toNat, BitVec.ofNat_eq_ofNat, BitVec.toNat_zero,
    operand_toNat (lo := 27) op (by decide)]
  have := w.isLt
  omega

theorem eq_encRdcsr_iff {w : Word} {csr : BitVec 8} :
    w = encRdcsr csr ↔ (fOpcode w).toNat = 0x02 ∧ w.extractLsb' 8 19 = 0 ∧ fCsr w = csr := by
  simp only [← BitVec.toNat_inj, fOpcode, fCsr, wordField_toNat, BitVec.ofNat_eq_ofNat, BitVec.toNat_zero, encRdcsr_toNat]
  have := w.isLt
  have := csr.isLt
  omega

theorem fBit_eq_iff {w : Word} {bit : Bool} : fBit w = bit ↔ w.toNat % 2 = bit.toNat := by
  rw [fBit, BitVec.getLsbD, Nat.testBit_zero]
  rcases Nat.mod_two_eq_zero_or_one w.toNat with h | h <;> cases bit <;> simp [h]

theorem eq_encPutb_iff {w : Word} {bit : Bool} :
    w = encPutb bit ↔ (fOpcode w).toNat = 0x04 ∧ w.extractLsb' 1 26 = 0 ∧ fBit w = bit := by
  simp only [← BitVec.toNat_inj, fOpcode, fBit_eq_iff, wordField_toNat, BitVec.ofNat_eq_ofNat, BitVec.toNat_zero, encPutb_toNat]
  have := w.isLt
  have := bit.toNat_le
  omega

theorem eq_encPutc_iff {w : Word} {len : BitVec 5} {code : BitVec 16} :
    w = encPutc len code ↔ (fOpcode w).toNat = 0x05 ∧ w.extractLsb' 21 6 = 0 ∧ fLen w = len ∧ fCode w = code := by
  simp only [← BitVec.toNat_inj, fOpcode, fLen, fCode, wordField_toNat, BitVec.ofNat_eq_ofNat, BitVec.toNat_zero, encPutc_toNat]
  have := w.isLt
  have := len.isLt
  have := code.isLt
  omega

theorem eq_encNleaf_iff {w : Word} {idx : NodeIdx} {sym : Byte} :
    w = encNleaf idx sym ↔ (fOpcode w).toNat = 0x08 ∧ w.extractLsb' 8 10 = 0 ∧ fIdx w = idx ∧ fSym w = sym := by
  simp only [← BitVec.toNat_inj, fOpcode, fIdx, fSym, wordField_toNat, BitVec.ofNat_eq_ofNat, BitVec.toNat_zero, encNleaf_toNat]
  have := w.isLt
  have := idx.isLt
  have := sym.isLt
  omega

theorem eq_encNint_iff {w : Word} {idx left right : NodeIdx} :
    w = encNint idx left right ↔ (fOpcode w).toNat = 0x09 ∧ fIdx w = idx ∧ fLeft w = left ∧ fRight w = right := by
  simp only [← BitVec.toNat_inj, fOpcode, fIdx, fLeft, fRight, wordField_toNat, encNint_toNat]
  have := w.isLt
  have := idx.isLt
  have := left.isLt
  have := right.isLt
  omega

theorem eq_encSroot_iff {w : Word} {idx : NodeIdx} :
    w = encSroot idx ↔ (fOpcode w).toNat = 0x0A ∧ w.extractLsb' 0 18 = 0 ∧ fIdx w = idx := by
  simp only [← BitVec.toNat_inj, fOpcode, fIdx, wordField_toNat, BitVec.ofNat_eq_ofNat, BitVec.toNat_zero, encSroot_toNat]
  have := w.isLt
  have := idx.isLt
  omega

theorem eq_encNrd_iff {w : Word} {idx : NodeIdx} :
    w = encNrd idx ↔ (fOpcode w).toNat = 0x0B ∧ w.extractLsb' 0 18 = 0 ∧ fIdx w = idx := by
  simp only [← BitVec.toNat_inj, fOpcode, fIdx, wordField_toNat, BitVec.ofNat_eq_ofNat, BitVec.toNat_zero, encNrd_toNat]
  have := w.isLt
  have := idx.isLt
  omega

theorem eq_encHset_iff {w : Word} {imm16 : BitVec 16} :
    w = encHset imm16 ↔ (fOpcode w).toNat = 0x12 ∧ w.extractLsb' 16 11 = 0 ∧ fImm16 w = imm16 := by
  simp only [← BitVec.toNat_inj, fOpcode, fImm16, wordField_toNat, BitVec.ofNat_eq_ofNat, BitVec.toNat_zero, encHset_toNat]
  have := w.isLt
  have := imm16.isLt
  omega

end Sys2Proof.Machine

namespace Sys2Proof.Machine

/-! ### Decoding and encoding command words (30_encoding.md R79, R80) -/

theorem reserved_of_zero {w : Word} {lo n : Nat} (k : Except Reject Instr) (h : w.extractLsb' lo n = 0) :
    reserved w lo n k = k := if_pos h

theorem reserved_zero_of_ok {w : Word} {lo n : Nat} {k : Except Reject Instr} {i : Instr}
    (h : reserved w lo n k = .ok i) : w.extractLsb' lo n = 0 := by
  unfold reserved at h
  split at h
  · assumption
  · cases h

/-- A command without operands is its opcode and 27 reserved bits. -/
theorem encode_of_bareWord {c : Config} {w : Word} {i j : Instr} (op : BitVec 5)
    (he : encode c i = .word (op.setWidth 32 <<< 27)) (hop : (fOpcode w).toNat = op.toNat)
    (h : reserved w 0 27 (.ok i) = .ok j) : encode c j = .word w := by
  cases reserved_ok h
  rw [he, ← (eq_bareWord_iff op).mpr ⟨hop, reserved_zero_of_ok h⟩]

/-- The encoder undoes the decoder, row by row of the opcode map. -/
theorem encode_of_decodeWord (c : Config) {w : Word} {i : Instr} (h : decodeWord w = .ok i) : encode c i = .word w := by
  unfold decodeWord at h
  split at h
  case h_1 hop => exact encode_of_bareWord 0x00 rfl hop h
  case h_2 hop => exact encode_of_bareWord 0x01 rfl hop h
  case h_3 hop =>
    have hk := reserved_ok h
    split at hk <;> cases hk
    exact congrArg Encoding.word (eq_encRdcsr_iff.mpr ⟨hop, reserved_zero_of_ok h, rfl⟩).symm
  case h_4 hop =>
    cases reserved_ok h
    exact congrArg Encoding.word (eq_encPutb_iff.mpr ⟨hop, reserved_zero_of_ok h, rfl⟩).symm
  case h_5 hop =>
    have hk := reserved_ok h
    split at hk <;> cases hk
    exact congrArg Encoding.word (eq_encPutc_iff.mpr ⟨hop, reserved_zero_of_ok h, rfl, rfl⟩).symm
  case h_6 hop => exact encode_of_bareWord 0x06 rfl hop h
  case h_7 hop =>
    cases reserved_ok h
    exact congrArg Encoding.word (eq_encNleaf_iff.mpr ⟨hop, reserved_zero_of_ok h, rfl, rfl⟩).symm
  case h_8 hop =>
    cases h
    exact congrArg Encoding.word (eq_encNint_iff.mpr ⟨hop, rfl, rfl, rfl⟩).symm
  case h_9 hop =>
    cases reserved_ok h
    exact congrArg Encoding.word (eq_encSroot_iff.mpr ⟨hop, reserved_zero_of_ok h, rfl⟩).symm
  case h_10 hop =>
    cases reserved_ok h
    exact congrArg Encoding.word (eq_encNrd_iff.mpr ⟨hop, reserved_zero_of_ok h, rfl⟩).symm
  case h_11 hop => exact encode_of_bareWord 0x0C rfl hop h
  case h_12 hop => exact encode_of_bareWord 0x0D rfl hop h
  case h_13 hop => exact encode_of_bareWord 0x10 rfl hop h
  case h_14 hop => exact encode_of_bareWord 0x11 rfl hop h
  case h_15 hop =>
    cases reserved_ok h
    exact congrArg Encoding.word (eq_encHset_iff.mpr ⟨hop, reserved_zero_of_ok h, rfl⟩).symm
  case h_16 hop => exact encode_of_bareWord 0x14 rfl hop h
  case h_17 => cases h

theorem wellFormed_of_decodeWord (c : Config) {w : Word} {i : Instr} (h : decodeWord w = .ok i) :
    i.wellFormed c = true := by
  unfold decodeWord at h
  split at h
  case h_3 | h_5 =>
    have hk := reserved_ok h
    split at hk
    · next hrange =>
      cases hk
      exact decide_eq_true hrange
    · cases hk
  case h_8 =>
    cases h
    rfl
  case h_17 => cases h
  all_goals
    cases reserved_ok h
    rfl

/-- Settles O2, by what the decoder has tested in each row. -/
theorem encodeOfDecodeIsTheWord : Obligations.EncodeOfDecodeIsTheWord :=
  fun c _ _ h => ⟨encode_of_decodeWord c h, wellFormed_of_decodeWord c h⟩

/-- The decoder undoes the encoder on command words: each row's opcode, reserved bits and operands are read back. -/
theorem decodeWord_of_encode {c : Config} {i : Instr} {w : Word} (hw : i.wellFormed c = true)
    (he : encode c i = .word w) : decodeWord w = .ok i := by
  cases i
  case mark | esc | lit => cases he
  case nop | rst | fin | tser | tdes | hput | hget | unpk =>
    cases he
    rfl
  case rdcsr csr =>
    cases he
    obtain ⟨hop, hres, hcsr⟩ := eq_encRdcsr_iff.mp (Eq.refl (encRdcsr csr))
    have hrange : csr.toNat < Config.csrCount := of_decide_eq_true hw
    simp [decodeWord, hop, hcsr, hrange, reserved_of_zero _ hres]
  case putb bit =>
    cases he
    obtain ⟨hop, hres, hbit⟩ := eq_encPutb_iff.mp (Eq.refl (encPutb bit))
    simp [decodeWord, hop, hbit, reserved_of_zero _ hres]
  case putc len code =>
    cases he
    obtain ⟨hop, hres, hlen, hcode⟩ := eq_encPutc_iff.mp (Eq.refl (encPutc len code))
    have hrange : len.toNat ≤ 16 := of_decide_eq_true hw
    simp [decodeWord, hop, hlen, hcode, hrange, reserved_of_zero _ hres]
  case nleaf idx sym =>
    cases he
    obtain ⟨hop, hres, hidx, hsym⟩ := eq_encNleaf_iff.mp (Eq.refl (encNleaf idx sym))
    simp [decodeWord, hop, hidx, hsym, reserved_of_zero _ hres]
  case nint idx left right =>
    cases he
    obtain ⟨hop, hidx, hleft, hright⟩ := eq_encNint_iff.mp (Eq.refl (encNint idx left right))
    simp [decodeWord, hop, hidx, hleft, hright]
  case sroot idx =>
    cases he
    obtain ⟨hop, hres, hidx⟩ := eq_encSroot_iff.mp (Eq.refl (encSroot idx))
    simp [decodeWord, hop, hidx, reserved_of_zero _ hres]
  case nrd idx =>
    cases he
    obtain ⟨hop, hres, hidx⟩ := eq_encNrd_iff.mp (Eq.refl (encNrd idx))
    simp [decodeWord, hop, hidx, reserved_of_zero _ hres]
  case hset imm16 =>
    cases he
    obtain ⟨hop, hres, himm⟩ := eq_encHset_iff.mp (Eq.refl (encHset imm16))
    simp [decodeWord, hop, himm, reserved_of_zero _ hres]

/-! ### Tree tokens (30_encoding.md R67, R69) -/

@[simp] theorem decodeToken_esc (c : Config) (x : Byte) (more : List Byte) :
    decodeToken c (c.esc :: x :: more) = .ok (.esc x, more) := by
  simp [decodeToken]

theorem decodeToken_mark {c : Config} (hc : c.ok) (more : List Byte) :
    decodeToken c (c.mark :: more) = .ok (.mark, more) := by
  simp [decodeToken, show c.mark ≠ c.esc from hc]

theorem decodeToken_lit {c : Config} {b : Byte} (he : b ≠ c.esc) (hm : b ≠ c.mark) (more : List Byte) :
    decodeToken c (b :: more) = .ok (.lit b, more) := by
  simp [decodeToken, he, hm]

/-- Settles O4: the decoder compares the first byte with the escape byte, then with `MARK`. -/
theorem tokenFormIsDecidedByItsFirstByte : Obligations.TokenFormIsDecidedByItsFirstByte :=
  fun c _ x more hc => ⟨decodeToken_esc c x more, decodeToken_mark hc more, fun he hm => decodeToken_lit he hm more, rfl,
    by simp [decodeToken]⟩

theorem decode_bytes_ok {c : Config} {bs more : List Byte} {i : Instr} (h : decodeToken c bs = .ok (i, more)) :
    decode c (.bytes bs) = .ok i := by
  simp [decode, h]

/-- Settles O1: a command by its word, a token by its first byte. -/
theorem decodeOfEncodeIsTheInstruction : Obligations.DecodeOfEncodeIsTheInstruction := by
  intro c i hc hw
  cases he : encode c i with
  | word w => exact decodeWord_of_encode hw he
  | bytes bs =>
    cases i
    case mark =>
      cases he
      exact decode_bytes_ok (decodeToken_mark hc [])
    case esc sym =>
      cases he
      exact decode_bytes_ok (decodeToken_esc c sym [])
    case lit sym =>
      cases he
      simp only [Instr.wellFormed, Bool.and_eq_true, decide_eq_true_eq] at hw
      exact decode_bytes_ok (decodeToken_lit hw.2 hw.1 [])
    all_goals cases he

/-- Settles O5, by evaluating the decoder on the seven words. -/
theorem sampleWordsDecode : Obligations.SampleWordsDecode := by
  unfold Obligations.SampleWordsDecode
  decide

/-! ### The opcode map (30_encoding.md R79) -/

/-- The rows of R79 as formats (R77): an opcode and the reserved bits, where they begin and how many they are. -/
def opcodeFormats : List (BitVec 5 × Nat × Nat) :=
  [(0x00, 0, 27), (0x01, 0, 27), (0x02, 8, 19), (0x04, 1, 26), (0x05, 21, 6), (0x06, 0, 27), (0x08, 8, 10), (0x09, 0, 0),
   (0x0A, 0, 18), (0x0B, 0, 18), (0x0C, 0, 27), (0x0D, 0, 27), (0x10, 0, 27), (0x11, 0, 27), (0x12, 16, 11), (0x14, 0, 27)]

/-- The bits a row fixes: its opcode, which is five bits from bit 27 on, and its reserved bits. -/
def rowMask (lo n : Nat) : Word :=
  (BitVec.allOnes 5).setWidth 32 <<< 27 ||| (BitVec.allOnes n).setWidth 32 <<< lo

theorem opcodeMap_eq_formats :
    opcodeMap = opcodeFormats.map fun (op, lo, n) => (op.setWidth 32 <<< 27, rowMask lo n) := by
  decide

theorem rowMask_getLsbD (lo n : Nat) {k : Nat} (hk : k < 32) :
    (rowMask lo n).getLsbD k = (decide (27 ≤ k) || decide (lo ≤ k) && decide (k < lo + n)) := by
  simp only [rowMask, BitVec.getLsbD_or, BitVec.getLsbD_shiftLeft, BitVec.getLsbD_setWidth, BitVec.getLsbD_allOnes]
  rw [Bool.eq_iff_iff]
  simp
  omega

/-- A word lies under a row exactly when it has the row's opcode and its reserved bits are 0 (R77, R80). -/
theorem and_rowMask_eq_iff {w : Word} (op : BitVec 5) {lo n : Nat} (h : lo + n ≤ 27) :
    w &&& rowMask lo n = op.setWidth 32 <<< 27 ↔ fOpcode w = op ∧ w.extractLsb' lo n = 0 := by
  constructor
  · intro hw
    have hbit : ∀ k, (w &&& rowMask lo n).getLsbD k = (op.setWidth 32 <<< 27).getLsbD k := fun k => by rw [hw]
    constructor
    · apply BitVec.eq_of_getLsbD_eq
      intro k hk
      have := hbit (27 + k)
      rw [BitVec.getLsbD_and, rowMask_getLsbD lo n (by omega)] at this
      simpa [fOpcode, hk, show 27 + k < 32 by omega, show k < 32 by omega] using this
    · apply BitVec.eq_of_getLsbD_eq
      intro k hk
      have := hbit (lo + k)
      rw [BitVec.getLsbD_and, rowMask_getLsbD lo n (by omega)] at this
      simpa [hk, show lo + k < 27 by omega] using this
  · rintro ⟨rfl, hres⟩
    apply BitVec.eq_of_getLsbD_eq
    intro k hk
    have hzero : ∀ j < n, w.getLsbD (lo + j) = false := fun j hj => by
      simpa [hj] using congrArg (·.getLsbD j) hres
    rw [BitVec.getLsbD_and, rowMask_getLsbD lo n hk]
    by_cases hop : 27 ≤ k
    · obtain ⟨j, rfl⟩ := Nat.exists_eq_add_of_le hop
      simp [fOpcode, hk, show j < 5 by omega]
    · have hbelow : w.getLsbD k = true → ¬ (lo ≤ k ∧ k < lo + n) := by
        rintro hw ⟨hlo, hhi⟩
        obtain ⟨j, rfl⟩ := Nat.exists_eq_add_of_le hlo
        simp [hzero j (by omega)] at hw
      simpa [hop, show k < 27 by omega] using hbelow

theorem matches_opcodeMap_iff {w : Word} :
    (∃ r ∈ opcodeMap, w &&& r.2 = r.1) ↔ ∃ f ∈ opcodeFormats, fOpcode w = f.1 ∧ w.extractLsb' f.2.1 f.2.2 = 0 := by
  have hbelow : ∀ f ∈ opcodeFormats, f.2.1 + f.2.2 ≤ 27 := by decide
  simp only [opcodeMap_eq_formats, List.mem_map, exists_exists_and_eq_and]
  exact exists_congr fun f => and_congr_right fun hf => and_rowMask_eq_iff f.1 (hbelow f hf)

/-- A word that lies under a row decodes, `PUTC` and `RDCSR` with their operands in range (R80). -/
theorem decodeWord_of_legal {w : Word} (h : LegalWord w) : ∃ i, decodeWord w = .ok i := by
  obtain ⟨hrow, hlen, hcsr⟩ := h
  have hlen : fOpcode w = 0x05#5 → (fLen w).toNat ≤ 16 := hlen
  have hcsr : fOpcode w = 0x02#5 → (fCsr w).toNat < Config.csrCount := fun hop => Nat.lt_succ_of_le (hcsr hop)
  obtain ⟨f, hf, hop, hres⟩ := matches_opcodeMap_iff.mp hrow
  simp only [opcodeFormats, List.mem_cons, List.not_mem_nil, or_false] at hf
  rcases hf with rfl | rfl | rfl | rfl | rfl | rfl | rfl | rfl | rfl | rfl | rfl | rfl | rfl | rfl | rfl | rfl
  all_goals simp [decodeWord, hop, hlen, hcsr, reserved_of_zero _ hres]

theorem encode_matches_table : ∀ i : Instr, Laws.MatchesTable.Statement i
  | .nop => Laws.MatchesTable.nop
  | .rst => Laws.MatchesTable.rst
  | .rdcsr csr => Laws.MatchesTable.rdcsr csr
  | .putb bit => Laws.MatchesTable.putb bit
  | .putc len code => Laws.MatchesTable.putc len code
  | .fin => Laws.MatchesTable.fin
  | .nleaf idx sym => Laws.MatchesTable.nleaf idx sym
  | .nint idx left right => Laws.MatchesTable.nint idx left right
  | .sroot idx => Laws.MatchesTable.sroot idx
  | .nrd idx => Laws.MatchesTable.nrd idx
  | .tser => Laws.MatchesTable.tser
  | .tdes => Laws.MatchesTable.tdes
  | .hput => Laws.MatchesTable.hput
  | .hget => Laws.MatchesTable.hget
  | .hset imm16 => Laws.MatchesTable.hset imm16
  | .unpk => Laws.MatchesTable.unpk
  | .mark => Laws.MatchesTable.mark
  | .esc sym => Laws.MatchesTable.esc sym
  | .lit sym => Laws.MatchesTable.lit sym

/-- A command's word lies under a row of the opcode map. -/
theorem matches_opcodeMap_of_encode {c : Config} {i : Instr} {w : Word} (he : encode c i = .word w) :
    ∃ r ∈ opcodeMap, w &&& r.2 = r.1 := by
  have htable := encode_matches_table i c
  split at htable
  · next r _ =>
    obtain ⟨hr, w', hw', hmatch⟩ := htable
    cases he.symm.trans hw'
    exact ⟨r, hr, hmatch⟩
  · rcases htable with ⟨b, hb⟩ | ⟨b, hb⟩ <;> cases he.symm.trans hb

theorem putc_len_of_decodeWord {w : Word} {i : Instr} (h : decodeWord w = .ok i) (hop : fOpcode w = 0x05#5) :
    (fLen w).toNat ≤ 16 := by
  have hrow : decodeWord w = reserved w 21 6
      (if (fLen w).toNat ≤ 16 then .ok (.putc (fLen w) (fCode w)) else .error (.putcLen (fLen w))) := by
    simp [decodeWord, hop]
  have hk := reserved_ok (hrow ▸ h)
  split at hk
  · assumption
  · cases hk

theorem rdcsr_csr_of_decodeWord {w : Word} {i : Instr} (h : decodeWord w = .ok i) (hop : fOpcode w = 0x02#5) :
    (fCsr w).toNat < Config.csrCount := by
  have hrow : decodeWord w = reserved w 8 19
      (if (fCsr w).toNat < Config.csrCount then .ok (.rdcsr (fCsr w)) else .error (.csrNumber (fCsr w))) := by
    simp [decodeWord, hop]
  have hk := reserved_ok (hrow ▸ h)
  split at hk
  · assumption
  · cases hk

theorem legal_of_decodeWord {w : Word} {i : Instr} (h : decodeWord w = .ok i) : LegalWord w :=
  ⟨matches_opcodeMap_of_encode (encode_of_decodeWord Config.default h), fun hop => putc_len_of_decodeWord h hop,
    fun hop => Nat.le_of_lt_succ (rdcsr_csr_of_decodeWord h hop)⟩

/-- Settles O3, from the opcode, the reserved bits and the operand range of the word's row. -/
theorem wordDecodesIffLegal : Obligations.WordDecodesIffLegal :=
  fun _ => ⟨fun ⟨_, h⟩ => legal_of_decodeWord h, decodeWord_of_legal⟩

/-! ### Illegal words (30_encoding.md R80, 60_exceptions.md R155, R156) -/

theorem decodeWord_of_illegal {w : Word} (h : ¬ LegalWord w) : ∃ e, decodeWord w = .error e := by
  cases hd : decodeWord w with
  | ok i => exact absurd (legal_of_decodeWord hd) h
  | error e => exact ⟨e, rfl⟩

theorem step_of_illegal {s : State} {w : Word} {later : List Word} (ho : s.treeOpen = false)
    (hc : s.cmds = w :: later) (h : ¬ LegalWord w) : step s = illegalWord w (s.withCmds later) := by
  have hfetch : fetch s = .command w later := by simp [fetch, ho, hc]
  obtain ⟨e, he⟩ := decodeWord_of_illegal h
  simp [step, hfetch, he]

/-- Settles O7: the step raises `ILLEGAL` or refuses, by the latch. -/
theorem illegalWordIsLatchedOrRefused : Obligations.IllegalWordIsLatchedOrRefused := by
  intro s w later ho hc h
  rw [step_of_illegal ho hc h]
  refine ⟨fun hf => ?_, fun hf => ?_⟩
  · rw [illegalWord, unlessFault_of_no_fault (by exact hf), settle_raised, State.latch, ← ho]
    rfl
  · exact unlessFault_of_fault (s := s.withCmds later) hf _

end Sys2Proof.Machine

/-! ### Placing a token's node under the innermost open node (42_tree_codec.md R118) -/

namespace Sys2Proof.Machine

/-- The state with `k` bytes of a token read (R118 `get`). -/
def State.took (s : State) (k : Nat) : State :=
  { s with ipos := s.ipos + BitVec.ofNat 64 k, tcnt := s.tcnt + BitVec.ofNat 13 k }

theorem getByte_of_more {s : State} (k : Byte → State → Body) (h : s.ipos.toNat < s.cfg.input.length) :
    ∃ b, getByte s k = k b (s.took 1) := by
  rcases getByte_cases s k with ⟨-, hend⟩ | ⟨b, hget, -, -⟩
  · omega
  · exact ⟨b, hget⟩

theorem exec_mark_of_more {s : State} (hf : s.fault = false) (h : s.ipos.toNat < s.cfg.input.length) :
    exec .mark s = settleTdes (place (.internal 0 0) (s.took 1)) := by
  obtain ⟨b, hget⟩ := getByte_of_more (fun _ u => place (.internal 0 0) u) h
  rw [exec_mark hf, hget]

theorem exec_lit_of_more {s : State} (sym : Byte) (hf : s.fault = false) (h : s.ipos.toNat < s.cfg.input.length) :
    exec (.lit sym) s = settleTdes (place (.leaf sym) (s.took 1)) := by
  obtain ⟨b, hget⟩ := getByte_of_more (fun _ u => place (.leaf sym) u) h
  rw [exec_lit sym hf, hget]

theorem exec_esc_of_more {s : State} (sym : Byte) (hf : s.fault = false) (hs : s.cfg.input.length < 2 ^ 64)
    (h : s.ipos.toNat + 1 < s.cfg.input.length) :
    exec (.esc sym) s = settleTdes (place (.leaf sym) (s.took 2)) := by
  have hpos : (s.took 1).ipos.toNat = s.ipos.toNat + 1 := State.ipos_succ hs (by omega)
  have htwo : (s.took 1).took 1 = s.took 2 := by simp [State.took, BitVec.add_assoc]
  obtain ⟨b, hget⟩ := getByte_of_more (fun _ u => getByte u fun _ u => place (.leaf sym) u) (s := s) (by omega)
  obtain ⟨x, hget'⟩ := getByte_of_more (fun _ u => place (.leaf sym) u) (s := s.took 1) (hpos ▸ h)
  rw [exec_esc sym hf, hget, hget', htwo]

/-- A leaf token with its bytes there is the placing of its leaf behind them (R67, R118). -/
theorem exec_leafToken {s : State} {i : Instr} {sym : Byte} {k : Nat} (hi : (i = .lit sym ∧ k = 1) ∨ (i = .esc sym ∧ k = 2))
    (hf : s.fault = false) (hs : s.cfg.input.length < 2 ^ 64) (hk : k ≤ s.cfg.input.length - s.ipos.toNat) :
    exec i s = settleTdes (place (.leaf sym) (s.took k)) := by
  rcases hi with ⟨rfl, rfl⟩ | ⟨rfl, rfl⟩
  · exact exec_lit_of_more sym hf (by omega)
  · exact exec_esc_of_more sym hf hs (by omega)

/-- Node memory `m'` is `m` with `nd` in entry `n`, which has become the child that the internal node `p` waits for. -/
def HungUnder (m m' : List (Nat × Node)) (nd : Node) (n p : NodeIdx) (w : Bool) (l r : NodeIdx) : Prop :=
  nmRead m' n.toNat = some nd ∧ nmRead m' p.toNat = some (if w then .internal n r else .internal l n) ∧
  ∀ j : NodeIdx, j ≠ p → j ≠ n → nmRead m' j.toNat = nmRead m j.toNat

/-- Placing a node where the innermost open node is `p` (R118). -/
theorem place_under (nd : Node) {s : State} {p : NodeIdx} {w : Bool} {below : List StkEntry} {l r : NodeIdx}
    (hn : s.nalloc.toNat < 512) (hstk : s.stk = { node := p, waitLeft := w } :: below)
    (hp : s.nmGet p = some (.internal l r)) (hne : p.toNat ≠ s.nalloc.toNat) :
    ∃ m, HungUnder s.nm m nd s.nextNode p w l r ∧
      place nd s = (openNode nd s.nextNode { s with
        nm := m, nalloc := s.nalloc + 1,
        stk := if w then { node := p, waitLeft := false } :: below else below }).bind closePass := by
  have hinner : ∀ {e below'}, s.stk = e :: below' → e = { node := p, waitLeft := w } := fun h =>
    (List.cons.inj (h.symm.trans hstk)).1
  obtain ⟨m, hplace, hnew, hparent, hrest⟩ := place_spec nd hn fun e below' h => by rw [hinner h]; exact hne
  refine ⟨m, ⟨?_, hparent _ _ hstk l r hp, fun j hjp hjn => hrest j.toNat ?_ fun e below' h => ?_⟩, ?_⟩
  · rw [nextNode_toNat hn]
    exact hnew
  · rw [← nextNode_toNat hn]
    exact fun h => hjn (BitVec.eq_of_toNat_eq h)
  · rw [hinner h]
    exact fun h => hjp (BitVec.eq_of_toNat_eq h)
  · rw [hplace, hstk]
    rfl

/-- Settles O32: the leaf is placed under the innermost open node, and an open node is left. -/
theorem leafTokenHangsUnderTheOpenNode : Obligations.LeafTokenHangsUnderTheOpenNode := by
  intro s i sym k p w below l r hi hf hin hk hn hstk hopen hp hne
  obtain ⟨m, ⟨hnew, hparent, hrest⟩, hplace⟩ := place_under (s := s.took k) (.leaf sym) hn hstk hp hne
  have hleft : (if w then { node := p, waitLeft := false } :: below else below) ≠ [] := by
    cases w with
    | true => simp
    | false => simpa using hopen
  refine ⟨{ s.took k with nm := m, nalloc := s.nalloc + 1, stk := _, treeOpen := true }, ?_, hnew, hparent, hrest, rfl⟩
  rw [exec_leafToken hi hf hin.1 hk, hplace, openNode_leaf, Body.bind_ok, closePass_of_open hleft]
  rfl

/-- An internal node with room on the stack is opened, and an open node is left (R118). -/
theorem openNode_closePass_of_room {s : State} (l r n : NodeIdx) (h : s.stk.length < 256) :
    (openNode (.internal l r) n s).bind closePass =
      .ok { s with stk := { node := n, waitLeft := true } :: s.stk, treeOpen := true } := by
  rw [openNode_of_room l r n h, Body.bind_ok, closePass_of_open (by simp)]

/-- Settles O34: the new node is placed alone or under the innermost open node, and the stack has room to open it. -/
theorem markTokenOpensANode : Obligations.MarkTokenOpensANode := by
  intro s hf hin hpos hn
  refine ⟨fun hstk => ?_, fun p w below l r hstk hroom hp hne => ?_⟩
  · obtain ⟨m, hplace, hnew, -, hrest⟩ := place_spec (s := s.took 1) (.internal 0 0) hn (by simp [State.took, hstk])
    have hstk' : afterHang (s.took 1).stk = [] := congrArg afterHang hstk
    have hidx : (s.took 1).nextNode.toNat = s.nalloc.toNat := nextNode_toNat hn
    refine ⟨{ s.took 1 with nm := m, nalloc := s.nalloc + 1, stk := _, treeOpen := true }, ?_,
      (congrArg (nmRead m) hidx).trans hnew, fun j hj => hrest j.toNat ?_ (by simp [State.took, hstk]), rfl⟩
    · rw [exec_mark_of_more hf hpos, hplace, hstk', openNode_closePass_of_room _ _ _ (by simp)]
      rfl
    · exact fun h => hj (BitVec.eq_of_toNat_eq (h.trans hidx.symm))
  · obtain ⟨m, ⟨hnew, hparent, hrest⟩, hplace⟩ := place_under (s := s.took 1) (.internal 0 0) hn hstk hp hne
    refine ⟨{ s.took 1 with nm := m, nalloc := s.nalloc + 1, stk := _, treeOpen := true }, ?_, hnew, hparent, hrest, rfl⟩
    rw [exec_mark_of_more hf hpos, hplace, openNode_closePass_of_room]
    · rfl
    · cases w <;> exact hroom

/-! ### A tree that is a single leaf (41_bit_unpacker.md R97, R104) -/

/-- Each bit at a root that is a leaf appends its symbol (R97). -/
theorem walkBits_at_leaf (bits : List Bool) {s : State} {sym : Byte} (hv : s.rootv = true)
    (h0 : s.nmGet s.root = some (.leaf sym)) :
    walkBits bits s = .ok { s with sout := s.sout ++ List.replicate bits.length sym } := by
  induction bits generalizing s with
  | nil => simp [walkBits]
  | cons b bits ih =>
    rw [walkBits, walkBit_at_leaf b hv h0, Body.bind_ok, ih (s := { s with sout := s.sout ++ [sym] }) hv h0]
    simp [List.replicate_succ]

theorem msbBits_length (bs : List Byte) : (msbBits bs).length = 8 * bs.length := by
  simp [msbBits, List.length_flatMap, Nat.mul_comm]

theorem significant_length (bs : List Byte) (pad : Nat) : (significant bs pad).length = 8 * bs.length - pad := by
  simp [significant, msbBits_length]

/-- Settles O43: the walk never leaves the root, so no code is unfinished. -/
theorem unpkOfASingleLeafRepeatsIt : Obligations.UnpkOfASingleLeafRepeatsIt := by
  intro s sym hf hv hin hr hleaf hpos
  have hrest : s.rest.length = s.cfg.input.length - s.ipos.toNat := List.length_drop
  have hne : s.rest ≠ [] := fun h => by
    rw [h, List.length_nil] at hrest
    omega
  have hwalk := walkBits_at_leaf (significant s.rest s.pad.toNat) (s := s.startWalk) hr hleaf
  rw [significant_length, hrest] at hwalk
  obtain ⟨hold, hbody⟩ := unpkBody_of_walkBits hv hr hin (fun h => absurd h hne) hwalk
  refine ⟨hold, ?_⟩
  rw [exec_unpk hf, hbody, if_pos (by rfl)]
  rfl

end Sys2Proof.Machine

/-! ### The packer's commands, exactly (40_bit_packer.md R88, R90, R91) -/

namespace Sys2Proof.Machine

/-- The bits from bit `n-1` down, each by its place in the run (R90). -/
theorem bitsDown_eq_map_range {w : Nat} (v : BitVec w) (n : Nat) :
    bitsDown v n = (List.range n).map fun k => v.getLsbD (n - 1 - k) := by
  induction n with
  | zero => rfl
  | succ n ih =>
    have htail : (fun k => v.getLsbD (n - (k + 1))) = fun k => v.getLsbD (n - 1 - k) := by
      funext k
      rw [Nat.sub_sub, Nat.add_comm 1 k]
    rw [bitsDown, ih, List.range_succ_eq_map, List.map_cons, List.map_map, ← htail]
    rfl

/-- Settles O14: the run of `PUTB` is the run of the code's bits but for the response. -/
theorem putcIsARunOfPutb : Obligations.PutcIsARunOfPutb := by
  intro s len code hf hd hl
  have hcmds : ((List.range len.toNat).map fun k => Instr.putb (code.getLsbD (len.toNat - 1 - k))) =
      (codeBits len code).map Instr.putb := by
    rw [codeBits, bitsDown_eq_map_range, List.map_map]
    rfl
  obtain ⟨v, hrun⟩ := execAll_putb (codeBits len code) hf hd
  rw [← hcmds] at hrun
  exact ⟨_, hrun, exec_putc code hf hd hl⟩

/-- Settles O13: the eighth bit flushes the accumulator, any other is held. -/
theorem putbShiftsTheBitIn : Obligations.PutbShiftsTheBitIn := by
  intro s b hf hd
  refine ⟨shiftIn s.acc b, shiftIn_toNat s.acc b, ?_⟩
  rw [exec_putb b hf hd]
  by_cases h7 : s.nbuf = 7
  · rw [pushBit_flush b h7, if_pos h7]
    rfl
  · rw [pushBit_hold b h7, if_neg h7]
    rfl

theorem finish_flush {s : State} (h : s.nbuf ≠ 0) :
    finish s = { s with
      acc := 0, nbuf := 0, fdone := true, cout := s.cout ++ [s.acc <<< (8 - s.nbuf.toNat)] } := by
  rw [finish_eq, if_neg h]

theorem finish_of_empty {s : State} (h : s.nbuf = 0) : finish s = { s with fdone := true } := by
  rw [finish_eq, if_pos h]

/-- Settles O17: the accumulator moved up to the top of a byte is a product modulo 256. -/
theorem finFlushesTheBufferedBits : Obligations.FinFlushesTheBufferedBits := by
  intro s hf
  refine ⟨fun hn => ⟨s.acc <<< (8 - s.nbuf.toNat), ?_, ?_⟩, fun hn => ?_⟩
  · rw [BitVec.toNat_shiftLeft, Nat.shiftLeft_eq]
  · rw [exec_fin hf, finish_flush hn]
    rfl
  · rw [exec_fin hf, finish_of_empty hn]
    rfl

end Sys2Proof.Machine

/-! ### A payload that is empty, and one without a tree (41_bit_unpacker.md R99, R100) -/

namespace Sys2Proof.Machine

theorem State.rest_length (s : State) : s.rest.length = s.cfg.input.length - s.ipos.toNat := List.length_drop

/-- With no payload the loop ends at once, no byte held (R99). -/
theorem unpkBody_of_empty {s : State} (hv : s.hv = true) (hrest : s.rest = []) :
    unpkBody s =
      if s.pad = 0 then .ok (s.startWalk.setResp 0) else .raised .badPad (zext64 s.pad) s.startWalk := by
  have hget : s.startWalk.inGet = none := State.inGet_of_rest_nil hrest
  have hloop : unpkLoop (s.remaining + 1) s.startWalk =
      if s.pad ≠ 0 then .raised .badPad (zext64 s.pad) s.startWalk else .ok s.startWalk := by
    rw [unpkLoop, hget]
    rfl
  rw [unpkBody, if_pos hv, show unpkLoop (s.remaining + 1) { s with walk := s.root, holdv := false } = _ from hloop]
  by_cases hpad : s.pad = 0
  · rw [if_neg (not_not_intro hpad), if_pos hpad, Body.bind_ok, if_neg (fun h => h.2 rfl)]
  · rw [if_pos hpad, if_neg hpad, Body.bind_raised]

/-- Settles O44: the loop ends at once, and the walk stands at the root. -/
theorem unpkOfAnEmptyPayload : Obligations.UnpkOfAnEmptyPayload := by
  intro s hf hv hend
  have hrest : s.rest = [] := List.drop_eq_nil_of_le hend.ge
  rw [exec_unpk hf, unpkBody_of_empty hv hrest]
  refine ⟨fun hpad => ?_, fun hpad => ?_⟩
  · rw [if_pos hpad]
    rfl
  · rw [if_neg hpad]
    rfl

/-- Without a tree the first of a run of significant bits raises (R100). -/
theorem walkBits_of_no_tree {bits : List Bool} {s : State} (hr : s.rootv = false) (hb : bits ≠ []) :
    walkBits bits s = .raised .noTree s.ipos s := by
  obtain ⟨b, bits, rfl⟩ := List.exists_cons_of_ne_nil hb
  simp [walkBits, walkBit, hr]

theorem highBits_ne_nil (b : Byte) {k : Nat} (hpos : 0 < k) (hk : k ≤ 8) : highBits b k ≠ [] :=
  List.ne_nil_of_length_pos (by rwa [highBits_length b hk])

/-- Without a tree and with a byte held, the loop asks for one more byte and raises (R96, R100). -/
theorem unpkLoop_held_of_no_tree {s : State} (fuel : Nat) (p : BitVec 64) (h : Byte) (hr : s.rootv = false) :
    unpkLoop (fuel + 1) (s.atInput p h true) =
      .raised .noTree (p + BitVec.ofNat 64 (min 1 (s.cfg.input.length - p.toNat)))
        (s.atInput (p + BitVec.ofNat 64 (min 1 (s.cfg.input.length - p.toNat))) h true) := by
  rcases (s.atInput p h true).inGet_cases with ⟨hget, hend⟩ | ⟨nb, hget, hmore, -⟩
  · have hbits : highBits h (8 - s.pad.toNat) ≠ [] := highBits_ne_nil _ (by omega) (by omega)
    have hraise : unpkEnd (s.atInput p h true) = .raised .noTree p (s.atInput p h true) := by
      rw [unpkEnd, if_pos (by rfl)]
      exact congrArg (Body.bind · _) (walkBits_of_no_tree (s := s.atInput p h true) hr hbits)
    have hnone : s.cfg.input.length - p.toNat = 0 := Nat.sub_eq_zero_of_le hend
    rw [hnone, Nat.min_zero, BitVec.add_zero, unpkLoop, hget]
    exact hraise
  · have hbits : highBits h 8 ≠ [] := highBits_ne_nil _ (by omega) (le_refl 8)
    have hone : min 1 (s.cfg.input.length - p.toNat) = 1 := Nat.min_eq_left (Nat.sub_pos_of_lt hmore)
    rw [hone, unpkLoop, hget]
    exact congrArg (Body.bind · _) (walkBits_of_no_tree (s := s.atInput (p + 1) h true) hr hbits)

/-- The first payload byte is held (R96). -/
theorem unpkLoop_first {s : State} {b : Byte} (fuel : Nat) (hh : s.holdv = false)
    (hget : s.inGet = some (b, { s with ipos := s.ipos + 1 })) :
    unpkLoop (fuel + 1) s = unpkLoop fuel (s.atInput (s.ipos + 1) b true) := by
  rw [unpkLoop, hget]
  simp only [hh]
  rfl

/-- Settles O45: one byte is held, a second one is asked for, and then the first significant bit raises. -/
theorem unpkWithoutATreeRaisesNoTree : Obligations.UnpkWithoutATreeRaisesNoTree := by
  intro s hf hv hin hr hpos
  obtain ⟨hget, hend⟩ | ⟨b, hget, -⟩ := s.startWalk.inGet_cases
  · exact absurd hpos (Nat.not_lt.mpr hend)
  have hloop : unpkLoop (s.remaining + 1) s.startWalk =
      unpkLoop (s.remaining - 1 + 1) (s.startWalk.atInput (s.ipos + 1) b true) := by
    rw [show s.remaining - 1 + 1 = s.remaining by rw [State.remaining]; omega]
    exact unpkLoop_first s.remaining rfl hget
  rw [unpkLoop_held_of_no_tree (s := s.startWalk) _ _ _ hr] at hloop
  have hplace : s.ipos + 1 + BitVec.ofNat 64 (min 1 (s.cfg.input.length - (s.ipos + 1).toNat)) =
      s.ipos + BitVec.ofNat 64 (min 2 (s.cfg.input.length - s.ipos.toNat)) := by
    rw [State.ipos_succ hin.1 hpos, BitVec.add_assoc, show (1 : BitVec 64) = BitVec.ofNat 64 1 from rfl,
      ← BitVec.ofNat_add]
    congr 2
    omega
  refine ⟨b, ?_⟩
  rw [← hplace, exec_unpk hf, unpkBody, if_pos hv,
    show unpkLoop (s.remaining + 1) { s with walk := s.root, holdv := false } = _ from hloop]
  rfl

end Sys2Proof.Machine

/-! ### What `UNPK` answers where there is a tree (41_bit_unpacker.md R96, R97, R101) -/

namespace Sys2Proof.Machine

/-- Where the walk over the significant bits completes, `UNPK` ends with it, or raises `TRUNC_CODE` beside the root. -/
theorem exec_unpk_of_walkBits {s u : State} (hf : s.fault = false) (hv : s.hv = true) (hr : s.rootv = true) (hin : InputOk s)
    (he : s.rest = [] → s.pad = 0) (hw : walkBits (significant s.rest s.pad.toNat) s.startWalk = .ok u) :
    ∃ hold, exec .unpk s = .next (
      if u.walk = s.root then (u.atInput (BitVec.ofNat 64 s.cfg.input.length) hold false).setResp 0
      else (u.atInput (BitVec.ofNat 64 s.cfg.input.length) hold false).latch .truncCode (zext64 u.walk)) := by
  obtain ⟨hold, hbody⟩ := unpkBody_of_walkBits hv hr hin he hw
  refine ⟨hold, ?_⟩
  rw [exec_unpk hf, hbody]
  split <;> rfl

/-- Where a significant bit raises, `UNPK` raises with it, one byte behind what it has taken from the input. -/
theorem exec_unpk_of_raise {s u : State} {bits more : List Bool} {b : Bool} {c : Cause} {info : Resp}
    (hf : s.fault = false) (hv : s.hv = true) (hr : s.rootv = true) (hin : InputOk s)
    (hsig : significant s.rest s.pad.toNat = bits ++ b :: more) (hw : walkBits bits s.startWalk = .ok u)
    (hraise : walkBit b u = .raised c info u) :
    ∃ hold, exec .unpk s = .next ((u.atInput
      (s.ipos + BitVec.ofNat 64 (min (bits.length / 8 + 2) (s.cfg.input.length - s.ipos.toNat))) hold false).latch c info) := by
  have hfuel : s.rest.length < s.remaining + 1 := by simp [State.rest, State.remaining]
  obtain ⟨hold, v, hloop⟩ := unpkLoop_of_raise s.rest (s.remaining + 1) s.startWalk u hr hin.1 hin.2 rfl hfuel bits more b c
    info hsig hw hraise
  refine ⟨hold, ?_⟩
  rw [exec_unpk hf, unpkBody, if_pos hv,
    show unpkLoop (s.remaining + 1) { s with walk := s.root, holdv := false } = _ from hloop, s.rest_length]
  rfl

/-- A walk that takes a bit, or stands at an internal node, has an internal node at the root. -/
theorem root_internal_of_graphWalk {m : List (Nat × Node)} {root w : NodeIdx} {bits : List Bool} {syms : List Byte}
    (h : GraphWalk m root root bits syms w) (hw : bits ≠ [] ∨ ∃ l r, nmRead m w.toNat = some (.internal l r)) :
    ∃ l r, nmRead m root.toNat = some (.internal l r) := by
  cases h with
  | stop => exact hw.resolve_left (absurd rfl)
  | inner hi => exact ⟨_, _, hi⟩
  | leaf hi => exact ⟨_, _, hi⟩

/-- The significant bits do what the walk over the graph says (R97, R103). -/
theorem walkBits_startWalk_of_graphWalk {s : State} {w : NodeIdx} {bits : List Bool} {syms : List Byte}
    (hr : s.rootv = true) (h : GraphWalk s.nm s.root s.root bits syms w) :
    walkBits bits s.startWalk = .ok { s.startWalk with sout := s.sout ++ syms, walk := w } := by
  by_cases hbits : bits = []
  · subst hbits
    cases h
    simp [walkBits, State.startWalk]
  · exact walkBits_of_graphWalk h s.startWalk rfl rfl rfl hr (root_internal_of_graphWalk h (.inl hbits))

theorem significant_nil (pad : Nat) : significant [] pad = [] := List.take_nil

/-- Bits that lead back to the root end without a fault (R97). -/
theorem exec_unpk_of_graphWalk_to_root {s : State} {syms : List Byte} (hf : s.fault = false) (hv : s.hv = true)
    (hr : s.rootv = true) (hin : InputOk s) (he : s.rest = [] → s.pad = 0)
    (h : GraphWalk s.nm s.root s.root (significant s.rest s.pad.toNat) syms s.root) :
    ∃ hold, exec .unpk s = .next { s with
      sout := s.sout ++ syms, walk := s.root, ipos := BitVec.ofNat 64 s.cfg.input.length, hold := hold, holdv := false,
      resp := 0 } := by
  obtain ⟨hold, hexec⟩ := exec_unpk_of_walkBits hf hv hr hin he (walkBits_startWalk_of_graphWalk hr h)
  rw [if_pos (by rfl)] at hexec
  exact ⟨hold, hexec⟩

/-- Bits that lead elsewhere are an unfinished code (R101). -/
theorem exec_unpk_of_graphWalk_beside_root {s : State} {w : NodeIdx} {syms : List Byte} (hf : s.fault = false)
    (hv : s.hv = true) (hr : s.rootv = true) (hin : InputOk s) (hw : w ≠ s.root)
    (h : GraphWalk s.nm s.root s.root (significant s.rest s.pad.toNat) syms w) :
    ∃ hold, exec .unpk s = .next { s with
      sout := s.sout ++ syms, walk := w, ipos := BitVec.ofNat 64 s.cfg.input.length, hold := hold, holdv := false, stk := [],
      treeOpen := false, fault := true, fcause := 13, finfo := w.setWidth 64, resp := 0 } := by
  have he : s.rest ≠ [] := fun hrest => by
    rw [hrest, significant_nil] at h
    cases h
    exact hw rfl
  obtain ⟨hold, hexec⟩ :=
    exec_unpk_of_walkBits hf hv hr hin (fun hrest => absurd hrest he) (walkBits_startWalk_of_graphWalk hr h)
  rw [if_neg (by exact hw)] at hexec
  exact ⟨hold, hexec⟩

/-- Edges lead on from internal nodes only. -/
theorem internal_of_leads {m : List (Nat × Node)} {t : NTree} {part : List Bool} {j : NodeIdx} (hs : t.stored m)
    (h : t.Leads part j) : ∃ l r, nmRead m t.idx.toNat = some (.internal l r) := by
  cases h <;> exact ⟨_, _, hs.1⟩

/-- Edges that lead to an internal node of a stored tree are a walk over the graph that emits nothing (R97). -/
theorem graphWalk_of_leads {m : List (Nat × Node)} {root j : NodeIdx} {t : NTree} {part : List Bool} (hs : t.stored m)
    (h : t.Leads part j) : GraphWalk m root t.idx part [] j := by
  induction h with
  | here i => exact .stop i
  | left h ih =>
    obtain ⟨hi, hsl, -⟩ := hs
    obtain ⟨_, _, hc⟩ := internal_of_leads hsl h
    exact .inner (b := false) hi hc (ih hsl)
  | right h ih =>
    obtain ⟨hi, -, hsr⟩ := hs
    obtain ⟨_, _, hc⟩ := internal_of_leads hsr h
    exact .inner (b := true) hi hc (ih hsr)

/-- The internal node that edges lead to is one of the tree's nodes. -/
theorem mem_idxs_of_leads {t : NTree} {part : List Bool} {j : NodeIdx} (h : t.Leads part j) : j ∈ t.idxs := by
  induction h with
  | here => exact List.mem_cons_self
  | left _ ih => exact List.mem_cons_of_mem _ (List.mem_append_left _ ih)
  | right _ ih => exact List.mem_cons_of_mem _ (List.mem_append_right _ ih)

/-- Where every node has its own index, an edge leads away from the root for good. -/
theorem leads_ne_root {i j : NodeIdx} {l r : NTree} {part : List Bool} (hnodup : (NTree.node i l r).idxs.Nodup)
    (hpart : part ≠ []) (h : (NTree.node i l r).Leads part j) : j ≠ i := by
  obtain ⟨hfresh, -⟩ := List.nodup_cons.mp hnodup
  rintro rfl
  cases h with
  | here => exact hpart rfl
  | left h => exact hfresh (List.mem_append_left _ (mem_idxs_of_leads h))
  | right h => exact hfresh (List.mem_append_right _ (mem_idxs_of_leads h))

/-- Settles O46: the complete codes lead back to the root, and the unfinished one to a node that is not the root. -/
theorem unpkOfAnUnfinishedCodeRaisesTruncCode : Obligations.UnpkOfAnUnfinishedCodeRaisesTruncCode := by
  intro s i j l r codes syms part hf hv hin ⟨hr, hroot, hs, hnodup, _⟩ hcodes hpart hleads hsig
  have hwalk : GraphWalk s.nm i i (codes.flatten ++ part) (syms ++ []) j :=
    graphWalk_of_codes hs hcodes (graphWalk_of_leads hs hleads)
  rw [← hsig, List.append_nil, show i = s.root from hroot] at hwalk
  have hne : j ≠ s.root := hroot ▸ leads_ne_root hnodup hpart hleads
  exact exec_unpk_of_graphWalk_beside_root hf hv hr hin hne hwalk

end Sys2Proof.Machine

/-! ### `UNPK` on any graph (41_bit_unpacker.md R97, R103) -/

namespace Sys2Proof.Machine

theorem rest_ne_nil {s : State} (hpos : s.ipos.toNat < s.cfg.input.length) : s.rest ≠ [] :=
  List.ne_nil_of_length_pos (by rw [s.rest_length]; omega)

theorem significant_ne_nil {bs : List Byte} (pad : PadCount) (h : bs ≠ []) : significant bs pad.toNat ≠ [] := by
  refine List.ne_nil_of_length_pos ?_
  have hlen := List.length_pos_of_ne_nil h
  rw [significant_length]
  omega

/-- A significant bit at an invalid root raises (R97). -/
theorem walkBit_at_invalid_root (b : Bool) {s : State} (hr : s.rootv = true) (h0 : s.nmGet s.root = none) :
    walkBit b s = .raised .badNode (zext64 s.root) s := by
  simp [walkBit, hr, h0]

/-- With an invalid root the first significant bit raises `BAD_NODE` (R97). -/
theorem exec_unpk_of_invalid_root {s : State} (hf : s.fault = false) (hv : s.hv = true) (hr : s.rootv = true)
    (hin : InputOk s) (h0 : s.nmGet s.root = none) (hrest : s.rest ≠ []) :
    ∃ hold, exec .unpk s = .next { s with
      walk := s.root, ipos := s.ipos + BitVec.ofNat 64 (min 2 (s.cfg.input.length - s.ipos.toNat)), hold := hold, holdv := false,
      stk := [], treeOpen := false, fault := true, fcause := 10, finfo := s.root.setWidth 64, resp := 0 } := by
  obtain ⟨b, more, hsig⟩ := List.exists_cons_of_ne_nil (significant_ne_nil s.pad hrest)
  exact exec_unpk_of_raise (bits := []) hf hv hr hin hsig rfl (walkBit_at_invalid_root b (s := s.startWalk) hr h0)

/-- A bit that leads to an invalid child raises `BAD_NODE` with it, the walk left at its parent (R97). -/
theorem exec_unpk_of_invalid_child {s : State} {bits later : List Bool} {b : Bool} {syms : List Byte} {w l r : NodeIdx}
    (hf : s.fault = false) (hv : s.hv = true) (hr : s.rootv = true) (hin : InputOk s)
    (hsig : significant s.rest s.pad.toNat = bits ++ b :: later) (h : GraphWalk s.nm s.root s.root bits syms w)
    (hw : s.nmGet w = some (.internal l r)) (hc : s.nmGet (if b then r else l) = none) :
    ∃ hold, exec .unpk s = .next { s with
      sout := s.sout ++ syms, walk := w, hold := hold, holdv := false, stk := [], treeOpen := false, fault := true,
      ipos := s.ipos + BitVec.ofNat 64 (min (bits.length / 8 + 2) (s.cfg.input.length - s.ipos.toNat)),
      fcause := 10, finfo := (if b then r else l).setWidth 64, resp := 0 } := by
  obtain ⟨rl, rr, h0⟩ := root_internal_of_graphWalk h (.inr ⟨l, r, hw⟩)
  have hraise := walkBit_at_internal b (s := { s.startWalk with sout := s.sout ++ syms, walk := w }) hr h0 hw
  rw [show State.nmGet { s.startWalk with sout := s.sout ++ syms, walk := w } (if b then r else l) = none from hc] at hraise
  exact exec_unpk_of_raise hf hv hr hin hsig (walkBits_startWalk_of_graphWalk hr h) hraise

/-- The faults of `UNPK` and the information each latches (R97, R99 to R101). -/
def UnpkFault (s t : State) : Prop :=
  (t.fcause = 10 ∧ s.rootv = true ∧ ∃ c, s.nmGet c = none ∧ t.finfo = c.setWidth 64 ∧
    (c = s.root ∨ ∃ l r, s.nmGet t.walk = some (.internal l r) ∧ (c = l ∨ c = r))) ∨
  (t.fcause = 11 ∧ s.rootv = false ∧ t.finfo = t.ipos) ∨
  (t.fcause = 12 ∧ s.ipos.toNat = s.cfg.input.length ∧ s.pad ≠ 0 ∧ t.finfo = s.pad.setWidth 64) ∨
  (t.fcause = 13 ∧ s.rootv = true ∧ t.walk ≠ s.root ∧ t.ipos.toNat = s.cfg.input.length ∧ t.finfo = t.walk.setWidth 64)

/-- `UNPK` ends with symbols appended: at the end of the input, or with a fault (R96, R103). -/
def UnpkEnds (s : State) : Prop :=
  ∃ (t : State) (syms : List Byte), exec .unpk s = .next t ∧
    t.ipos.toNat ≤ s.cfg.input.length ∧ s.ipos.toNat ≤ t.ipos.toNat ∧
    syms.length ≤ 8 * (s.cfg.input.length - s.ipos.toNat) ∧
    ((t.fault = false ∧ t.ipos.toNat = s.cfg.input.length ∧ (s.rootv = true → t.walk = s.root) ∧
        t = { s with sout := s.sout ++ syms, walk := t.walk, ipos := t.ipos, hold := t.hold, holdv := false, resp := 0 }) ∨
     (t.fault = true ∧ UnpkFault s t ∧
        t = { s with sout := s.sout ++ syms, walk := t.walk, ipos := t.ipos, hold := t.hold, holdv := false, stk := [],
                     treeOpen := false, fault := true, fcause := t.fcause, finfo := t.finfo, resp := 0 }))

/-- The end of the input, with the walk at the root. -/
theorem UnpkEnds.of_end {s : State} {syms : List Byte} {hold : Byte} {p : BitVec 64} (hf : s.fault = false)
    (hin : InputOk s) (hp : p.toNat = s.cfg.input.length)
    (hsyms : syms.length ≤ 8 * (s.cfg.input.length - s.ipos.toNat))
    (hexec : exec .unpk s = .next { s with
      sout := s.sout ++ syms, walk := s.root, ipos := p, hold := hold, holdv := false, resp := 0 }) :
    UnpkEnds s :=
  ⟨_, syms, hexec, hp.le, hin.2.trans hp.ge, hsyms, .inl ⟨hf, hp, fun _ => rfl, rfl⟩⟩

/-- A fault, after the input up to the position `p`. -/
theorem UnpkEnds.of_fault {s : State} {syms : List Byte} {w : NodeIdx} {hold : Byte} {p : BitVec 64} {cause : BitVec 4}
    {info : Resp} (hlo : s.ipos.toNat ≤ p.toNat) (hhi : p.toNat ≤ s.cfg.input.length)
    (hsyms : syms.length ≤ 8 * (s.cfg.input.length - s.ipos.toNat))
    (hexec : exec .unpk s = .next { s with
      sout := s.sout ++ syms, walk := w, ipos := p, hold := hold, holdv := false, stk := [], treeOpen := false, fault := true,
      fcause := cause, finfo := info, resp := 0 })
    (hfault : UnpkFault s { s with walk := w, ipos := p, fcause := cause, finfo := info }) :
    UnpkEnds s :=
  ⟨_, syms, hexec, hhi, hlo, hsyms, .inr ⟨rfl, hfault, rfl⟩⟩

/-- A position that does not pass the end of the input does not wrap (R31). -/
theorem ipos_add_toNat {s : State} (hin : InputOk s) {n : Nat} (hn : n ≤ s.cfg.input.length - s.ipos.toNat) :
    (s.ipos + BitVec.ofNat 64 n).toNat = s.ipos.toNat + n := by
  obtain ⟨hs, hp⟩ := hin
  rw [BitVec.toNat_add, BitVec.toNat_ofNat]
  omega

/-- Up to `n` bytes on, the position stays between where it was and the end of the input (R31). -/
theorem ipos_add_min_bounds {s : State} (hin : InputOk s) (n : Nat) :
    s.ipos.toNat ≤ (s.ipos + BitVec.ofNat 64 (min n (s.cfg.input.length - s.ipos.toNat))).toNat ∧
    (s.ipos + BitVec.ofNat 64 (min n (s.cfg.input.length - s.ipos.toNat))).toNat ≤ s.cfg.input.length := by
  rw [ipos_add_toNat hin (Nat.min_le_right _ _)]
  obtain ⟨hs, hp⟩ := hin
  omega

theorem unpkEnds_of_empty {s : State} (hf : s.fault = false) (hv : s.hv = true) (hin : InputOk s)
    (hend : s.ipos.toNat = s.cfg.input.length) : UnpkEnds s := by
  obtain ⟨hok, hbad⟩ := unpkOfAnEmptyPayload s hf hv hend
  rw [← List.append_nil s.sout] at hok hbad
  by_cases hpad : s.pad = 0
  · exact .of_end hf hin hend (Nat.zero_le _) (hok hpad)
  · exact .of_fault le_rfl hend.le (Nat.zero_le _) (hbad hpad) (.inr (.inr (.inl ⟨rfl, hend, hpad, rfl⟩)))

theorem unpkEnds_of_no_tree {s : State} (hf : s.fault = false) (hv : s.hv = true) (hin : InputOk s)
    (hr : s.rootv = false) (hpos : s.ipos.toNat < s.cfg.input.length) : UnpkEnds s := by
  obtain ⟨hold, hexec⟩ := unpkWithoutATreeRaisesNoTree s hf hv hin hr hpos
  rw [← List.append_nil s.sout] at hexec
  obtain ⟨hlo, hhi⟩ := ipos_add_min_bounds hin 2
  exact .of_fault hlo hhi (Nat.zero_le _) hexec (.inr (.inl ⟨rfl, hr, rfl⟩))

theorem unpkEnds_of_invalid_root {s : State} (hf : s.fault = false) (hv : s.hv = true) (hin : InputOk s)
    (hr : s.rootv = true) (h0 : s.nmGet s.root = none) (hrest : s.rest ≠ []) : UnpkEnds s := by
  obtain ⟨hold, hexec⟩ := exec_unpk_of_invalid_root hf hv hr hin h0 hrest
  rw [← List.append_nil s.sout] at hexec
  obtain ⟨hlo, hhi⟩ := ipos_add_min_bounds hin 2
  exact .of_fault hlo hhi (Nat.zero_le _) hexec
    (.inl ⟨rfl, hr, s.root, h0, rfl, .inl rfl⟩)

theorem unpkEnds_of_leaf_root {s : State} {sym : Byte} (hf : s.fault = false) (hv : s.hv = true) (hin : InputOk s)
    (hr : s.rootv = true) (h0 : s.nmGet s.root = some (.leaf sym)) (hpos : s.ipos.toNat < s.cfg.input.length) :
    UnpkEnds s := by
  obtain ⟨hold, hexec⟩ := unpkOfASingleLeafRepeatsIt s sym hf hv hin hr h0 hpos
  refine .of_end hf hin (by
    rw [BitVec.toNat_ofNat, Nat.mod_eq_of_lt hin.1]) ?_ hexec
  rw [List.length_replicate]
  exact Nat.sub_le _ _

theorem unpkEnds_of_internal_root {s : State} {l r : NodeIdx} (hf : s.fault = false) (hv : s.hv = true) (hin : InputOk s)
    (hr : s.rootv = true) (h0 : s.nmGet s.root = some (.internal l r)) (hrest : s.rest ≠ []) :
    UnpkEnds s := by
  have hend : (BitVec.ofNat 64 s.cfg.input.length).toNat = s.cfg.input.length := by
    rw [BitVec.toNat_ofNat, Nat.mod_eq_of_lt hin.1]
  have hbits : (significant s.rest s.pad.toNat).length ≤ 8 * (s.cfg.input.length - s.ipos.toNat) := by
    rw [significant_length, s.rest_length]
    exact Nat.sub_le _ _
  rcases graphWalk_or_stuck s.nm s.root ⟨l, r, h0⟩ (significant s.rest s.pad.toNat) s.root ⟨l, r, h0⟩ with
    ⟨syms, j, hle, hwalk⟩ | ⟨bits, b, later, syms, w, wl, wr, hsig, hle, hwalk, hw, hc⟩
  · by_cases hj : j = s.root
    · subst hj
      obtain ⟨hold, hexec⟩ := exec_unpk_of_graphWalk_to_root hf hv hr hin (fun h => absurd h hrest) hwalk
      exact .of_end hf hin hend (hle.trans hbits) hexec
    · obtain ⟨hold, hexec⟩ := exec_unpk_of_graphWalk_beside_root hf hv hr hin hj hwalk
      exact .of_fault (hin.2.trans hend.ge) hend.le (hle.trans hbits) hexec
        (.inr (.inr (.inr ⟨rfl, hr, hj, hend, rfl⟩)))
  · obtain ⟨hold, hexec⟩ := exec_unpk_of_invalid_child hf hv hr hin hsig hwalk hw hc
    obtain ⟨hlo, hhi⟩ := ipos_add_min_bounds hin (bits.length / 8 + 2)
    have hchild : (if b then wr else wl) = wl ∨ (if b then wr else wl) = wr := by cases b <;> simp
    have hpre : bits.length ≤ (significant s.rest s.pad.toNat).length := by simp [hsig]
    exact .of_fault hlo hhi (hle.trans (hpre.trans hbits)) hexec
      (.inl ⟨rfl, hr, _, hc, rfl, .inr ⟨wl, wr, hw, hchild⟩⟩)

/-- Whatever node memory holds, `UNPK` with a header ends (R103): by what stands at the root. -/
theorem unpkEnds {s : State} (hf : s.fault = false) (hv : s.hv = true) (hin : InputOk s) :
    UnpkEnds s := by
  rcases hin.2.eq_or_lt with hend | hpos
  · exact unpkEnds_of_empty hf hv hin hend
  have hrest := rest_ne_nil hpos
  cases hr : s.rootv with
  | false => exact unpkEnds_of_no_tree hf hv hin hr hpos
  | true =>
    match h0 : s.nmGet s.root with
    | none => exact unpkEnds_of_invalid_root hf hv hin hr h0 hrest
    | some (.leaf sym) => exact unpkEnds_of_leaf_root hf hv hin hr h0 hpos
    | some (.internal l r) => exact unpkEnds_of_internal_root hf hv hin hr h0 hrest

/-- Settles O47: the walk over the graph as it stands, to its end or to an invalid node. -/
theorem unpkEndsOnAnyGraph : Obligations.UnpkEndsOnAnyGraph := by
  intro s hf hv hin
  refine ⟨unpkEnds hf hv hin, fun hr h0 hpos => ?_, fun bits more syms w hr hsig hwalk => ⟨?_, ?_, ?_⟩⟩
  · exact exec_unpk_of_invalid_root hf hv hr hin h0 (rest_ne_nil hpos)
  · rintro rfl rfl he
    rw [← List.append_nil bits, ← hsig] at hwalk
    exact exec_unpk_of_graphWalk_to_root hf hv hr hin he hwalk
  · rintro rfl hw
    rw [← List.append_nil bits, ← hsig] at hwalk
    exact exec_unpk_of_graphWalk_beside_root hf hv hr hin hw hwalk
  · rintro b later l r rfl hw hc
    exact exec_unpk_of_invalid_child hf hv hr hin hsig hwalk hw hc

end Sys2Proof.Machine

/-! ### The padding bits of the final byte (41_bit_unpacker.md R102) -/

namespace Sys2Proof.Machine

/-- The state with the input bytes `x` in place of its own (R13). -/
def State.withInput (s : State) (x : List Byte) : State := { s with cfg := { s.cfg with input := x } }

theorem highBits_eq_map_range (b : Byte) {k : Nat} (hk : k ≤ 8) :
    highBits b k = (List.range k).map fun j => b.getLsbD (7 - j) := by
  rw [highBits, bitsDown_eq_map_range, ← List.map_take, List.take_range, Nat.min_eq_left hk]

/-- The bits of the payload before its final byte are significant, and of that byte those above the padding (R12). -/
theorem significant_concat (bs : List Byte) (b : Byte) {pad : Nat} (h : pad ≤ 7) :
    significant (bs ++ [b]) pad = msbBits bs ++ highBits b (8 - pad) := by
  have hcut : 8 * (bs ++ [b]).length - pad - 8 * bs.length = 8 - pad := by
    rw [List.length_append, List.length_singleton]
    omega
  have hwhole : (msbBits bs).length ≤ 8 * (bs ++ [b]).length - pad := by
    rw [msbBits_length, List.length_append, List.length_singleton]
    omega
  rw [significant, show msbBits (bs ++ [b]) = msbBits bs ++ msbBits [b] from List.flatMap_append, List.take_append,
    List.take_of_length_le hwhole, msbBits_length, hcut, ← significant_single]
  rfl

/-- Final bytes that differ only in the padding leave the significant bits alike (R102). -/
theorem significant_concat_congr (bs : List Byte) {b₁ b₂ : Byte} {pad : Nat} (h : pad ≤ 7)
    (hbits : ∀ k, pad ≤ k → k < 8 → b₁.getLsbD k = b₂.getLsbD k) :
    significant (bs ++ [b₁]) pad = significant (bs ++ [b₂]) pad := by
  rw [significant_concat bs b₁ h, significant_concat bs b₂ h, highBits_eq_map_range b₁ (Nat.sub_le 8 pad),
    highBits_eq_map_range b₂ (Nat.sub_le 8 pad)]
  congr 1
  refine List.map_congr_left fun j hj => hbits (7 - j) ?_ (by omega)
  have := List.mem_range.mp hj
  omega

/-- `UNPK` answers the same on the state's own input and on `x`, but for the input and the hidden byte. -/
def UnpkAlike (s : State) (x : List Byte) : Prop :=
  ∃ t t', exec .unpk s = .next t ∧ exec .unpk (s.withInput x) = .next t' ∧
    t' = { t with cfg := { s.cfg with input := x }, hold := t'.hold }

theorem unpkAlike_of_fault {s : State} {x : List Byte} (hf : s.fault = true) : UnpkAlike s x :=
  ⟨_, _, unlessFault_of_fault hf _, unlessFault_of_fault (s := s.withInput x) hf _, rfl⟩

theorem unpkAlike_of_no_header {s : State} {x : List Byte} (hf : s.fault = false) (hv : s.hv = false) : UnpkAlike s x :=
  ⟨_, _, (noHeaderIsRaisedFirst s hf hv).2, (noHeaderIsRaisedFirst (s.withInput x) hf hv).2, rfl⟩

/-- The input bytes `x` are as many as the state's own, and the payload in them has the same significant bits. -/
structure SameBits (s : State) (x : List Byte) : Prop where
  length : (s.withInput x).cfg.input.length = s.cfg.input.length
  bits : significant (s.withInput x).rest s.pad.toNat = significant s.rest s.pad.toNat

theorem SameBits.inputOk {s : State} {x : List Byte} (hx : SameBits s x) (hin : InputOk s) : InputOk (s.withInput x) := by
  unfold InputOk
  rw [hx.length]
  exact hin

section
variable {s : State} {x : List Byte} (hf : s.fault = false) (hv : s.hv = true) (hin : InputOk s)
  (hpos : s.ipos.toNat < s.cfg.input.length) (hx : SameBits s x)
include hf hv hin hpos hx

theorem unpkAlike_of_no_tree (hr : s.rootv = false) : UnpkAlike s x := by
  obtain ⟨_, h⟩ := unpkWithoutATreeRaisesNoTree s hf hv hin hr hpos
  obtain ⟨_, h'⟩ := unpkWithoutATreeRaisesNoTree (s.withInput x) hf hv (hx.inputOk hin) hr (hpos.trans_eq hx.length.symm)
  rw [hx.length] at h'
  exact ⟨_, _, h, h', rfl⟩

theorem unpkAlike_of_invalid_root (hr : s.rootv = true) (h0 : s.nmGet s.root = none) : UnpkAlike s x := by
  obtain ⟨_, h⟩ := exec_unpk_of_invalid_root hf hv hr hin h0 (rest_ne_nil hpos)
  obtain ⟨_, h'⟩ := exec_unpk_of_invalid_root (s := s.withInput x) hf hv hr (hx.inputOk hin) h0
    (rest_ne_nil (hpos.trans_eq hx.length.symm))
  rw [hx.length] at h'
  exact ⟨_, _, h, h', rfl⟩

theorem unpkAlike_of_leaf_root {sym : Byte} (hr : s.rootv = true) (h0 : s.nmGet s.root = some (.leaf sym)) :
    UnpkAlike s x := by
  obtain ⟨_, h⟩ := unpkOfASingleLeafRepeatsIt s sym hf hv hin hr h0 hpos
  obtain ⟨_, h'⟩ := unpkOfASingleLeafRepeatsIt (s.withInput x) sym hf hv (hx.inputOk hin) hr h0
    (hpos.trans_eq hx.length.symm)
  rw [hx.length] at h'
  exact ⟨_, _, h, h', rfl⟩

theorem unpkAlike_of_internal_root {l r : NodeIdx} (hr : s.rootv = true) (h0 : s.nmGet s.root = some (.internal l r)) :
    UnpkAlike s x := by
  have hin' := hx.inputOk hin
  rcases graphWalk_or_stuck s.nm s.root ⟨l, r, h0⟩ (significant s.rest s.pad.toNat) s.root ⟨l, r, h0⟩ with
    ⟨syms, j, -, hwalk⟩ | ⟨bits, b, later, syms, w, wl, wr, hsig, -, hwalk, hw, hc⟩
  · have hwalk' := hwalk
    rw [← hx.bits] at hwalk'
    by_cases hj : j = s.root
    · subst hj
      obtain ⟨_, h⟩ := exec_unpk_of_graphWalk_to_root hf hv hr hin (fun h => absurd h (rest_ne_nil hpos)) hwalk
      obtain ⟨_, h'⟩ := exec_unpk_of_graphWalk_to_root (s := s.withInput x) hf hv hr hin'
        (fun h => absurd h (rest_ne_nil (hpos.trans_eq hx.length.symm))) hwalk'
      rw [hx.length] at h'
      exact ⟨_, _, h, h', rfl⟩
    · obtain ⟨_, h⟩ := exec_unpk_of_graphWalk_beside_root hf hv hr hin hj hwalk
      obtain ⟨_, h'⟩ := exec_unpk_of_graphWalk_beside_root (s := s.withInput x) hf hv hr hin' hj hwalk'
      rw [hx.length] at h'
      exact ⟨_, _, h, h', rfl⟩
  · obtain ⟨_, h⟩ := exec_unpk_of_invalid_child hf hv hr hin hsig hwalk hw hc
    obtain ⟨_, h'⟩ := exec_unpk_of_invalid_child (s := s.withInput x) hf hv hr hin' (hx.bits.trans hsig) hwalk hw hc
    rw [hx.length] at h'
    exact ⟨_, _, h, h', rfl⟩

/-- Inputs with the same significant bits are decoded alike, by what stands at the root (R97, R102). -/
theorem unpkAlike_of_sameBits : UnpkAlike s x := by
  cases hr : s.rootv with
  | false => exact unpkAlike_of_no_tree hf hv hin hpos hx hr
  | true =>
    match h0 : s.nmGet s.root with
    | none => exact unpkAlike_of_invalid_root hf hv hin hpos hx hr h0
    | some (.leaf sym) => exact unpkAlike_of_leaf_root hf hv hin hpos hx hr h0
    | some (.internal l r) => exact unpkAlike_of_internal_root hf hv hin hpos hx hr h0

end

/-- Final bytes that differ only in the padding give the same significant bits (R102). -/
theorem sameBits_of_final_byte (s : State) {pre : List Byte} {b₁ b₂ : Byte} (hpos : s.ipos.toNat ≤ pre.length)
    (hbits : ∀ k, s.pad.toNat ≤ k → k < 8 → b₁.getLsbD k = b₂.getLsbD k) :
    SameBits (s.withInput (pre ++ [b₁])) (pre ++ [b₂]) where
  length := by
    show (pre ++ [b₂]).length = (pre ++ [b₁]).length
    simp
  bits := by
    show significant ((pre ++ [b₂]).drop s.ipos.toNat) s.pad.toNat = significant ((pre ++ [b₁]).drop s.ipos.toNat) s.pad.toNat
    rw [List.drop_append_of_le_length hpos, List.drop_append_of_le_length hpos]
    exact (significant_concat_congr _ (by omega) hbits).symm

/-- Settles O48: the significant bits and the number of bytes are the same, and `UNPK` looks at nothing else. -/
theorem unpkDoesNotLookAtThePadding : Obligations.UnpkDoesNotLookAtThePadding := by
  intro s pre b₁ b₂ hpos hlen hbits
  have hlen₁ : (pre ++ [b₁]).length = pre.length + 1 := by simp
  have hin : InputOk (s.withInput (pre ++ [b₁])) :=
    ⟨hlen₁.trans_lt hlen, hpos.trans (hlen₁.symm ▸ Nat.le_succ _)⟩
  have hmore : s.ipos.toNat < (pre ++ [b₁]).length := by omega
  show UnpkAlike (s.withInput (pre ++ [b₁])) (pre ++ [b₂])
  cases hf : s.fault with
  | true => exact unpkAlike_of_fault hf
  | false =>
    cases hv : s.hv with
    | false => exact unpkAlike_of_no_header hf hv
    | true => exact unpkAlike_of_sameBits hf hv hin hmore (sameBits_of_final_byte s hpos hbits)

end Sys2Proof.Machine

/-! ### Naming the root and reading an entry (42_tree_codec.md R109, R110) -/

namespace Sys2Proof.Machine

/-- Settles O21, by what `SROOT` does outside the fault state. -/
theorem srootNamesTheRoot : Obligations.SrootNamesTheRoot := fun _ idx hf => exec_sroot idx hf

theorem nrdWord_leaf_toNat (sym : Byte) : (nrdWord (some (.leaf sym))).toNat = 2 ^ 19 + sym.toNat := by
  have hsym : (zext64 sym).toNat = sym.toNat := BitVec.toNat_setWidth_of_le (by decide)
  have hlt := sym.isLt
  rw [nrdWord, or_shiftLeft_toNat _ _ (by decide) (by omega), hsym]
  rfl

theorem nrdWord_internal_toNat (l r : NodeIdx) :
    (nrdWord (some (.internal l r))).toNat = 2 ^ 19 + 2 ^ 18 + l.toNat * 2 ^ 9 + r.toNat := by
  have hl : (zext64 l).toNat = l.toNat := BitVec.toNat_setWidth_of_le (by decide)
  have hr : (zext64 r).toNat = r.toNat := BitVec.toNat_setWidth_of_le (by decide)
  have hllt := l.isLt
  have hrlt := r.isLt
  have hfields : ((zext64 l <<< 9) ||| zext64 r).toNat = l.toNat * 2 ^ 9 + r.toNat := by
    rw [or_shiftLeft_toNat _ _ (by omega) (by omega), hl, hr]
  have hkind : ((1#64 <<< 18) ||| ((zext64 l <<< 9) ||| zext64 r)).toNat = 2 ^ 18 + l.toNat * 2 ^ 9 + r.toNat := by
    rw [or_shiftLeft_toNat _ _ (by decide) (by omega), hfields]
    simp
    omega
  rw [nrdWord, BitVec.or_assoc, BitVec.or_assoc, or_shiftLeft_toNat _ _ (by decide) (by omega), hkind]
  simp
  omega

/-- Settles O22: the answer is `nrdWord` of the entry, whose fields are bits side by side. -/
theorem nrdAnswersTheEntry : Obligations.NrdAnswersTheEntry := by
  intro s idx
  refine ⟨nrdWord (s.nmGet idx), rfl, fun h => ?_, fun sym h => ?_, fun l r h => ?_⟩
  · rw [h]
    rfl
  · rw [h, nrdWord_leaf_toNat]
  · rw [h, nrdWord_internal_toNat]

end Sys2Proof.Machine

/-! ### `TSER` along a pre-order walk (42_tree_codec.md R112, R114, R116) -/

namespace Sys2Proof.Machine

/-- `TSER` without a root (R114). -/
theorem tserBody_of_no_root {s : State} (hr : s.rootv = false) :
    tserBody s = .ok { s with tlen := 0, stk := [], resp := 0 } := by
  simp only [tserBody, hr]
  rfl

section
variable {s : State} {bs : List Byte} (hf : s.fault = false) (hr : s.rootv = true) (hl : bs.length ≤ 8191)
include hf hr hl

/-- A walk that leaves nothing to come is all that `TSER` does (R112). -/
theorem exec_tser_of_full_walk (w : SerWalk s.cfg s.nm [s.root] bs []) :
    exec .tser s = .next { s with
      tlen := BitVec.ofNat 13 bs.length, cout := s.cout ++ bs, stk := [], resp := 0 } := by
  obtain ⟨fuel, hbody⟩ := tserBody_of_walk hr w hl
  rw [exec_tser hf, hbody]
  rfl

/-- After a walk, a pass over the next entry that raises ends `TSER` (R112, R155). -/
theorem exec_tser_of_raise {n : NodeIdx} {below : List NodeIdx} {c : Cause} {info : Resp} {t : State}
    (w : SerWalk s.cfg s.nm [s.root] bs (n :: below))
    (hpass : tserPass n { s with tlen := BitVec.ofNat 13 bs.length, cout := s.cout ++ bs, stk := todoStk below } =
      .raised c info t) :
    exec .tser s = .next (t.latch c info) := by
  obtain ⟨fuel, hbody⟩ := tserBody_of_walk hr w hl
  rw [exec_tser hf, hbody, todoStk_cons, tserLoop]
  simp only [hpass]
  rfl

theorem exec_tser_badNode {n : NodeIdx} {below : List NodeIdx} (w : SerWalk s.cfg s.nm [s.root] bs (n :: below))
    (hn : s.nmGet n = none) :
    exec .tser s = .next { s with
      tlen := BitVec.ofNat 13 bs.length, cout := s.cout ++ bs, fault := true, fcause := 10, finfo := n.setWidth 64,
      stk := [], holdv := false, treeOpen := false, resp := 0 } :=
  exec_tser_of_raise hf hr hl w (tserPass_badNode hn)

theorem exec_tser_tlenOvf {n : NodeIdx} {below : List NodeIdx} {nd : Node}
    (w : SerWalk s.cfg s.nm [s.root] bs (n :: below)) (hn : s.nmGet n = some nd)
    (hover : 8191 < bs.length + (nodeBytes s.cfg nd).length) :
    exec .tser s = .next { s with
      tlen := 8191, cout := s.cout ++ (bs ++ nodeBytes s.cfg nd).take 8191, fault := true, fcause := 9,
      finfo := n.setWidth 64, stk := [], holdv := false, treeOpen := false, resp := 0 } := by
  have htl : (BitVec.ofNat 13 bs.length).toNat = bs.length := by
    rw [BitVec.toNat_ofNat]
    omega
  have hpass := tserPass_tlenOvf (n := n) (nd := nd) (todo := below)
    (s := { s with tlen := BitVec.ofNat 13 bs.length, cout := s.cout ++ bs, stk := todoStk below }) hn rfl
    (htl.trans_le hl) (by simpa only [htl] using hover)
  have hcount : bs.length + ((nodeBytes s.cfg nd).take (8191 - bs.length)).length = 8191 := by
    rw [List.length_take]
    omega
  rw [exec_tser_of_raise hf hr hl w hpass]
  simp only [State.serialized, State.latch, htl, ← BitVec.ofNat_add, hcount, List.append_assoc, List.take_append,
    List.take_of_length_le hl]
  rfl

theorem exec_tser_stkOvf {n l r : NodeIdx} {below : List NodeIdx} (w : SerWalk s.cfg s.nm [s.root] bs (n :: below))
    (hn : s.nmGet n = some (.internal l r)) (hfull : below.length = 255) (hroom : bs.length < 8191) :
    exec .tser s = .next { s with
      tlen := BitVec.ofNat 13 (bs.length + 1), cout := s.cout ++ bs ++ [s.cfg.mark], fault := true, fcause := 8,
      finfo := l.setWidth 64, stk := [], holdv := false, treeOpen := false, resp := 0 } := by
  obtain ⟨stk, hpass⟩ := tserPass_stkOvf (n := n) (l := l) (r := r)
    (s := { s with tlen := BitVec.ofNat 13 bs.length, cout := s.cout ++ bs, stk := todoStk below }) hn
    ((todoStk_length below).trans hfull) (by simp only [BitVec.toNat_ofNat]; omega)
  rw [exec_tser_of_raise hf hr hl w hpass, BitVec.ofNat_add]
  rfl

end

/-- Settles O24: without a root the loop is not entered, and an invalid root is the first entry of a walk. -/
theorem tserWithNothingAtTheRootEmitsNothing : Obligations.TserWithNothingAtTheRootEmitsNothing := by
  intro s hf
  refine ⟨fun hr => ?_, fun hr hn => ?_⟩
  · rw [exec_tser hf, tserBody_of_no_root hr]
    rfl
  · rw [exec_tser_badNode hf hr (Nat.zero_le _) (.stop [s.root]) hn, List.append_nil]
    rfl

/-- Settles O25: what the body can do on any node memory, and after a walk one case for each way the next entry ends it. -/
theorem tserEndsOnAnyGraph : Obligations.TserEndsOnAnyGraph := by
  intro s hf
  refine ⟨?_, fun bs todo hr w hl => ⟨?_, ?_⟩⟩
  · obtain ⟨t, ht, ⟨bs, hlen, hok⟩ | ⟨c, info, u, ⟨hc, bs, hlen, hu⟩, rfl⟩⟩ := settle_all (tserBody_all s)
    · refine ⟨t, bs, exec_tser hf ▸ ht, hlen, .inl ⟨?_, hok⟩⟩
      rw [hok]
      exact hf
    · refine ⟨u.latch c info, bs, exec_tser hf ▸ ht, hlen, .inr ⟨rfl, ?_, ?_⟩⟩
      · rcases hc with ⟨rfl, n, l, r, hn, rfl⟩ | ⟨rfl, hfull, n, nd, hn, rfl⟩ | ⟨rfl, n, hn, rfl⟩
        · exact .inl ⟨rfl, n, l, r, hn, rfl⟩
        · exact .inr (.inl ⟨rfl, BitVec.eq_of_toNat_eq hfull, n, nd, hn, rfl⟩)
        · exact .inr (.inr ⟨rfl, n, hn, rfl⟩)
      · rw [hu]
        rfl
  · rintro rfl
    exact exec_tser_of_full_walk hf hr hl w
  · rintro n below rfl
    exact ⟨exec_tser_badNode hf hr hl w, fun nd => exec_tser_tlenOvf hf hr hl w,
      fun l r => exec_tser_stkOvf hf hr hl w⟩

end Sys2Proof.Machine

/-! ### `TSER` of a well-formed tree (42_tree_codec.md R113) -/

namespace Sys2Proof.Machine

/-- A stored tree that the stack has room for is serialized first, its recursive serialization before what is to come. -/
theorem serWalk_of_stored {c : Config} {m : List (Nat × Node)} {bs : List Byte} {rest : List NodeIdx} (t : NTree)
    {todo : List NodeIdx} (hs : t.stored m) (hd : t.depth + todo.length ≤ 255) (w : SerWalk c m todo bs rest) :
    SerWalk c m (t.idx :: todo) (t.shape.ser c ++ bs) rest := by
  induction t generalizing todo bs with
  | leaf i sym => exact .leaf hs w
  | node i l r ihl ihr =>
    obtain ⟨hi, hsl, hsr⟩ := hs
    simp only [NTree.depth] at hd
    have hwr := ihr hsr (by omega) w
    have hwl := ihl (todo := r.idx :: todo) hsl (by simp only [List.length_cons]; omega) hwr
    simp only [NTree.shape, Tree.ser, List.cons_append, List.append_assoc]
    exact .node hi (by omega) hwl

theorem NTree.length_idxs (t : NTree) : t.idxs.length = t.shape.size := by
  induction t with
  | leaf i sym => rfl
  | node i l r ihl ihr =>
    simp only [NTree.idxs, NTree.shape, Tree.size, List.length_cons, List.length_append, ihl, ihr]
    omega

/-- A tree whose nodes are reached by one path has at most as many as there are indices (R32, R111). -/
theorem NTree.size_le_of_nodup {t : NTree} (h : t.idxs.Nodup) : t.shape.size ≤ 512 := by
  rw [← t.length_idxs]
  exact h.length_le_card.trans_eq FinEnum.card_eq_fintypeCard.symm

/-- Each node has one byte or two (R67). -/
theorem Tree.length_ser_le (c : Config) (t : Tree) : (t.ser c).length ≤ 2 * t.size := by
  induction t with
  | leaf sym =>
    simp only [Tree.ser, Tree.size]
    split <;> simp
  | node l r ihl ihr =>
    simp only [Tree.ser, Tree.size, List.length_cons, List.length_append]
    omega

/-- Settles O23: the recursive serialization is a walk from the root to its end, and 512 nodes have at most 1024 bytes. -/
theorem tserEmitsTheRecursiveSerialization : Obligations.TserEmitsTheRecursiveSerialization := by
  intro s t hf ⟨hr, hroot, hs, hnodup, hd⟩
  have hlen : (t.shape.ser s.cfg).length ≤ 8191 := by
    have := t.shape.length_ser_le s.cfg
    have := NTree.size_le_of_nodup hnodup
    omega
  have hwalk := serWalk_of_stored (c := s.cfg) t hs (todo := []) hd (.stop [])
  rw [hroot, List.append_nil] at hwalk
  exact exec_tser_of_full_walk hf hr hlen hwalk

end Sys2Proof.Machine

/-! ### How `TDES` starts and ends (42_tree_codec.md R118, R120, R121, R163) -/

namespace Sys2Proof.Machine

/-- `TDES` before its first token: node memory and the counts cleared, its loop at the top (R118). -/
def State.tdesTop (s : State) : State :=
  { s with nm := [], nalloc := 0, rootv := false, root := 0, tcnt := 0, stk := [], treeOpen := true }

/-- What the start does with a header, by `HTLEN` (R118, R120, R121). -/
theorem tdesStart_with_header {s : State} (hv : s.hv = true) :
    tdesStart s =
      if s.htlen = 0 then .ok { s.tdesTop with treeOpen := false, resp := 0 }
      else if s.cfg.checkTlen = true ∧ s.remaining < s.htlen.toNat then
        .raised .treeTrunc s.ipos { s.tdesTop with treeOpen := false }
      else .ok s.tdesTop := by
  rw [tdesStart, if_pos hv]
  rfl

theorem tdesStart_of_room {s : State} (hv : s.hv = true) (h0 : s.htlen ≠ 0)
    (hroom : s.cfg.checkTlen = true → s.htlen.toNat ≤ s.remaining) : tdesStart s = .ok s.tdesTop := by
  rw [tdesStart_with_header hv, if_neg h0, if_neg fun h => Nat.not_lt.mpr (hroom h.1) h.2]

/-- Where the start leaves the loop open, it leaves it at its top (R118). -/
theorem tdesStart_open {s s₀ : State} (h : tdesStart s = .ok s₀) (ho : s₀.treeOpen = true) : s₀ = s.tdesTop := by
  cases hv : s.hv with
  | false =>
    simp [tdesStart, hv] at h
  | true =>
    rw [tdesStart_with_header hv] at h
    split at h
    · cases h
      cases ho
    · split at h
      · cases h
      · cases h
        rfl

theorem tdesLoop_of_closed (fuel : Nat) {s : State} (h : s.treeOpen = false) : tdesLoop fuel s = .ok s := by
  cases fuel <;> simp [tdesLoop, h]

/-- Settles O27: the start ends the command, its loop closed. -/
theorem tdesOfLengthZeroIsTheEmptyTree : Obligations.TdesOfLengthZeroIsTheEmptyTree := by
  intro s hf hv h0
  rw [exec_tdes hf, tdesStart_with_header hv, if_pos h0, Body.bind_ok, tdesLoop_of_closed _ rfl]
  rfl

/-- Settles O29: the start raises before its loop. -/
theorem tdesChecksWhatIsAvailableFirst : Obligations.TdesChecksWhatIsAvailableFirst := by
  intro s hf hv _ hc hshort
  have h0 : s.htlen ≠ 0 := fun h => by simp [h] at hshort
  rw [exec_tdes hf, tdesStart_with_header hv, if_neg h0, if_pos ⟨hc, hshort⟩]
  rfl

/-- The causes of the tree deserializer have the codes 5 to 8, and `NO_HDR` is none of them (R118, R159). -/
theorem DesCause.code {c : Cause} (h : DesCause c) :
    c ≠ .noHdr ∧ 5 ≤ (causeCode c).toNat ∧ (causeCode c).toNat ≤ 8 := by
  rcases h with rfl | rfl | rfl | rfl <;> decide

/-- Settles O30: the body with a header ends in a tree, in the empty tree or in a fault, after bytes that it counts. -/
theorem tdesEndsAndFaultsLeaveNoTree : Obligations.TdesEndsAndFaultsLeaveNoTree := by
  intro s hf hv hin
  have hcounts : ∀ {k n : Nat}, k ≤ 2 * n + 2 → n ≤ 512 → s.ipos.toNat + k ≤ s.cfg.input.length →
      (BitVec.ofNat 13 k).toNat = k ∧ (BitVec.ofNat 10 n).toNat = n ∧
      (s.ipos + BitVec.ofNat 64 k).toNat ≤ s.cfg.input.length := fun hk hn hi => by
    rw [ipos_add_toNat hin (by omega), BitVec.toNat_ofNat, BitVec.toNat_ofNat]
    omega
  obtain ⟨t, ht, ⟨k, n, hk, hn, hi, -, hrv, hok⟩ | ⟨c, info, u, ⟨hc, k, n, hk, hn, hi, hu⟩, rfl⟩⟩ :=
    settleTdes_all (tdesBody_all hv hin.1 hin.2)
  · obtain ⟨hkn, hnn, hend⟩ := hcounts (by omega) hn hi
    refine ⟨t, exec_tdes hf ▸ ht, ?_⟩
    generalize t.nm = m, t.rootv = rv at hrv hok
    subst hok
    exact ⟨by rw [hkn], hend, by rw [hkn]; omega, by rw [hnn]; omega, rfl, .inl ⟨hf, hrv, rfl⟩⟩
  · obtain ⟨hkn, hnn, hend⟩ := hcounts hk hn hi
    obtain ⟨hne, hlo, hhi⟩ := hc.code
    rw [if_neg hne] at ht
    refine ⟨u.dropTree.latch c info, exec_tdes hf ▸ ht, ?_⟩
    rw [hu]
    exact ⟨by simp only [State.latch_tcnt, State.dropTree_tcnt, hkn]; rfl, hend,
      by simp only [State.latch_tcnt, State.dropTree_tcnt, hkn]; omega,
      by simp only [State.latch_nalloc, State.dropTree_nalloc, hnn]; omega, rfl, .inr ⟨rfl, hlo, hhi, rfl⟩⟩

end Sys2Proof.Machine

/-! ### A pass of `TDES` by the bytes that are left (30_encoding.md R69, 42_tree_codec.md R118, R122) -/

namespace Sys2Proof.Machine

theorem State.took_one_took_one (s : State) : (s.took 1).took 1 = s.took 2 := by
  simp [State.took, BitVec.add_assoc]

/-- Where the first bytes that are left have been taken, the position is still in the input and the others are left
(R31, R45). -/
theorem rest_after_taking {s t : State} {bs more : List Byte} (hin : InputOk s) (h : s.rest = bs ++ more)
    (hcfg : t.cfg = s.cfg) (hi : t.ipos = s.ipos + BitVec.ofNat 64 bs.length) : InputOk t ∧ t.rest = more := by
  have hlen : bs.length + more.length = s.cfg.input.length - s.ipos.toNat := by
    rw [← s.rest_length, h, List.length_append]
  have hpos := hin.2
  refine ⟨(InputKept.of_taken hin (by omega) hcfg hi).inputOk hin, ?_⟩
  calc t.rest = s.cfg.input.drop (s.ipos.toNat + bs.length) := by
        rw [State.rest, hcfg, hi, ipos_add_toNat hin (by omega)]
    _ = s.rest.drop bs.length := List.drop_drop.symm
    _ = more := by rw [h, List.drop_left]

/-- One byte read, those behind it are left (R45). -/
theorem State.took_one_rest {s : State} {b : Byte} {more : List Byte} (hin : InputOk s) (h : s.rest = b :: more) :
    (s.took 1).rest = more :=
  (rest_after_taking (t := s.took 1) (bs := [b]) hin h rfl rfl).2

theorem tdesPass_of_end {s : State} (h : s.rest = []) : tdesPass s = .raised .treeTrunc s.ipos s :=
  getByte_of_end _ h

theorem tdesPass_of_mark {s : State} {more : List Byte} (hc : s.cfg.ok) (h : s.rest = s.cfg.mark :: more) :
    tdesPass s = place (.internal 0 0) (s.took 1) := by
  rw [tdesPass, getByte_of_rest _ h, if_neg (by exact hc), if_pos (by rfl)]
  rfl

theorem tdesPass_of_lit {s : State} {b : Byte} {more : List Byte} (he : b ≠ s.cfg.esc) (hm : b ≠ s.cfg.mark)
    (h : s.rest = b :: more) : tdesPass s = place (.leaf b) (s.took 1) := by
  rw [tdesPass, getByte_of_rest _ h, if_neg he, if_neg hm]
  rfl

/-- After the escape byte the pass reads the symbol (R69). -/
theorem tdesPass_of_escape {s : State} {more : List Byte} (h : s.rest = s.cfg.esc :: more) :
    tdesPass s = getByte (s.took 1) fun x u => place (.leaf x) u := by
  rw [tdesPass, getByte_of_rest _ h, if_pos (by rfl)]
  rfl

theorem tdesPass_of_esc {s : State} {x : Byte} {more : List Byte} (hin : InputOk s) (h : s.rest = s.cfg.esc :: x :: more) :
    tdesPass s = place (.leaf x) (s.took 2) := by
  have hrest : (s.took 1).rest = x :: more := State.took_one_rest hin h
  rw [tdesPass_of_escape h, getByte_of_rest _ hrest, ← s.took_one_took_one]
  rfl

theorem tdesPass_of_cut {s : State} (hin : InputOk s) (h : s.rest = [s.cfg.esc]) :
    tdesPass s = .raised .treeTrunc (s.ipos + 1) (s.took 1) := by
  have hrest : (s.took 1).rest = [] := State.took_one_rest hin h
  rw [tdesPass_of_escape h, getByte_of_end _ hrest]
  rfl

end Sys2Proof.Machine

/-! ### `TDES` as a run of its tokens (42_tree_codec.md R118, R178) -/

namespace Sys2Proof.Machine

theorem step_of_no_token {s : State} {e : Reject} (ho : s.treeOpen = true) (hf : s.fault = false)
    (hd : decodeToken s.cfg s.rest = .error e) : step s = settleTdes (tdesPass s) := by
  have hfetch : fetch s = .token s.rest := by simp [fetch, ho]
  simp [step, hfetch, hd, truncatedToken, hf]

/-- Inside the loop a step is one pass of it, whatever bytes are left (R118). -/
theorem step_of_open {s : State} (ho : s.treeOpen = true) (hf : s.fault = false) (hin : InputOk s) :
    step s = settleTdes (tdesPass s) := by
  have hlen := s.rest_length
  match hrest : s.rest with
  | [] => exact step_of_no_token (e := .noByte) ho hf (by rw [hrest]; rfl)
  | b :: more =>
    rw [hrest, List.length_cons] at hlen
    by_cases he : b = s.cfg.esc
    · subst he
      match more with
      | [] => exact step_of_no_token (e := .escCut) ho hf (by simp [hrest, decodeToken])
      | x :: more =>
        rw [List.length_cons] at hlen
        rw [step_of_token ho (by rw [hrest, decodeToken_esc]), exec_esc_of_more x hf hin.1 (by omega),
          tdesPass_of_esc hin hrest]
    · by_cases hm : b = s.cfg.mark
      · subst hm
        rw [step_of_token ho (by rw [hrest, decodeToken_mark he]), exec_mark_of_more hf (by omega),
          tdesPass_of_mark he hrest]
      · rw [step_of_token ho (by rw [hrest, decodeToken_lit he hm]), exec_lit_of_more b hf (by omega),
          tdesPass_of_lit he hm hrest]

theorem core_run_succ {s t : State} (h : step s = .next t) (n : Nat) :
    Host.Core.run core (n + 1) s = Host.Core.run core n t := by
  simp only [Host.Core.run, show core.step s = .next t from h]

/-- The loop, with fuel for the entries that are left, is a run of at most as many steps (R118, R178). -/
theorem run_of_tdesLoop (fuel : Nat) {s : State} (hf : s.fault = false) (hin : InputOk s) (hn : s.nalloc.toNat ≤ 512)
    (hfuel : 513 ≤ fuel + s.nalloc.toNat) :
    ∃ n, n ≤ fuel ∧ Host.Core.run core n s = settleTdes (tdesLoop fuel s) := by
  induction fuel generalizing s with
  | zero => omega
  | succ fuel ih =>
    cases ho : s.treeOpen with
    | false => exact ⟨0, Nat.zero_le _, by rw [tdesLoop_of_closed _ ho]; rfl⟩
    | true =>
      have hstep : step s = settleTdes (tdesPass s) := step_of_open ho hf hin
      have hpass := tdesPass_all hin.1
      rw [tdesLoop, if_pos ho]
      cases hp : tdesPass s with
      | unbounded =>
        rw [hp] at hpass
        exact hpass.elim
      | raised c info t =>
        rw [hp] at hstep
        exact ⟨1, by omega, core_run_succ hstep 0⟩
      | ok t =>
        rw [hp] at hpass hstep
        obtain ⟨k, -, -, hmoved⟩ := hpass
        have hin' : InputOk t := (hmoved.inputKept hin).inputOk hin
        obtain ⟨-, hne, -, -, ht⟩ := hmoved
        have hna : t.nalloc.toNat = s.nalloc.toNat + 1 := by rw [ht, nalloc_succ (by omega)]
        obtain ⟨n, hle, hrun⟩ := ih (s := t) (by rw [ht]; exact hf) hin' (by omega) (by omega)
        exact ⟨n + 1, by omega, (core_run_succ hstep n).trans hrun⟩

/-- Settles O31: the start leaves the loop at its top, and from there the loop is a run of its passes. -/
theorem tdesIsARunOfItsTokens : Obligations.TdesIsARunOfItsTokens := by
  intro s s₀ hf hin hstart ho
  have htop := tdesStart_open hstart ho
  subst htop
  rw [exec_tdes hf, hstart, Body.bind_ok]
  exact run_of_tdesLoop (s := s.tdesTop) Config.tdesPasses hf hin (Nat.zero_le _) (Nat.le_refl _)

end Sys2Proof.Machine

/-! ### Tokens that complete the tree or pass a bound (42_tree_codec.md R118, R121 to R123) -/

namespace Sys2Proof.Machine

/-- Settles O33: the leaf is placed with no node left open, and the end of its pass names the root or finds the count wrong. -/
theorem leafTokenCompletesTheTree : Obligations.LeafTokenCompletesTheTree := by
  intro s i sym k hi hf hin hk hn hstk
  have hidx : (s.took k).nextNode.toNat = s.nalloc.toNat := nextNode_toNat hn
  have hclosed : afterHang s.stk = [] := by
    rcases hstk with h | ⟨p, l, r, h, -, -⟩ <;> rw [h] <;> rfl
  have hother : ∀ e below, s.stk = e :: below → e.node.toNat ≠ s.nalloc.toNat := fun e below he => by
    rcases hstk with h | ⟨p, l, r, h, -, hne⟩
    · cases h.symm.trans he
    · cases h.symm.trans he
      exact hne
  obtain ⟨m, hplace, hnew, hparent, hrest⟩ := place_spec (s := s.took k) (.leaf sym) hn hother
  rw [openNode_leaf, Body.bind_ok, show afterHang (s.took k).stk = [] from hclosed] at hplace
  rw [exec_leafToken hi hf hin.1 hk, hplace]
  by_cases hlen : s.cfg.checkTlen = false ∨ s.tcnt + BitVec.ofNat 13 k = s.htlen
  · rw [closePass_of_done rfl hlen]
    refine ⟨_, rfl, fun _ => ⟨(congrArg (nmRead m) hidx).trans hnew, fun p l r h hp => ?_, fun j hj hj' => ?_, rfl⟩,
      fun hc hne => ?_⟩
    · exact hparent _ _ h l r hp
    · refine hrest j.toNat (fun h => hj (BitVec.eq_of_toNat_eq (h.trans hidx.symm))) fun e below h heq => ?_
      exact hj' e (h ▸ List.mem_cons_self) (BitVec.eq_of_toNat_eq heq)
    · rcases hlen with h | h
      · cases h.symm.trans hc
      · exact absurd h hne
  · have hc : s.cfg.checkTlen = true := by simpa using (not_or.mp hlen).1
    have hne : s.tcnt + BitVec.ofNat 13 k ≠ s.htlen := (not_or.mp hlen).2
    rw [closePass_of_mismatch (by rfl) (by exact hc) (by exact hne)]
    exact ⟨_, rfl, fun h => absurd h hlen, fun _ _ => rfl⟩

theorem place_of_full (nd : Node) {s : State} (h : s.nalloc.toNat = 512) :
    place nd s = .raised .nodeOvf s.ipos s := by
  rw [place, if_pos (by exact h)]

/-- A node that waits for its left child stays open when it gets it (R118). -/
theorem afterHang_length {stk : List StkEntry} (h : ∀ e ∈ stk.head?, e.waitLeft = true) :
    (afterHang stk).length = stk.length := by
  cases stk with
  | nil => rfl
  | cons e below => simp [afterHang, h e rfl]

/-- An internal node that finds every stack entry taken is `STK_OVF` with its own index (R118, R123). -/
theorem place_of_stkFull {s : State} (l r : NodeIdx) (hn : s.nalloc.toNat < 512) (h : (afterHang s.stk).length = 256) :
    ∃ m, place (.internal l r) s =
      .raised .stkOvf (zext64 s.nextNode) { s with nm := m, nalloc := s.nalloc + 1, stk := afterHang s.stk } := by
  rw [place_open _ hn, openNode_of_full l r _ h]
  exact ⟨_, rfl⟩

/-- The entry of the next node as an information value (R34). -/
theorem zext64_nextNode {s : State} (hn : s.nalloc.toNat < 512) : zext64 s.nextNode = s.nalloc.setWidth 64 := by
  apply BitVec.eq_of_toNat_eq
  rw [zext64, BitVec.toNat_setWidth_of_le (by decide), nextNode_toNat hn, BitVec.toNat_setWidth_of_le (by decide)]

/-- Settles O35: the first three are the placing of a node, the last two a pass over bytes that are no token. -/
theorem tokensBeyondCapacityFault : Obligations.TokensBeyondCapacityFault := by
  intro s hf hin
  refine ⟨fun hpos hfull sym i hi => ?_, fun hpos hfull sym => ?_, fun hpos hn hstk hwait => ?_, fun hend ho => ?_,
    fun hend ho hesc => ?_⟩
  · simp only [List.mem_cons, List.not_mem_nil, or_false] at hi
    rcases hi with rfl | rfl
    · rw [exec_mark_of_more hf hpos, place_of_full _ (by exact hfull)]
      rfl
    · rw [exec_lit_of_more sym hf hpos, place_of_full _ (by exact hfull)]
      rfl
  · rw [exec_esc_of_more sym hf hin.1 hpos, place_of_full _ (by exact hfull)]
    rfl
  · obtain ⟨m, hplace⟩ := place_of_stkFull (s := s.took 1) 0 0 hn ((afterHang_length hwait).trans hstk)
    rw [exec_mark_of_more hf hpos, hplace, zext64_nextNode (by exact hn)]
    rfl
  · have hrest : s.rest = [] := List.drop_eq_nil_of_le hend.ge
    rw [step_of_open ho hf hin, tdesPass_of_end hrest]
    rfl
  · have hrest : s.rest = [s.cfg.esc] := by
      obtain ⟨hlt, hb⟩ := List.getElem?_eq_some_iff.mp hesc
      rw [State.rest, List.drop_eq_getElem_cons hlt, hb, List.drop_eq_nil_of_le hend.ge]
    rw [step_of_open ho hf hin, tdesPass_of_cut hin hrest]
    rfl

end Sys2Proof.Machine

/-! ### `TDES` of a serialized tree (42_tree_codec.md R119, R121) -/

namespace Sys2Proof.Machine

/-- From `m` to `m'` the node memory has grown by the entries `n` to `n + k - 1`, the first of them hung under the innermost
open node; every other entry is as before. -/
structure Grown (m m' : List (Nat × Node)) (n k : Nat) (stk : List StkEntry) : Prop where
  hung : ∀ e below, stk = e :: below → ∀ l r, nmRead m e.node.toNat = some (.internal l r) →
    nmRead m' e.node.toNat = some (if e.waitLeft then .internal (BitVec.ofNat 9 n) r else .internal l (BitVec.ofNat 9 n))
  kept : ∀ j, j < n ∨ n + k ≤ j → (∀ e below, stk = e :: below → j ≠ e.node.toNat) → nmRead m' j = nmRead m j

/-- The state of the loop after `k` nodes of `b` bytes, the first hung under the innermost open node and none left open. -/
def State.grown (s : State) (m : List (Nat × Node)) (k b : Nat) : State :=
  { s.took b with nm := m, nalloc := s.nalloc + BitVec.ofNat 10 k, stk := afterHang s.stk }

@[simp] theorem State.grown_cfg (s : State) (m : List (Nat × Node)) (k b : Nat) : (s.grown m k b).cfg = s.cfg := rfl
@[simp] theorem State.grown_stk (s : State) (m : List (Nat × Node)) (k b : Nat) : (s.grown m k b).stk = afterHang s.stk := rfl

theorem State.grown_nalloc_toNat (s : State) (m : List (Nat × Node)) {k : Nat} (b : Nat) (h : s.nalloc.toNat + k ≤ 512) :
    (s.grown m k b).nalloc.toNat = s.nalloc.toNat + k := by
  show (s.nalloc + BitVec.ofNat 10 k).toNat = _
  rw [BitVec.toNat_add, BitVec.toNat_ofNat]
  omega

/-- The innermost open node was allocated before the next entry. -/
def OpenBelow (s : State) : Prop := ∀ e below, s.stk = e :: below → e.node.toNat < s.nalloc.toNat

theorem nextNode_eq_ofNat (s : State) : s.nextNode = BitVec.ofNat 9 s.nalloc.toNat := by
  apply BitVec.eq_of_toNat_eq
  rw [State.nextNode, BitVec.toNat_setWidth, BitVec.toNat_ofNat]

/-- Placing the node of a token of `b` bytes grows node memory by its entry (R118). -/
theorem place_grown (nd : Node) (b : Nat) {s : State} (hn : s.nalloc.toNat < 512) (ho : OpenBelow s) :
    ∃ m, Grown s.nm m s.nalloc.toNat 1 s.stk ∧ nmRead m s.nalloc.toNat = some nd ∧
      place nd (s.took b) = (openNode nd s.nextNode (s.grown m 1 b)).bind closePass := by
  obtain ⟨m, hplace, hnew, hparent, hrest⟩ :=
    place_spec (s := s.took b) nd hn fun e below he => Nat.ne_of_lt (ho e below he)
  refine ⟨m, ⟨fun e below he l r hp => ?_, fun j hj hj' => hrest j ?_ hj'⟩, hnew, hplace⟩
  · rw [← nextNode_eq_ofNat]
    exact hparent e below he l r hp
  · show j ≠ s.nalloc.toNat
    omega

theorem ofNat_nodeIdx_toNat {n : Nat} (h : n < 512) : (BitVec.ofNat 9 n).toNat = n := by
  rw [BitVec.toNat_ofNat, Nat.mod_eq_of_lt h]

/-- The entries of a numbered tree lie in a row, so a memory that keeps those holds the tree too (R119). -/
theorem stored_numbered_congr {m m' : List (Nat × Node)} (t : Tree) {n : Nat} (hn : n + t.size ≤ 512)
    (hkept : ∀ j, n ≤ j → j < n + t.size → nmRead m' j = nmRead m j) (hs : (t.numbered n).stored m) :
    (t.numbered n).stored m' := by
  induction t generalizing n with
  | leaf sym =>
    simp only [Tree.size] at hn hkept
    simp only [Tree.numbered, NTree.stored] at hs ⊢
    rw [ofNat_nodeIdx_toNat (by omega)] at hs ⊢
    rw [hkept n (by omega) (by omega), hs]
  | node l r ihl ihr =>
    simp only [Tree.size] at hn hkept
    simp only [Tree.numbered, NTree.stored] at hs ⊢
    obtain ⟨hi, hsl, hsr⟩ := hs
    rw [ofNat_nodeIdx_toNat (by omega)] at hi ⊢
    exact ⟨by rw [hkept n (by omega) (by omega), hi],
      ihl (by omega) (fun j hlo hhi => hkept j (by omega) (by omega)) hsl,
      ihr (by omega) (fun j hlo hhi => hkept j (by omega) (by omega)) hsr⟩

theorem numbered_idx (t : Tree) (n : Nat) : (t.numbered n).idx = BitVec.ofNat 9 n := by
  cases t <;> rfl

section
variable {m m₁ m₂ m₃ : List (Nat × Node)} {n kl kr : Nat} {i : NodeIdx} {stk open' : List StkEntry}
  (hi : i.toNat = n) (h₁ : Grown m m₁ n 1 stk) (h₂ : Grown m₁ m₂ (n + 1) kl ({ node := i, waitLeft := true } :: open'))
  (h₃ : Grown m₂ m₃ (n + 1 + kl) kr ({ node := i, waitLeft := false } :: open'))
include hi h₂ h₃

/-- A node and then its two subtrees: the entry of the node names both. -/
theorem grown_node_entry (hnew : nmRead m₁ n = some (.internal 0 0)) :
    nmRead m₃ n = some (.internal (BitVec.ofNat 9 (n + 1)) (BitVec.ofNat 9 (n + 1 + kl))) := by
  subst hi
  have hleft := h₂.hung _ _ rfl 0 0 hnew
  exact h₃.hung _ _ rfl _ _ hleft

/-- The subtrees leave all but the node's entry and their own as they were. -/
theorem grown_subtrees_kept {j : Nat} (hj : j < n ∨ n + 1 + kl + kr ≤ j) : nmRead m₃ j = nmRead m₁ j := by
  have hne : ∀ {w}, ∀ e below, ({ node := i, waitLeft := w } : StkEntry) :: open' = e :: below → j ≠ e.node.toNat := by
    rintro w e below he
    cases he
    show j ≠ i.toNat
    omega
  rw [h₃.kept j (by omega) hne, h₂.kept j (by omega) hne]

include h₁ in
/-- A node and then its two subtrees are one growth (R118). -/
theorem Grown.node (ho : ∀ e below, stk = e :: below → e.node.toNat < n) : Grown m m₃ n (1 + kl + kr) stk where
  hung e below he l r hp := by
    rw [grown_subtrees_kept hi h₂ h₃ (.inl (ho e below he))]
    exact h₁.hung e below he l r hp
  kept j hj hj' := by
    rw [grown_subtrees_kept hi h₂ h₃ (by omega)]
    exact h₁.kept j (by omega) hj'

end

/-- The loop of `TDES` stands before the bytes of the tree `t`, with entries and stack enough for it (R118). Each open node
that stays open below `t` has a right subtree still to come, so it takes two entries at least. -/
structure Before (s : State) (t : Tree) (bs more : List Byte) : Prop where
  treeOpen : s.treeOpen = true
  input : InputOk s
  bytes : s.rest = bs ++ more
  entries : s.nalloc.toNat + t.size ≤ 512
  stack : 2 * (afterHang s.stk).length + t.size ≤ 512
  openBelow : OpenBelow s

theorem Tree.size_pos (t : Tree) : 1 ≤ t.size := by
  cases t <;> simp only [Tree.size] <;> omega

/-- One pass for the bytes of a leaf, one or two (R67, R119). -/
theorem tdesLoop_of_leaf {s : State} {sym : Byte} {bs more : List Byte} (h : Before s (.leaf sym) bs more)
    (hpass : tdesPass s = place (.leaf sym) (s.took bs.length)) (fuel : Nat) :
    ∃ m, ((Tree.leaf sym).numbered s.nalloc.toNat).stored m ∧ Grown s.nm m s.nalloc.toNat 1 s.stk ∧
      tdesLoop (fuel + 1) s = (closePass (s.grown m 1 bs.length)).bind (tdesLoop fuel) := by
  have hn : s.nalloc.toNat < 512 := by
    have := h.entries
    simp only [Tree.size] at this
    omega
  obtain ⟨m, hgrown, hnew, hplace⟩ := place_grown (.leaf sym) bs.length hn h.openBelow
  refine ⟨m, ?_, hgrown, ?_⟩
  · show nmRead m (BitVec.ofNat 9 s.nalloc.toNat).toNat = some (.leaf sym)
    rwa [ofNat_nodeIdx_toNat hn]
  · rw [tdesLoop, if_pos h.treeOpen, hpass, hplace, openNode_leaf, Body.bind_ok]

/-- The state after the pass of a `MARK` whose node is in entry `NALLOC` of `m` (R118). -/
def State.opened (s : State) (m : List (Nat × Node)) : State :=
  { s.grown m 1 1 with stk := { node := s.nextNode, waitLeft := true } :: afterHang s.stk, treeOpen := true }

@[simp] theorem State.opened_cfg (s : State) (m : List (Nat × Node)) : (s.opened m).cfg = s.cfg := rfl
@[simp] theorem State.opened_stk (s : State) (m : List (Nat × Node)) :
    (s.opened m).stk = { node := s.nextNode, waitLeft := true } :: afterHang s.stk := rfl

theorem tdesLoop_of_mark {s : State} {l r : Tree} {bs more : List Byte} (hc : s.cfg.ok)
    (h : Before s (.node l r) (s.cfg.mark :: bs) more) (fuel : Nat) :
    ∃ m, Grown s.nm m s.nalloc.toNat 1 s.stk ∧ nmRead m s.nalloc.toNat = some (.internal 0 0) ∧
      tdesLoop (fuel + 1) s = tdesLoop fuel (s.opened m) := by
  have hl := l.size_pos
  have hr := r.size_pos
  have hentries := h.entries
  have hstack := h.stack
  simp only [Tree.size] at hentries hstack
  obtain ⟨m, hgrown, hnew, hplace⟩ := place_grown (.internal 0 0) 1 (by omega) h.openBelow
  refine ⟨m, hgrown, hnew, ?_⟩
  rw [tdesLoop, if_pos h.treeOpen, tdesPass_of_mark hc h.bytes, hplace, openNode_closePass_of_room, Body.bind_ok]
  · rfl
  · show (afterHang s.stk).length < 256
    omega

section
variable {s : State} {l r : Tree} {bl br more : List Byte} (h : Before s (.node l r) (s.cfg.mark :: (bl ++ br)) more)
include h

theorem Before.opened_nalloc_toNat (m : List (Nat × Node)) : (s.opened m).nalloc.toNat = s.nalloc.toNat + 1 := by
  have := h.entries
  have := (Tree.node l r).size_pos
  exact nalloc_succ (by omega)

theorem Before.nextNode_toNat : s.nextNode.toNat = s.nalloc.toNat := by
  have := h.entries
  have := (Tree.node l r).size_pos
  exact Machine.nextNode_toNat (by omega)

/-- Behind the `MARK` stands its left subtree. -/
theorem Before.left (m : List (Nat × Node)) : Before (s.opened m) l bl (br ++ more) := by
  have hentries := h.entries
  have hstack := h.stack
  have hpos := r.size_pos
  simp only [Tree.size] at hentries hstack
  have hn := h.opened_nalloc_toNat m
  have hbytes : s.rest = [s.cfg.mark] ++ (bl ++ (br ++ more)) := by rw [h.bytes]; simp
  obtain ⟨hin, hrest⟩ := rest_after_taking (t := s.opened m) h.input hbytes rfl rfl
  refine ⟨rfl, hin, hrest, by omega, ?_, ?_⟩
  · rw [State.opened_stk, afterHang_left, List.length_cons]
    omega
  · rintro e below he
    cases he
    rw [hn, h.nextNode_toNat]
    omega

/-- Behind the left subtree stands the right one. -/
theorem Before.right (m m' : List (Nat × Node)) : Before ((s.opened m).grown m' l.size bl.length) r br more := by
  have hleft := h.left m
  have hentries := h.entries
  have hstack := h.stack
  simp only [Tree.size] at hentries hstack
  have hn := (s.opened m).grown_nalloc_toNat m' bl.length hleft.entries
  have hn' := h.opened_nalloc_toNat m
  obtain ⟨hin, hrest⟩ := rest_after_taking (t := (s.opened m).grown m' l.size bl.length) hleft.input hleft.bytes rfl rfl
  refine ⟨rfl, hin, hrest, by omega, ?_, ?_⟩
  · rw [State.grown_stk, State.opened_stk, afterHang_left, afterHang_right]
    omega
  · rintro e below he
    cases he
    rw [hn, hn', h.nextNode_toNat]
    omega

end

/-- A node and then its two subtrees, as one growth of the loop's state. -/
theorem State.opened_grown_grown {s : State} (ho : s.treeOpen = true) (m₁ m₂ m₃ : List (Nat × Node)) (kl kr bl br : Nat) :
    ((s.opened m₁).grown m₂ kl bl).grown m₃ kr br = s.grown m₃ (1 + kl + kr) (bl + br + 1) := by
  simp [State.opened, State.grown, State.took, ho, BitVec.ofNat_add, BitVec.add_assoc, Nat.add_comm _ 1]

/-- The loop along the bytes of a tree (R119): the tree stands in node memory, numbered in pre-order from the next entry,
hung under the innermost open node, and the pass of its last token is about to end. -/
theorem tdesLoop_of_parses {c : Config} {t : Tree} {bs : List Byte} (hc : c.ok) (hp : Parses c t bs) {s : State}
    {more : List Byte} (hcfg : s.cfg = c) (hb : Before s t bs more) (fuel : Nat) :
    ∃ m, (t.numbered s.nalloc.toNat).stored m ∧ Grown s.nm m s.nalloc.toNat t.size s.stk ∧
      tdesLoop (fuel + t.size) s = (closePass (s.grown m t.size bs.length)).bind (tdesLoop fuel) := by
  induction hp generalizing s more fuel with
  | lit sym hm he =>
    subst hcfg
    exact tdesLoop_of_leaf hb (tdesPass_of_lit he hm hb.bytes) fuel
  | esc sym =>
    subst hcfg
    exact tdesLoop_of_leaf hb (tdesPass_of_esc hb.input hb.bytes) fuel
  | @node l r bl br _ _ ihl ihr =>
    subst hcfg
    obtain ⟨m₁, h₁, hnew, hmark⟩ := tdesLoop_of_mark hc hb (fuel + r.size + l.size)
    obtain ⟨m₂, hsl, h₂, hloopl⟩ := ihl (s := s.opened m₁) rfl (hb.left m₁) (fuel + r.size)
    obtain ⟨m₃, hsr, h₃, hloopr⟩ :=
      ihr (s := (s.opened m₁).grown m₂ l.size bl.length) (by simp) (hb.right m₁ m₂) fuel
    have hn := hb.opened_nalloc_toNat m₁
    have hn' := (s.opened m₁).grown_nalloc_toNat m₂ bl.length (hb.left m₁).entries
    rw [hn] at hn' hsl h₂
    rw [hn'] at hsr h₃
    have hentries := hb.entries
    have hr := r.size_pos
    simp only [Tree.size] at hentries
    have hkept : ∀ j, s.nalloc.toNat + 1 ≤ j → j < s.nalloc.toNat + 1 + l.size → nmRead m₃ j = nmRead m₂ j :=
      fun j hlo hhi => h₃.kept j (.inl hhi) fun e below he => by
        cases he
        show j ≠ s.nextNode.toNat
        rw [hb.nextNode_toNat]
        omega
    refine ⟨m₃, ⟨?_, stored_numbered_congr l (by omega) hkept hsl, hsr⟩,
      h₁.node hb.nextNode_toNat h₂ h₃ hb.openBelow, ?_⟩
    · rw [ofNat_nodeIdx_toNat (by omega), numbered_idx, numbered_idx]
      exact grown_node_entry hb.nextNode_toNat h₂ h₃ hnew
    · calc tdesLoop (fuel + (1 + l.size + r.size)) s
          = tdesLoop (fuel + r.size + l.size) (s.opened m₁) := by
            rw [show fuel + (1 + l.size + r.size) = fuel + r.size + l.size + 1 by omega, hmark]
        _ = tdesLoop (fuel + r.size) ((s.opened m₁).grown m₂ l.size bl.length) := by
            rw [hloopl, closePass_of_open (by simp [State.grown, State.opened]), Body.bind_ok]
            rfl
        _ = (closePass (s.grown m₃ (1 + l.size + r.size) (s.cfg.mark :: (bl ++ br)).length)).bind (tdesLoop fuel) := by
            rw [hloopr, State.opened_grown_grown hb.treeOpen, List.length_cons, List.length_append]

end Sys2Proof.Machine

/-! ### `TDES` of a complete tree, and the round trip (42_tree_codec.md R119, R121, R125) -/

namespace Sys2Proof.Machine

/-- Each node has one byte or two (R67, R69). -/
theorem Parses.length_le {c : Config} {t : Tree} {bs : List Byte} (h : Parses c t bs) :
    1 ≤ bs.length ∧ bs.length ≤ 2 * t.size := by
  induction h with
  | lit sym => exact ⟨Nat.le_refl 1, by simp [Tree.size]⟩
  | esc sym => exact ⟨by simp, by simp [Tree.size]⟩
  | node _ _ ihl ihr =>
    simp only [List.length_cons, List.length_append, Tree.size]
    omega

/-- The state of the loop with all of a tree read from its top (R118). -/
theorem State.tdesTop_grown (s : State) (m : List (Nat × Node)) (k b : Nat) :
    s.tdesTop.grown m k b = { s with
      nm := m, nalloc := BitVec.ofNat 10 k, rootv := false, root := 0, tcnt := BitVec.ofNat 13 b,
      ipos := s.ipos + BitVec.ofNat 64 b, stk := [], treeOpen := true } := by
  simp [State.tdesTop, State.grown, State.took]

section
variable {s : State} {t : Tree} {bs more : List Byte} (hf : s.fault = false) (hv : s.hv = true) (hin : InputOk s)
  (hc : s.cfg.ok) (hrest : s.rest = bs ++ more) (hp : Parses s.cfg t bs) (hsize : t.size ≤ 512) (h0 : s.htlen ≠ 0)
  (hroom : s.cfg.checkTlen = true → s.htlen.toNat ≤ s.remaining)
include hf hv hin hc hrest hp hsize h0 hroom

/-- `TDES` on the bytes of a tree comes to the end of the pass of its last token with the tree built (R119). -/
theorem exec_tdes_of_parses :
    ∃ m, (t.numbered 0).stored m ∧ (∀ j, t.size ≤ j → nmRead m j = none) ∧
      exec .tdes s = settleTdes
        ((closePass (s.tdesTop.grown m t.size bs.length)).bind (tdesLoop (Config.tdesPasses - t.size))) := by
  have hfuel : Config.tdesPasses - t.size + t.size = Config.tdesPasses :=
    Nat.sub_add_cancel (hsize.trans (by decide))
  have hbefore : Before s.tdesTop t bs more :=
    ⟨rfl, hin, hrest, (Nat.zero_add _).trans_le hsize, (Nat.zero_add _).trans_le hsize, nofun⟩
  obtain ⟨m, hstored, hgrown, hloop⟩ := tdesLoop_of_parses (s := s.tdesTop) hc hp rfl hbefore (Config.tdesPasses - t.size)
  refine ⟨m, hstored, fun j hj => hgrown.kept j (.inr ((Nat.zero_add _).trans_le hj)) nofun, ?_⟩
  rw [exec_tdes hf, tdesStart_of_room hv h0 hroom, Body.bind_ok, ← hloop, hfuel]

/-- The tree is complete, and the header does not contradict its length: its root is named (R118, R119). -/
theorem exec_tdes_completes (hlen : s.cfg.checkTlen = false ∨ BitVec.ofNat 13 bs.length = s.htlen) :
    ∃ m, exec .tdes s = .next { s with
        nm := m, root := 0, rootv := true, nalloc := BitVec.ofNat 10 t.size, tcnt := BitVec.ofNat 13 bs.length,
        ipos := s.ipos + BitVec.ofNat 64 bs.length, stk := [], treeOpen := false, resp := 0 } ∧
      (t.numbered 0).stored m ∧ ∀ j, t.size ≤ j → nmRead m j = none := by
  obtain ⟨m, hstored, hnone, hexec⟩ := exec_tdes_of_parses hf hv hin hc hrest hp hsize h0 hroom
  refine ⟨m, ?_, hstored, hnone⟩
  rw [hexec, s.tdesTop_grown, closePass_of_done rfl hlen, Body.bind_ok, tdesLoop_of_closed _ rfl, settleTdes_ok]

/-- The tree is complete, and the header says another length (R121). -/
theorem exec_tdes_mismatches (hcheck : s.cfg.checkTlen = true) (hlen : BitVec.ofNat 13 bs.length ≠ s.htlen) :
    exec .tdes s = .next { s with
      nm := [], root := 0, rootv := false, nalloc := BitVec.ofNat 10 t.size, tcnt := BitVec.ofNat 13 bs.length,
      ipos := s.ipos + BitVec.ofNat 64 bs.length, fault := true, fcause := 6,
      finfo := zext64 (BitVec.ofNat 13 bs.length), resp := 0, holdv := false, stk := [], treeOpen := false } := by
  obtain ⟨m, -, -, hexec⟩ := exec_tdes_of_parses hf hv hin hc hrest hp hsize h0 hroom
  rw [hexec, s.tdesTop_grown, closePass_of_mismatch rfl (by exact hcheck) (by exact hlen)]
  rfl

end

/-- Settles O26: the bytes are there, so the loop is entered, builds the tree and finds its length right. -/
theorem tdesBuildsTheTreeInPreOrder : Obligations.TdesBuildsTheTreeInPreOrder := by
  intro s t bs more hf hv hin hc hrest hp hsize hlen
  have hpos := hp.length_le.1
  have hmore : bs.length + more.length = s.remaining := by
    rw [State.remaining, ← s.rest_length, State.rest, hrest, List.length_append]
  have h0 : s.htlen ≠ 0 := by
    rcases hlen with hlen | ⟨-, h0⟩
    · rintro h
      rw [h] at hlen
      exact absurd hlen.symm (Nat.ne_of_gt hpos)
    · exact h0
  refine exec_tdes_completes hf hv hin hc hrest hp hsize h0 (fun hcheck => ?_) ?_
  · rcases hlen with hlen | ⟨hno, -⟩
    · omega
    · cases hno.symm.trans hcheck
  · rcases hlen with hlen | ⟨hno, -⟩
    · exact .inr (hlen ▸ (BitVec.ofNat_toNat 13 s.htlen).trans (BitVec.setWidth_eq _))
    · exact .inl hno

/-- Settles O60: a tree of at most 512 nodes has fewer bytes than `TCNT` can count, so the two lengths differ there too. -/
theorem tdesOfAnotherLengthIsTlenMismatch : Obligations.TdesOfAnotherLengthIsTlenMismatch := by
  intro s t bs more hf hv hin hc hcheck hrest hp hsize h0 hroom hne
  have hlt : bs.length < 2 ^ 13 := by
    have := hp.length_le.2
    omega
  have hcount : (BitVec.ofNat 13 bs.length).toNat = bs.length := by
    rw [BitVec.toNat_ofNat, Nat.mod_eq_of_lt hlt]
  have hinfo : zext64 (BitVec.ofNat 13 bs.length) = BitVec.ofNat 64 bs.length := by
    apply BitVec.eq_of_toNat_eq
    rw [zext64, BitVec.toNat_setWidth_of_le (by decide), hcount, BitVec.toNat_ofNat, Nat.mod_eq_of_lt (by omega)]
  rw [exec_tdes_mismatches hf hv hin hc hrest hp hsize h0 (fun _ => hroom) hcheck fun h => hne (by rw [← h, hcount]), hinfo]

/-- The recursive serialization is read as its tree (R69, R113). -/
theorem parses_ser (c : Config) (t : Tree) : Parses c t (t.ser c) := by
  induction t with
  | leaf sym =>
    simp only [Tree.ser]
    split
    · exact .esc sym
    · next h => exact .lit sym (fun hm => h (.inl hm)) (fun he => h (.inr he))
  | node l r ihl ihr => exact .node ihl ihr

/-- The serialization looks only at the two reserved bytes (R67). -/
theorem Tree.ser_congr {c d : Config} (hm : d.mark = c.mark) (he : d.esc = c.esc) (t : Tree) : t.ser d = t.ser c := by
  induction t with
  | leaf sym => simp only [Tree.ser, hm, he]
  | node l r ihl ihr => simp only [Tree.ser, hm, ihl, ihr]

/-- `HGET` of the two bytes of a header value takes that value's length and leaves the position behind them (R49, R129). -/
theorem exec_hget_of_hdrBytes {s : State} {h : Header} {more : List Byte} (hf : s.fault = false) (hin : InputOk s)
    (hrest : s.rest = (hdrBytes s.cfg h).1 :: (hdrBytes s.cfg h).2 :: more) :
    ∃ u, exec .hget s = .next u ∧ u.cfg = s.cfg ∧ u.fault = false ∧ u.hv = true ∧ u.htlen = hdrTlen h ∧
      u.ipos = s.ipos + 2 := by
  obtain ⟨h', hval, hexec⟩ := hgetTakesTheHeader s _ _ more hf hin hrest
  have hsame : h' = h := BitVec.eq_of_toNat_eq (hval.trans (hdrBytes_toNat s.cfg h))
  subst hsame
  exact ⟨_, hexec, rfl, hf, rfl, rfl, rfl⟩

/-- Settles O36: the serialization parses as the tree, and `HGET` gives its length. -/
theorem serializedTreeIsReadBack : Obligations.SerializedTreeIsReadBack := by
  intro s₁ s₂ t h more hf₁ hwf hc hmark hesc hf₂ hin hlen hrest
  have hsize : t.shape.size ≤ 512 := by
    obtain ⟨-, -, -, hnodup, -⟩ := hwf
    exact NTree.size_le_of_nodup hnodup
  obtain ⟨u, hget, hcfg, hfu, hvu, htlen, hpos⟩ := exec_hget_of_hdrBytes hf₂ hin hrest
  obtain ⟨hinu, hrestu⟩ := rest_after_taking (bs := [(hdrBytes s₂.cfg h).1, (hdrBytes s₂.cfg h).2]) hin hrest hcfg hpos
  rw [← hcfg] at hmark hesc
  have hcu : u.cfg.ok := by
    show u.cfg.mark ≠ u.cfg.esc
    rw [hmark, hesc]
    exact hc
  have hparses : Parses u.cfg t.shape (t.shape.ser s₁.cfg) := Tree.ser_congr hmark hesc t.shape ▸ parses_ser u.cfg t.shape
  have hlenu : u.htlen.toNat = (t.shape.ser s₁.cfg).length := by
    rw [htlen]
    exact hlen
  have hcount : (BitVec.ofNat 13 (t.shape.ser s₁.cfg).length).toNat = (t.shape.ser s₁.cfg).length := by
    rw [BitVec.toNat_ofNat, Nat.mod_eq_of_lt (hlenu ▸ u.htlen.isLt)]
  obtain ⟨m, hexec, hstored, -⟩ :=
    tdesBuildsTheTreeInPreOrder u t.shape _ more hfu hvu hinu hcu hrestu hparses hsize (.inl hlenu)
  exact ⟨_, _, _, tserEmitsTheRecursiveSerialization s₁ t hf₁ hwf, rfl, hget, hexec, hfu, rfl, rfl, hstored, hcount, rfl⟩

end Sys2Proof.Machine

/-! ### The header as an inverse pair, its end of input and its immediate form (43_header.md R129 to R131) -/

namespace Sys2Proof.Machine

/-- The order of the two bytes is the only parameter that splitting a header value looks at (R48). -/
theorem hdrBytes_congr {c d : Config} (h : d.hdrBigEndian = c.hdrBigEndian) (v : Header) : hdrBytes d v = hdrBytes c v := by
  simp only [hdrBytes, h]

/-- `HGET` of the two bytes of a header value takes both of its fields (R49, R129). -/
theorem exec_hget_of_hdrBytes_fields {s : State} {h : Header} {more : List Byte} (hf : s.fault = false) (hin : InputOk s)
    (hrest : s.cfg.input.drop s.ipos.toNat = (hdrBytes s.cfg h).1 :: (hdrBytes s.cfg h).2 :: more) :
    ∃ v, exec .hget s = .next v ∧ v.pad = hdrPad h ∧ v.htlen = hdrTlen h ∧ v.hv = true := by
  obtain ⟨h', hval, hexec⟩ := hgetTakesTheHeader s _ _ more hf hin hrest
  have hsame : h' = h := BitVec.eq_of_toNat_eq (hval.trans (hdrBytes_toNat s.cfg h))
  subst hsame
  exact ⟨_, hexec, rfl, rfl, rfl⟩

/-- Settles O41: `HGET` reassembles the `HDR` that `HPUT` split, and unpacking `HDR` gives back its two fields. -/
theorem hgetInvertsHput : Obligations.HgetInvertsHput := by
  intro s u more hf hfu hin horder
  refine ⟨_, [(hdrBytes s.cfg s.hdr).1, (hdrBytes s.cfg s.hdr).2], exec_hput hf, by simp, rfl, fun hrest => ?_⟩
  rw [← hdrBytes_congr horder] at hrest
  obtain ⟨v, hexec, hpad, hlen, hv⟩ := exec_hget_of_hdrBytes_fields hfu hin hrest
  exact ⟨v, hexec, hpad.trans (hdrPad_hdrPack s.padout s.tlen), hlen.trans (hdrTlen_hdrPack s.padout s.tlen), hv⟩

theorem hgetBody_of_short {s : State} (h : s.remaining < 2) : hgetBody s = .raised .hdrTrunc s.ipos s :=
  if_pos h

/-- Settles O39: the test for two bytes comes before either is taken. -/
theorem hgetOfTooFewBytesIsTruncated : Obligations.HgetOfTooFewBytesIsTruncated := by
  intro s hf hshort
  rw [exec_hget hf, hgetBody_of_short hshort]
  rfl

/-- The two fields are all of a header value (R64). -/
theorem hdrPad_hdrTlen_toNat (h : Header) : (hdrPad h).toNat * 2 ^ 13 + (hdrTlen h).toNat = h.toNat := by
  rw [hdrPad_toNat, hdrTlen_toNat, Nat.div_add_mod']

/-- Settles O40: the two fields of the immediate. -/
theorem hsetTakesTheHeaderFromTheWord : Obligations.HsetTakesTheHeaderFromTheWord :=
  fun _ imm16 hf => ⟨hdrPad imm16, hdrTlen imm16, (hdrPad_hdrTlen_toNat imm16).symm, exec_hset imm16 hf⟩

end Sys2Proof.Machine

/-! ### The command that does nothing (44_system.md R133) -/

namespace Sys2Proof.Machine

/-- Settles O9: `NOP` does not ask whether a fault is latched, and writes the response alone. -/
theorem nopOnlyResponds : Obligations.NopOnlyResponds :=
  fun _ => rfl

end Sys2Proof.Machine

/-! ### Leaving the fault state (60_exceptions.md R157, R158) -/

namespace Sys2Proof.Machine

/-- The only command word that decodes to `RST` (R79). -/
theorem word_of_decodeWord_rst {w : Word} (h : decodeWord w = .ok .rst) : w = 0x08000000#32 :=
  (Encoding.word.inj (encode_of_decodeWord Config.default h)).symm

/-- With a fault latched, an instruction that is not `RST` keeps the latch (R158). -/
theorem exec_keeps_latch {i : Instr} {s t : State} (hf : s.fault = true) (h : exec i s = .next t) (hi : i ≠ .rst) :
    t.fault = true ∧ t.fcause = s.fcause ∧ t.finfo = s.finfo := by
  rcases (exec_frame h hi).latch with ⟨hfault, hcause, hinfo⟩ | ⟨hno, -⟩
  · exact ⟨hfault.trans hf, hcause, hinfo⟩
  · simp [hf] at hno

/-- Settles O50, by what the step takes: the word of `RST` resets, and everything else keeps the latch. -/
theorem onlyResetLeavesTheFaultState : Obligations.OnlyResetLeavesTheFaultState := by
  intro s t hf h
  rcases step_next h with ⟨-, -, rfl⟩ | ⟨ho, w, later, i, hc, hd, he⟩ | ⟨-, w, later, e, -, -, ⟨-, rfl⟩ | ⟨hno, -⟩⟩ |
    ⟨-, ⟨-, rfl⟩ | ⟨hno, -⟩⟩
  · exact .inl ⟨hf, rfl, rfl⟩
  · by_cases hi : i = .rst
    · subst hi
      obtain rfl := word_of_decodeWord_rst hd
      cases he
      exact .inr ⟨ho, later, hc, rfl⟩
    · exact .inl (exec_keeps_latch (s := s.withCmds later) hf he hi)
  · exact .inl ⟨hf, rfl, rfl⟩
  · simp [hf] at hno
  · exact .inl ⟨hf, rfl, rfl⟩
  · simp [hf] at hno

end Sys2Proof.Machine

/-! ### Every step has one outcome, a next state (70_reset_and_hazards.md R178, R179) -/

namespace Sys2Proof.Machine

/-- A body that keeps to its loops' bounds ends in a next state (R155, R178). -/
theorem settle_answers {P : State → Prop} {Q : Cause → Resp → State → Prop} {b : Body} (h : b.All P Q) :
    ∃ t, settle b = .next t :=
  (settle_all h).imp fun _ => And.left

theorem settleTdes_answers {P : State → Prop} {Q : Cause → Resp → State → Prop} {b : Body} (h : b.All P Q) :
    ∃ t, settleTdes b = .next t :=
  (settleTdes_all h).imp fun _ => And.left

theorem unlessFault_answers {s : State} {run : Host.Outcome State Fault Refusal}
    (h : s.fault = false → ∃ t, run = .next t) : ∃ t, unlessFault s run = .next t := by
  cases hf : s.fault with
  | true => exact ⟨_, unlessFault_of_fault hf run⟩
  | false =>
    rw [unlessFault_of_no_fault hf]
    exact h hf

theorem illegalWord_answers (w : Word) (s : State) : ∃ t, illegalWord w s = .next t :=
  unlessFault_answers fun _ => ⟨_, settle_raised _ _ _⟩

theorem truncatedToken_answers {s : State} (hin : InputOk s) : ∃ t, truncatedToken s = .next t :=
  unlessFault_answers fun _ => settleTdes_answers (tdesPass_all hin.1)

theorem exec_rdcsr_answers (csr : BitVec 8) (s : State) : ∃ t, exec (.rdcsr csr) s = .next t := by
  rcases Nat.lt_or_ge 0x0F csr.toNat with hunassigned | hassigned
  · rw [exec_rdcsr_unassigned s hunassigned]
    exact illegalWord_answers _ s
  · obtain ⟨v, hv⟩ := readCsr_assigned s hassigned
    exact ⟨_, exec_rdcsr hv⟩

theorem exec_putb_answers (b : Bool) {s : State} (hf : s.fault = false) : ∃ t, exec (.putb b) s = .next t := by
  cases hd : s.fdone with
  | true => exact ⟨_, exec_putb_of_fdone b hf hd⟩
  | false => exact ⟨_, exec_putb b hf hd⟩

/-- A `len` that no legal word has raises `ILLEGAL` (R80 (c), R89). -/
theorem exec_putc_of_long {s : State} {len : BitVec 5} (code : BitVec 16) (hf : s.fault = false) (hl : 16 < len.toNat) :
    exec (.putc len code) s = .next (s.latch .illegal (zext64 (encPutc len code))) := by
  simp [exec, execPutc, hf, hl]

theorem exec_putc_answers (len : BitVec 5) (code : BitVec 16) {s : State} (hf : s.fault = false) :
    ∃ t, exec (.putc len code) s = .next t := by
  rcases Nat.lt_or_ge 16 len.toNat with hlong | hl
  · exact ⟨_, exec_putc_of_long code hf hlong⟩
  · cases hd : s.fdone with
    | true => exact ⟨_, exec_putc_of_fdone len code hf hd⟩
    | false => exact ⟨_, exec_putc code hf hd hl⟩

theorem exec_tdes_answers {s : State} (hf : s.fault = false) (hin : InputOk s) : ∃ t, exec .tdes s = .next t := by
  cases hv : s.hv with
  | false => exact ⟨_, (noHeaderIsRaisedFirst s hf hv).1⟩
  | true => exact exec_tdes hf ▸ settleTdes_answers (tdesBody_all hv hin.1 hin.2)

theorem exec_hget_answers {s : State} (hf : s.fault = false) (hin : InputOk s) : ∃ t, exec .hget s = .next t := by
  rw [exec_hget hf]
  rcases hgetBody_cases hin.1 with ⟨-, hraise⟩ | ⟨b0, b1, -, -, hok⟩
  · exact ⟨_, by rw [hraise, settle_raised]⟩
  · exact ⟨_, by rw [hok, settle_ok]⟩

theorem exec_unpk_answers {s : State} (hf : s.fault = false) (hin : InputOk s) : ∃ t, exec .unpk s = .next t := by
  cases hv : s.hv with
  | false => exact ⟨_, (noHeaderIsRaisedFirst s hf hv).2⟩
  | true => exact exec_unpk hf ▸ settle_answers (unpkBody_all hv hin.1 hin.2)

/-- With a fault latched an instruction is refused, or is one of the four that are performed as usual (R156). -/
theorem exec_answers_in_fault (i : Instr) {s : State} (hf : s.fault = true) : ∃ t, exec i s = .next t := by
  cases hi : performedInFault i with
  | false => exact ⟨_, (faultStateRefusesTheRest s hf).1 i hi⟩
  | true =>
    cases i
    case nop | rst | nrd => exact ⟨_, rfl⟩
    case rdcsr csr => exact exec_rdcsr_answers csr s
    all_goals cases hi

/-- With no fault latched each instruction ends or raises; the loops of `TSER`, `TDES` and `UNPK` within their bounds (R178). -/
theorem exec_answers_without_fault (i : Instr) {s : State} (hf : s.fault = false) (hin : InputOk s) :
    ∃ t, exec i s = .next t := by
  cases i with
  | nop | rst | nrd => exact ⟨_, rfl⟩
  | rdcsr csr => exact exec_rdcsr_answers csr s
  | putb b => exact exec_putb_answers b hf
  | putc len code => exact exec_putc_answers len code hf
  | fin => exact ⟨_, exec_fin hf⟩
  | nleaf idx sym => exact ⟨_, exec_nleaf idx sym hf⟩
  | nint idx l r => exact ⟨_, exec_nint idx l r hf⟩
  | sroot idx => exact ⟨_, exec_sroot idx hf⟩
  | tser => exact exec_tser hf ▸ settle_answers (tserBody_all s)
  | tdes => exact exec_tdes_answers hf hin
  | hput => exact ⟨_, exec_hput hf⟩
  | hget => exact exec_hget_answers hf hin
  | hset imm16 => exact ⟨_, exec_hset imm16 hf⟩
  | unpk => exact exec_unpk_answers hf hin
  | mark => exact exec_mark hf ▸ settleTdes_answers (getPlace_all s _)
  | esc sym => exact exec_esc sym hf ▸ settleTdes_answers (getGetPlace_all hin.1 fun _ => .leaf sym)
  | lit sym => exact exec_lit sym hf ▸ settleTdes_answers (getPlace_all s _)

theorem exec_answers (i : Instr) {s : State} (hin : InputOk s) : ∃ t, exec i s = .next t := by
  cases hf : s.fault with
  | true => exact exec_answers_in_fault i hf
  | false => exact exec_answers_without_fault i hf hin

/-- A step waits, performs what it decodes, or settles bits that are no instruction: an illegal word, a cut token. -/
theorem step_answers {s : State} (hin : InputOk s) : ∃ t, step s = .next t := by
  unfold step
  split
  · exact ⟨s, rfl⟩
  · next w later _ =>
    split
    · exact exec_answers _ (s := s.withCmds later) hin
    · exact illegalWord_answers w _
  · split
    · exact exec_answers _ hin
    · exact truncatedToken_answers hin

/-- Settles O8: each instruction answers by its own bounds, and a step takes one of them or settles what is none. -/
theorem everyStepAnswersANextState : Obligations.EveryStepAnswersANextState :=
  fun _ hin => ⟨step_answers hin, fun i => exec_answers i hin⟩

end Sys2Proof.Machine
